-- ==== Sys2Proof/Word.lean ====
section
/-! DEFINITION. The word types of CORE (10_state.md section 4 and R13). -/

namespace Sys2Proof

/-- A register or buffer word: 32 bits, unsigned (R13). -/
abbrev Word := BitVec 32

/-- A buffer byte, a symbol code, a result code (R17, R95, R98). -/
abbrev Byte := BitVec 8

end Sys2Proof
end

