-- ==== Sys2Proof/Syntax.lean ====
section
/-! DEFINITION. The commands of CORE, one constructor per row of spec/opcode_table.json (30_encoding.md R92, R93). -/

namespace Sys2Proof

/-- A command, as R92 gives its operands. Counts (`LEN16`) are numbers, since the rules compare and loop over them;
that they fit their 16-bit field is `Instr.wf`. The operands that come from registers (`OPA`, `OPB`) are not part
of the word (R91). -/
inductive Instr where
  /-- NOP (R200). -/
  | nop
  /-- EST (R115): `g` applies the range gate, `n` is the edge count. -/
  | est (g : Bool) (n : Nat)
  /-- S2F (R133): `c` is a symbol code. -/
  | s2f (c : Byte)
  /-- F2S (R136). -/
  | f2s
  /-- B2BITS (R137): `l` is the byte count `L`. -/
  | b2bits (l : Nat)
  /-- BITS2B (R138): `n` is the character count `N`. -/
  | bits2b (n : Nat)
  /-- TX_FRAME (R183): `l` is the payload byte count `L`. -/
  | txFrame (l : Nat)
  /-- TX_BITS (R185): `n` is the bit-character count `N`. -/
  | txBits (n : Nat)
  /-- TX_ABORT (R190). -/
  | txAbort
  /-- RX_START (R150). -/
  | rxStart
  /-- RX_STOP (R151). -/
  | rxStop
  /-- EVT_POP (R202). -/
  | evtPop
  /-- SOFT_RESET (R203). -/
  | softReset
deriving DecidableEq, Repr

end Sys2Proof
end

