-- ==== Sys2Proof/WellFormed.lean ====
section
/-! DEFINITION. Which commands a command word can hold: every count fits `LEN16` (30_encoding.md R90, R91). -/

namespace Sys2Proof

/-- The one check on a count: it fits the 16-bit field `LEN16`, `w[31:16]` (R91). -/
def fitsLen16 (n : Nat) : Bool := decide (n < 2 ^ 16)

/-- A command that some command word encodes. A flag and a symbol code fit their fields by their types. -/
def Instr.wf : Instr → Bool
  | .nop => true
  | .est _ n => fitsLen16 n
  | .s2f _ => true
  | .f2s => true
  | .b2bits l => fitsLen16 l
  | .bits2b n => fitsLen16 n
  | .txFrame l => fitsLen16 l
  | .txBits n => fitsLen16 n
  | .txAbort => true
  | .rxStart => true
  | .rxStop => true
  | .evtPop => true
  | .softReset => true

end Sys2Proof
end

