-- ==== Sys2Proof/Decode.lean ====
section
/-! DEFINITION. The command word (30_encoding.md sections 1, 2 and 6): its fields, the decoder, and the encoder.
The decoder is total on 32-bit words and refuses by name in the order of R94. -/

namespace Sys2Proof

/-- Why a command word is refused (R94, checks 1 and 2). CORE reports either in `RESULT`; it is no trap (R100). -/
inductive DecodeError where
  /-- `OPC` is not in R93's map: `fail ILLEGAL_OPCODE`. -/
  | illegalOpcode
  /-- A field that must be 0 is not: `fail ILLEGAL_OPERAND`. -/
  | illegalOperand
deriving DecidableEq, Repr

/-- `OPC = w[7:0]` (R91). -/
def fieldOpc (w : Word) : BitVec 8 := w.extractLsb' 0 8

/-- `ARG8 = w[15:8]` (R91). -/
def fieldArg8 (w : Word) : BitVec 8 := w.extractLsb' 8 8

/-- `LEN16 = w[31:16]` (R91). -/
def fieldLen16 (w : Word) : BitVec 16 := w.extractLsb' 16 16

/-- The second check of R94: the command, if every field that must be 0 is 0. -/
def ifZeroFields (zero : Bool) (i : Instr) : Except DecodeError Instr :=
  if zero then .ok i else .error .illegalOperand

/-- The command a word encodes, by the opcode map R93 and the must-be-zero fields of R92, in the order of R94. -/
def decode (w : Word) : Except DecodeError Instr :=
  let arg := fieldArg8 w
  let len := fieldLen16 w
  match (fieldOpc w).toNat with
  | 0x00 => ifZeroFields (arg == 0 && len == 0) .nop
  | 0x01 => ifZeroFields (arg.extractLsb' 1 7 == 0) (.est (arg.getLsbD 0) len.toNat)
  | 0x02 => ifZeroFields (len == 0) (.s2f arg)
  | 0x03 => ifZeroFields (arg == 0 && len == 0) .f2s
  | 0x04 => ifZeroFields (arg == 0) (.b2bits len.toNat)
  | 0x05 => ifZeroFields (arg == 0) (.bits2b len.toNat)
  | 0x06 => ifZeroFields (arg == 0) (.txFrame len.toNat)
  | 0x07 => ifZeroFields (arg == 0) (.txBits len.toNat)
  | 0x08 => ifZeroFields (arg == 0 && len == 0) .txAbort
  | 0x09 => ifZeroFields (arg == 0 && len == 0) .rxStart
  | 0x0A => ifZeroFields (arg == 0 && len == 0) .rxStop
  | 0x0B => ifZeroFields (arg == 0 && len == 0) .evtPop
  | 0x0C => ifZeroFields (arg == 0 && len == 0) .softReset
  | _ => .error .illegalOpcode

/-- The word with the three fields of R90. -/
def commandWord (opc arg8 : BitVec 8) (len16 : Nat) : Word :=
  BitVec.ofNat 16 len16 ++ arg8 ++ opc

/-- The command word of a well-formed command (R90, R92, R93, R104). A count that does not fit `LEN16`
(an ill-formed term) is cut to its low 16 bits. -/
def encode : Instr → Word
  | .nop => commandWord 0x00 0 0
  | .est g n => commandWord 0x01 (if g then 1 else 0) n
  | .s2f c => commandWord 0x02 c 0
  | .f2s => commandWord 0x03 0 0
  | .b2bits l => commandWord 0x04 0 l
  | .bits2b n => commandWord 0x05 0 n
  | .txFrame l => commandWord 0x06 0 l
  | .txBits n => commandWord 0x07 0 n
  | .txAbort => commandWord 0x08 0 0
  | .rxStart => commandWord 0x09 0 0
  | .rxStop => commandWord 0x0A 0 0
  | .evtPop => commandWord 0x0B 0 0
  | .softReset => commandWord 0x0C 0 0

/-- The bits of an opcode-table word as the command word: the low `nbits` bits of `w`, zero above them. A word that
needs more than 32 bits is no command word (R101). -/
def tableWord? (nbits w : Nat) : Option Word :=
  let v := w % 2 ^ nbits
  if v < 2 ^ 32 then some (BitVec.ofNat 32 v) else none

/-- The command the decoder reads from an opcode-table word. CORE stores no command words (R28, R75), so a word is
given to the decoder as the host writes it to `CMD`. -/
def decodeTableWord (nbits w : Nat) : Option Instr :=
  match tableWord? nbits w with
  | none => none
  | some v =>
    match decode v with
    | .ok i => some i
    | .error _ => none

end Sys2Proof
end

