-- ==== Sys2Proof/Config.lean ====
section
/-! DEFINITION. The configuration of CORE (00_scope.md section 4, 10_state.md R22): the OPEN parameters as the
fields of one plain record, and the parameters to which the spec gives a value. What is derived from them
(MIN_SEP, FMIN, FMAX) and the check that a configuration is well formed stand in Machine/Params.lean. -/

namespace Sys2Proof

/-- The four OPEN parameters (92_eei_decisions.md D8, D9, D11, D29). "A model takes them as arguments of the step
relation. No step changes them" (R22); the host's `step` takes only a state, so the state carries this record
(log entry 1). -/
structure Config where
  /-- `FREQ(code(i))` in Hz at list position `i`, for the table indices 0..66 of R95. -/
  freq : List Nat
  /-- `TOL_RESET`, R11. -/
  tolReset : Nat
  /-- `BIT_DUR_RESET`, R11. -/
  bitDurReset : Nat
  /-- `CORE_BASE`, R60. -/
  coreBase : Nat
deriving DecidableEq, Repr

/-- `US_PER_S`, 00_scope.md section 4. -/
def usPerS : Nat := 1000000
/-- `NSYM`, 00_scope.md section 4. -/
def nsym : Nat := 67
/-- `TIMEOUT_RESET`, 00_scope.md section 4 and R34. -/
def timeoutReset : Nat := 5000000
/-- `EDGE_MAX`, 00_scope.md section 4. -/
def edgeMax : Nat := 1024
/-- `TXBUF_SIZE`, 00_scope.md section 4. -/
def txbufSize : Nat := 1024
/-- `RXBUF_SIZE`, 00_scope.md section 4. -/
def rxbufSize : Nat := 1024
/-- `BITBUF_MAX`, 00_scope.md section 4. -/
def bitbufMax : Nat := 8192
/-- `CVTBUF_SIZE`, 00_scope.md section 4. -/
def cvtbufSize : Nat := 8192
/-- `EVT_DEPTH`, 00_scope.md section 4. -/
def evtDepth : Nat := 32
/-- `DUTY_PCT`, 00_scope.md section 4, R40 and R236. -/
def dutyPct : Nat := 50
/-- The bound `2^30` of `BIT_DUR_US`, R33. -/
def bitDurMax : Nat := 2 ^ 30
/-- The constant of the `ID` register, R26. -/
def idWord : Word := 0x46534B43#32
/-- The constant of the `VERSION` register, R26. -/
def versionWord : Word := 0x00000001#32

/-- `EXAMPLE_CFG` of R12, the configuration of the spec's test vectors. R12 gives it no `CORE_BASE`; the value 0
here is DESIGN CHOICE (log entry 1): no rule reads it but the platform's own decoding of addresses (R60). -/
def exampleCfg : Config :=
  { freq := (List.range 67).map (fun i => 1000 + 50 * i)
    tolReset := 20
    bitDurReset := 50000
    coreBase := 0 }

end Sys2Proof
end

