-- ==== Sys2Proof/Machine/Params.lean ====
section
/-! DEFINITION. What follows from the configuration: the symbol codes and their table order (30_encoding.md R95,
41_codec.md R130), the frequencies, MIN_SEP, FMIN and FMAX (00_scope.md section 4), the well-formed configurations
(R10, R11, R60), and where the window sits in the platform's address space (R60). -/

namespace Sys2Proof

/-- `code(i)`: the symbol code at table index `i`, in the table order of R95 and R130. An index above 66 is no
table index. The byte values of letters and digits are ASCII, as R17 and R95 take them. -/
def codeAt (i : Nat) : Byte :=
  if i < 26 then BitVec.ofNat 8 (0x41 + i)
  else if i < 52 then BitVec.ofNat 8 (0x61 + (i - 26))
  else if i < 62 then BitVec.ofNat 8 (0x30 + (i - 52))
  else BitVec.ofNat 8 (0x80 + (i - 62))

/-- The table index of a symbol code; none for the 189 codes that name no symbol (R95). -/
def indexOf? (c : Byte) : Option Nat :=
  let n := c.toNat
  if 0x41 ≤ n ∧ n ≤ 0x5A then some (n - 0x41)
  else if 0x61 ≤ n ∧ n ≤ 0x7A then some (26 + (n - 0x61))
  else if 0x30 ≤ n ∧ n ≤ 0x39 then some (52 + (n - 0x30))
  else if 0x80 ≤ n ∧ n ≤ 0x84 then some (62 + (n - 0x80))
  else none

/-- The symbol code START, R95. -/
def codeStart : Byte := 0x81
/-- The symbol code STOP, R95. -/
def codeStop : Byte := 0x82
/-- The symbol code BIT0, R95. -/
def codeBit0 : Byte := 0x83
/-- The symbol code BIT1, R95. -/
def codeBit1 : Byte := 0x84

/-- `FREQ(code(i))` for a table index. -/
def Config.freqAt (cfg : Config) (i : Nat) : Nat := cfg.freq.getD i 0

/-- `FREQ(c)` for a symbol code, none for a code that names no symbol (R10, R131). -/
def Config.freqOf? (cfg : Config) (c : Byte) : Option Nat := (indexOf? c).map cfg.freqAt

/-- `FREQ(c)` as a word, 0 for a code that names no symbol: the reading of `FREQ_TBL` (R41), and the tone
frequencies of R181 and R182. -/
def Config.freqWord (cfg : Config) (c : Byte) : Word := BitVec.ofNat 32 ((cfg.freqOf? c).getD 0)

/-- `abs(a - b)` of two naturals. -/
def absDiff (a b : Nat) : Nat := if a ≤ b then b - a else a - b

/-- The least entry of a list, 0 for the empty list. -/
def leastOf : List Nat → Nat
  | [] => 0
  | [a] => a
  | a :: b :: r => min a (leastOf (b :: r))

/-- The greatest entry of a list, 0 for the empty list. -/
def greatestOf : List Nat → Nat
  | [] => 0
  | a :: r => max a (greatestOf r)

/-- For each entry of a list but the last, the least `abs(a - b)` to an entry after it. -/
def separations : List Nat → List Nat
  | [] => []
  | [_] => []
  | a :: b :: r => leastOf ((b :: r).map (absDiff a)) :: separations (b :: r)

/-- `MIN_SEP`, 00_scope.md section 4: the least `abs(FREQ(a) - FREQ(b))` over distinct symbols. -/
def Config.minSep (cfg : Config) : Nat := leastOf (separations cfg.freq)
/-- `FMIN`, 00_scope.md section 4. -/
def Config.fMin (cfg : Config) : Nat := leastOf cfg.freq
/-- `FMAX`, 00_scope.md section 4. -/
def Config.fMax (cfg : Config) : Nat := greatestOf cfg.freq

/-- `floor(MIN_SEP / 2)`, the greatest tolerance (R11, R31). -/
def Config.tolMax (cfg : Config) : Nat := cfg.minSep / 2

/-- The reset value of `GATE_LO_HZ`: `max(0, FMIN - TOL_RESET)` (R32). -/
def Config.gateLoReset (cfg : Config) : Nat := cfg.fMin - cfg.tolReset
/-- The reset value of `GATE_HI_HZ`: `min(2^32 - 1, FMAX + TOL_RESET)` (R32). -/
def Config.gateHiReset (cfg : Config) : Nat := min (2 ^ 32 - 1) (cfg.fMax + cfg.tolReset)

/-- R10: a value for each of the 67 symbols. -/
def Config.freqTotal (cfg : Config) : Bool := cfg.freq.length == nsym
/-- R10: every value is in `1 .. 2^32 - 1`. -/
def Config.freqInRange (cfg : Config) : Bool := cfg.freq.all (fun f => decide (1 ≤ f ∧ f ≤ 2 ^ 32 - 1))
/-- R10: the values are pairwise distinct. -/
def Config.freqDistinct (cfg : Config) : Bool := decide (cfg.freq.Pairwise (· ≠ ·))
/-- R11: `0 <= TOL_RESET <= floor(MIN_SEP / 2)`. -/
def Config.tolInRange (cfg : Config) : Bool := decide (cfg.tolReset ≤ cfg.tolMax)
/-- R11: `1 <= BIT_DUR_RESET <= 2^30`. -/
def Config.bitDurInRange (cfg : Config) : Bool := decide (1 ≤ cfg.bitDurReset ∧ cfg.bitDurReset ≤ bitDurMax)
/-- R60: the base is aligned to 32 KiB. -/
def Config.baseAligned (cfg : Config) : Bool := cfg.coreBase % 2 ^ 15 == 0

/-- The configurations a model must not refuse (R10, R11), with the alignment R60 gives the base (log entry 2). -/
def Config.wf (cfg : Config) : Bool :=
  cfg.freqTotal && cfg.freqInRange && cfg.freqDistinct && cfg.tolInRange && cfg.bitDurInRange && cfg.baseAligned

/-- A configuration with the check that a model makes of it: one that is not well formed cannot be built, and
`State.powerOn?` refuses it (R10, R11). -/
structure WfConfig extends Config where
  isWf : toConfig.wf = true
deriving DecidableEq, Repr

/-- `EXAMPLE_CFG`, checked (R12). -/
def exampleWf : WfConfig := { exampleCfg with isWf := by decide +kernel }

/-- The platform's decoding of a bus address (R60): the byte offset in CORE's 32 KiB window, none for an address
outside it, which CORE never sees. -/
def Config.select (cfg : Config) (addr : Nat) : Option (BitVec 15) :=
  if cfg.coreBase ≤ addr ∧ addr < cfg.coreBase + 2 ^ 15 then some (BitVec.ofNat 15 (addr - cfg.coreBase)) else none

end Sys2Proof
end

