-- ==== Sys2Proof/Machine/State.lean ====
section
/-! DEFINITION. The state of CORE as plain data (10_state.md, 20_memory.md R63, 70_reset_and_hazards.md R252), grouped
by unit; the reasons a step can stop; and the state after power-on reset. INVENTORY.md lists every field with the rule
that names it. -/

namespace Sys2Proof.Machine

/-- Why a step faults: never. CORE has no trap (R220, R221) and 93_implementation_defined.md uses `fault` nowhere, so
no constructor raises one. Safe: every command has a next state. -/
inductive Fault where
deriving DecidableEq, Repr

/-- Why a step is refused. -/
inductive Refusal where
  /-- Raised by an arm of `exec` whose command has no meaning yet. Safe: the machine stops. No arm is left so. -/
  | notModelled (mnemonic : String)
  /-- Raised by `State.powerOn?` when the configuration is not well formed: a model must refuse it (R10, R11; U13 and
  U14 of 93_implementation_defined.md). Safe: no such machine is ever powered on. -/
  | illFormedConfig
deriving DecidableEq, Repr

/-! ## The environment -/

/-- The size of a host access (R60). -/
inductive AccessSize where
  | byte
  | half
  | word
deriving DecidableEq, Repr

/-- One host access (R60): a byte offset in the 32 KiB window, a size and, for a write, the data. Of the data of a
1- or 2-byte write only the low bytes would exist; no rule reads them, since the write is dropped (R62). -/
inductive HostAccess where
  | read (off : BitVec 15) (sz : AccessSize)
  | write (off : BitVec 15) (sz : AccessSize) (data : Word)
deriving DecidableEq, Repr

/-- What the environment does at one later time value: after `wait` ticks more than one, `edges` rising edges and then
the accesses, in order (R72). -/
structure EnvSlot where
  wait : Nat
  edges : Nat
  accesses : List HostAccess
deriving DecidableEq, Repr

/-- Which kinds of step may still come at the present time value, in the order of R72. -/
inductive Turn where
  /-- Just after the tick: the TX phase step, if due, comes first. -/
  | tx
  /-- The TX engine has had its turn: the RX window step, if due, comes next. -/
  | rx
  /-- Both engines have had their turns: edge captures come next. -/
  | edge
  /-- A host access has been made: only host accesses come until the next tick. -/
  | host
deriving DecidableEq, Repr

/-- The model's own fields: what the environment does at the present time value and later, and what the bus returned
to the last read (log entries 3 and 4). -/
structure Env where
  turn : Turn
  dueEdges : Nat
  dueAccesses : List HostAccess
  schedule : List EnvSlot
  rdata : Word
deriving DecidableEq, Repr

/-! ## The units -/

/-- The operand, result and result-code registers (R23, R24). -/
structure CmdRegs where
  /-- `RESULT[7:0]`; `RESULT[31:8]` reads 0 (R24). -/
  result : BitVec 8
  opaLo : Word
  opaHi : Word
  opbLo : Word
  opbHi : Word
  resLo : Word
  resHi : Word
  res2Lo : Word
  res2Hi : Word
deriving DecidableEq, Repr

/-- The configuration registers (R30 to R34). -/
structure ConfRegs where
  tolHz : Word
  gateLoHz : Word
  gateHiHz : Word
  bitDurUs : Word
  timeoutUs : Word
deriving DecidableEq, Repr

/-- The interrupt registers and the event FIFO (R35, R36, R226). -/
structure Reports where
  /-- `IRQ_STATUS[9:0]`; bits [31:10] read 0 (R35). -/
  status : BitVec 10
  /-- `IRQ_EN[9:0]`; bits [31:10] read 0 and ignore writes (R36). -/
  enable : BitVec 10
  /-- `EVQ`, oldest first (R42, R226). -/
  evq : List Word
deriving DecidableEq, Repr

/-- The registers of the last completed frame (R37). -/
structure FrameRegs where
  frameBits : Word
  frameSeq : Word
deriving DecidableEq, Repr

/-- `FD_STATE` (R42). -/
inductive FdState where
  | idle
  | framing
deriving DecidableEq, Repr

/-- The RX engine: run bit, latched configuration, window, accumulators, decode session (R42, R45, R46). -/
structure RxEngine where
  rxEn : Bool
  latTol : Word
  latGateLo : Word
  latGateHi : Word
  latBitDur : Word
  latTimeout : Word
  winStart : Word
  accN : Word
  accSat : Bool
  accLast : Word
  accSpan : BitVec 64
  fdState : FdState
  sessBits : List Bool
  sessStart : Word
deriving DecidableEq, Repr

/-- An item of `TX_ITEMS` (R42): a tone of a frequency, or an invalid character at an index of `TXBUF`. -/
inductive TxItem where
  | tone (f : Word)
  | skip (j : Nat)
deriving DecidableEq, Repr

/-- `TX_PHASE` (R42). -/
inductive TxPhase where
  | tone
  | gap
deriving DecidableEq, Repr

/-- The TX engine and the waveform port (R42, R48, R49). -/
structure TxEngine where
  txActive : Bool
  txItems : List TxItem
  txPos : Nat
  txPhase : TxPhase
  txPhaseEnd : Word
  txBitDur : Word
  txDoneN : Word
  waveOn : Bool
  waveFreq : Word
deriving DecidableEq, Repr

/-- The buffers: (byte offset in the window, byte), strictly rising, listing no byte equal to what an unlisted offset
reads as (`Memory.wf` in Machine/Ops.lean). -/
abbrev Memory := List Host.Cell

/-- Everything CORE holds, with its configuration (`cfg`, R22, checked once and changed by no step) and the model's own
`env`. -/
structure State where
  cfg : WfConfig
  regs : CmdRegs
  conf : ConfRegs
  irq : Reports
  /-- `NOW_US` (R44). -/
  nowUs : Word
  frame : FrameRegs
  rx : RxEngine
  tx : TxEngine
  mem : Memory
  env : Env
deriving DecidableEq, Repr

/-! ## Reset (R250 to R252) -/

/-- The reset values of the operand and result registers, R252. -/
def CmdRegs.reset : CmdRegs :=
  { result := 0, opaLo := 0, opaHi := 0, opbLo := 0, opbHi := 0, resLo := 0, resHi := 0, res2Lo := 0, res2Hi := 0 }

/-- The reset values of the configuration registers, R252. -/
def ConfRegs.reset (cfg : Config) : ConfRegs :=
  { tolHz := BitVec.ofNat 32 cfg.tolReset
    gateLoHz := BitVec.ofNat 32 cfg.gateLoReset
    gateHiHz := BitVec.ofNat 32 cfg.gateHiReset
    bitDurUs := BitVec.ofNat 32 cfg.bitDurReset
    timeoutUs := BitVec.ofNat 32 timeoutReset }

/-- The reset values of the interrupt registers and the FIFO, R252. -/
def Reports.reset : Reports := { status := 0, enable := 0, evq := [] }

/-- The reset values of the frame registers, R252. -/
def FrameRegs.reset : FrameRegs := { frameBits := 0, frameSeq := 0 }

/-- The reset values of the RX engine, R252. -/
def RxEngine.reset : RxEngine :=
  { rxEn := false, latTol := 0, latGateLo := 0, latGateHi := 0, latBitDur := 0, latTimeout := 0, winStart := 0,
    accN := 0, accSat := false, accLast := 0, accSpan := 0, fdState := .idle, sessBits := [], sessStart := 0 }

/-- The reset values of the TX engine and the waveform port, R252. -/
def TxEngine.reset : TxEngine :=
  { txActive := false, txItems := [], txPos := 0, txPhase := .tone, txPhaseEnd := 0, txBitDur := 0, txDoneN := 0,
    waveOn := false, waveFreq := 0 }

/-- An environment that does nothing yet. DESIGN CHOICE (log entries 3 and 4). -/
def Env.quiet : Env := { turn := .edge, dueEdges := 0, dueAccesses := [], schedule := [], rdata := 0 }

/-- Power-on reset under a configuration (R250, R252). -/
def State.powerOn (cfg : WfConfig) : State :=
  { cfg := cfg, regs := CmdRegs.reset, conf := ConfRegs.reset cfg.toConfig, irq := Reports.reset, nowUs := 0,
    frame := FrameRegs.reset, rx := RxEngine.reset, tx := TxEngine.reset, mem := [], env := Env.quiet }

/-- The machine right after power-on reset. The parameters are OPEN; this one state needs values for them, and takes
`EXAMPLE_CFG`: DESIGN CHOICE (log entry 1). What holds of reset under every configuration is said of
`State.powerOn`. -/
def State.reset : State := State.powerOn exampleWf

end Sys2Proof.Machine
end

