-- ==== Sys2Proof/Machine/Flags.lean ====
section
/-! DEFINITION. Result codes (30_encoding.md R98), events and event words (R99), the bits of `IRQ_STATUS`
(10_state.md R35), the interrupt line (60_exceptions.md R227) and the fields of `STATUS` (10_state.md R27). -/

namespace Sys2Proof.Machine

/-- The result codes of R98. Codes 6..255 are never produced. -/
inductive ResultCode where
  | ok
  | notFound
  | malformedLength
  | illegalOperand
  | busy
  | illegalOpcode
deriving DecidableEq, Repr

/-- The number of a result code in `RESULT[7:0]` (R98). -/
def ResultCode.code : ResultCode → BitVec 8
  | .ok => 0
  | .notFound => 1
  | .malformedLength => 2
  | .illegalOperand => 3
  | .busy => 4
  | .illegalOpcode => 5

/-- The events of R99. -/
inductive Event where
  | frameOk
  | frameMalformed
  | rxTimeout
  | rxWarn
  | rxOverflow
  | txDone
  | txSkip
  | txAborted
deriving DecidableEq, Repr

/-- The code of an event, 1..8 (R99). -/
def Event.code : Event → Nat
  | .frameOk => 1
  | .frameMalformed => 2
  | .rxTimeout => 3
  | .rxWarn => 4
  | .rxOverflow => 5
  | .txDone => 6
  | .txSkip => 7
  | .txAborted => 8

/-- The greatest payload, `2^24 - 1` (R99). -/
def payloadMax : Nat := 2 ^ 24 - 1

/-- The event word: the code in [7:0] and the payload, saturated, in [31:8] (R99, R226). -/
def eventWord (e : Event) (payload : Nat) : Word :=
  BitVec.ofNat 24 (min payload payloadMax) ++ BitVec.ofNat 8 e.code

/-- The mask of one bit of `IRQ_STATUS`. -/
def irqBit (k : Nat) : BitVec 10 := 1#10 <<< k

/-- `IRQ_STATUS.EVT_OVF`, bit 8 (R35). -/
def evtOvfBit : BitVec 10 := irqBit 8
/-- `IRQ_STATUS.BUS_ERR`, bit 9 (R35). -/
def busErrBit : BitVec 10 := irqBit 9

/-- The `emit` primitive on the interrupt registers and the FIFO (R226): the bit of the code is set; the word is
appended if the FIFO has room, and otherwise dropped with `EVT_OVF` set. -/
def Reports.emit (e : Event) (payload : Nat) (r : Reports) : Reports :=
  if r.evq.length < evtDepth then
    { r with status := r.status ||| irqBit (e.code - 1), evq := r.evq ++ [eventWord e payload] }
  else
    { r with status := r.status ||| irqBit (e.code - 1) ||| evtOvfBit }

/-- The interrupt output `IRQ`, a level at every instant (R227). -/
def State.irqLine (s : State) : Bool := (s.irq.status &&& s.irq.enable) != 0

/-- A bit as a number. -/
def bit (b : Bool) : BitVec 1 := if b then 1 else 0

/-- The value of `STATUS`, computed from the state it names (R27). -/
def State.statusWord (s : State) : Word :=
  BitVec.ofNat 16 0 ++ BitVec.ofNat 8 s.irq.evq.length ++ BitVec.ofNat 3 0 ++ bit (!s.irq.evq.isEmpty)
    ++ bit s.tx.waveOn ++ bit s.tx.txActive ++ bit (s.rx.fdState == .framing) ++ bit s.rx.rxEn

end Sys2Proof.Machine
end

