-- ==== Sys2Proof/Machine/Ops.lean ====
section
/-! DEFINITION. The named operations over memory, registers and time that the meanings share (00_scope.md R15):
buffer reads and writes (20_memory.md R63, R65), ending a command with `ok` or `fail`, emitting an event, writing
results, and modular time (20_memory.md R70). CORE has no exception to take and none to return from (R221, R231,
R232): `fail` is its form of raising one. -/

namespace Sys2Proof.Machine

/-- What one step or command answers. -/
abbrev Answer := Host.Outcome State Fault Refusal

/-- Power-on with a configuration not yet checked: refused when it is not well formed (R10, R11). -/
def State.powerOn? (c : Config) : Answer :=
  if h : c.wf = true then .next (State.powerOn { c with isWf := h }) else .refused .illFormedConfig

/-! ## Memory -/

/-- What a byte reads as that the memory list does not list: every buffer resets to zeros (R50, R252). -/
def Memory.unlisted (_a : Nat) : Byte := 0

/-- One byte of memory. -/
def Memory.read : Memory → Nat → Byte
  | [], a => Memory.unlisted a
  | (k, v) :: r, a => if k = a then v else Memory.read r a

/-- `n` bytes from an address on. -/
def Memory.readBytes (m : Memory) (a n : Nat) : List Byte := (List.range n).map (fun i => Memory.read m (a + i))

/-- The cells that a block of bytes adds to the list: one for each byte that is not what an unlisted byte reads as. -/
def Memory.cells : Nat → List Byte → Memory
  | _, [] => []
  | a, b :: bs => if b = Memory.unlisted a then Memory.cells (a + 1) bs else (a, b) :: Memory.cells (a + 1) bs

/-- A block of bytes written from an address on. -/
def Memory.writeBytes (m : Memory) (a : Nat) (bs : List Byte) : Memory :=
  m.filter (fun c => decide (c.1 < a)) ++ Memory.cells a bs ++ m.filter (fun c => decide (a + bs.length ≤ c.1))

/-- The canonical form: addresses strictly rising, and no byte listed that reads the same unlisted. -/
abbrev Memory.wf (m : Memory) : Prop := m.Pairwise (fun c d => c.1 < d.1) ∧ ∀ c ∈ m, c.2 ≠ Memory.unlisted c.1

/-- The four bytes of a word, bits [7:0] first (R65). -/
def wordBytes (w : Word) : List Byte :=
  [w.extractLsb' 0 8, w.extractLsb' 8 8, w.extractLsb' 16 8, w.extractLsb' 24 8]

/-- The word at an address: the byte at the address in bits [7:0] (R65). `EDGEBUF` words are held in the same order,
which nothing can observe, since every access is a whole word (R61, R65; log entry 6). -/
def Memory.readWord (m : Memory) (a : Nat) : Word :=
  Memory.read m (a + 3) ++ Memory.read m (a + 2) ++ Memory.read m (a + 1) ++ Memory.read m a

/-- A word written at an address (R65). -/
def Memory.writeWord (m : Memory) (a : Nat) (w : Word) : Memory := Memory.writeBytes m a (wordBytes w)

/-- The offset of `EDGEBUF`, R63. -/
def edgebufBase : Nat := 0x1000
/-- The offset of `TXBUF`, R63. -/
def txbufBase : Nat := 0x2000
/-- The offset of `RXBUF`, R63. -/
def rxbufBase : Nat := 0x2400
/-- The offset of `CVTBUF`, R63. -/
def cvtbufBase : Nat := 0x4000

/-- The offsets that hold memory: the four buffers of R63. -/
def inBuffers (a : Nat) : Bool :=
  decide (edgebufBase ≤ a ∧ a < edgebufBase + 4 * edgeMax) || decide (txbufBase ≤ a ∧ a < txbufBase + txbufSize) ||
    decide (rxbufBase ≤ a ∧ a < rxbufBase + rxbufSize) || decide (cvtbufBase ≤ a ∧ a < cvtbufBase + cvtbufSize)

/-- The memory with a block of bytes written. -/
def State.writeMem (a : Nat) (bs : List Byte) (s : State) : State := { s with mem := Memory.writeBytes s.mem a bs }

/-! ## Ending a command -/

/-- `RESULT <- code` (R15, R24). -/
def State.setResult (c : ResultCode) (s : State) : State := { s with regs := { s.regs with result := c.code } }

/-- `ok`: `RESULT <- OK` and the command ends (R15). -/
def State.ok (s : State) : Answer := .next (s.setResult .ok)

/-- `fail CODE`: `RESULT <- CODE` and the command ends with no other effect (R15, R94). A meaning calls it with the
state it was given. -/
def State.fail (c : ResultCode) (s : State) : Answer := .next (s.setResult c)

/-! ## Results and events -/

/-- The low half of a 64-bit quantity: `v mod 2^32` (R13). -/
def lowHalf (v : Nat) : Word := BitVec.ofNat 32 v
/-- The high half of a 64-bit quantity: `floor(v / 2^32)` (R13). -/
def highHalf (v : Nat) : Word := BitVec.ofNat 32 (v / 2 ^ 32)

/-- `RES <- v`, both halves. -/
def State.setRes (v : Nat) (s : State) : State :=
  { s with regs := { s.regs with resLo := lowHalf v, resHi := highHalf v } }

/-- `RES2 <- v`, both halves. -/
def State.setRes2 (v : Nat) (s : State) : State :=
  { s with regs := { s.regs with res2Lo := lowHalf v, res2Hi := highHalf v } }

/-- `emit E(code, payload)` (R15, R226). -/
def State.emit (e : Event) (payload : Nat) (s : State) : State := { s with irq := Reports.emit e payload s.irq }

/-! ## Time -/

/-- `elapsed(a, b) = (a - b) mod 2^32` (R70). -/
def elapsed (a b : Word) : Word := a - b

end Sys2Proof.Machine
end

