-- ==== Sys2Proof/Machine/Operands.lean ====
section
/-! DEFINITION. Where a command's operands come from: the 64-bit register operands (10_state.md R23), the elements of
a buffer (00_scope.md R15), and bits written as characters (30_encoding.md R97). -/

namespace Sys2Proof.Machine

/-- A 64-bit quantity held in two registers: `X_HI * 2^32 + X_LO` (R13, R23). -/
def join64 (hi lo : Word) : Nat := hi.toNat * 2 ^ 32 + lo.toNat

/-- `OPA` (R23). -/
def State.opa (s : State) : Nat := join64 s.regs.opaHi s.regs.opaLo
/-- `OPB` (R23). -/
def State.opb (s : State) : Nat := join64 s.regs.opbHi s.regs.opbLo
/-- `RES` (R23). -/
def State.res (s : State) : Nat := join64 s.regs.resHi s.regs.resLo
/-- `RES2` (R23). -/
def State.res2 (s : State) : Nat := join64 s.regs.res2Hi s.regs.res2Lo

/-- `[BufRead(EDGEBUF, i) for i in 0..n-1]`. -/
def State.edgeWords (s : State) (n : Nat) : List Word :=
  (List.range n).map (fun i => Memory.readWord s.mem (edgebufBase + 4 * i))

/-- `[BufRead(TXBUF, j) for j in 0..n-1]`. -/
def State.txBytes (s : State) (n : Nat) : List Byte := Memory.readBytes s.mem txbufBase n

/-- The character of a bit: '0' is 0x30 and '1' is 0x31 (R97). -/
def bitChar (b : Bool) : Byte := if b then 0x31 else 0x30

/-- The bit a character writes; none for an invalid bit character (R97). -/
def charBit? (c : Byte) : Option Bool :=
  if c = 0x31 then some true else if c = 0x30 then some false else none

/-- The bits of a byte, most significant first: `b[7 - k]` for `k` in 0..7 (R137, R181). -/
def byteBits (b : Byte) : List Bool := (List.range 8).map (fun k => b.getLsbD (7 - k))

/-- The byte of eight bits, most significant first, a missing bit counting 0: the sum of `bit[k] * 2^(7 - k)`
(R138, R139). -/
def bitsByte (l : List Bool) : Byte :=
  BitVec.ofNat 8 ((List.range 8).map (fun k => if l.getD k false then 2 ^ (7 - k) else 0)).sum

/-- The first `m` bytes of a packed bit sequence. -/
def packBytes : Nat → List Bool → List Byte
  | 0, _ => []
  | m + 1, bits => bitsByte (bits.take 8) :: packBytes m (bits.drop 8)

/-- `Pack(bits)`: `ceil(len(bits) / 8)` bytes, most significant bit first, the last filled with zeros on the right
(R139). -/
def pack (bits : List Bool) : List Byte := packBytes ((bits.length + 7) / 8) bits

end Sys2Proof.Machine
end

