-- ==== Sys2Proof/Machine/Estimator.lean ====
section
/-! DEFINITION. The Frequency Estimator (40_estimator.md): `Est`, `Gate`, the display value, the command EST, edge
captures and the window estimate. -/

namespace Sys2Proof.Machine

/-- A frequency value: the exact rational `num / den` Hz (R16). -/
structure Freq where
  num : Nat
  den : Nat
deriving DecidableEq, Repr

/-- The sentinel "no reliable estimate", `(0, 1)` (R16). -/
def Freq.sentinel : Freq := { num := 0, den := 1 }

/-- The sum of the consecutive intervals, each modulo 2^32, after the timestamp `prev` (R110). -/
def spanFrom : Word → List Word → Nat
  | _, [] => 0
  | prev, t :: ts => (elapsed t prev).toNat + spanFrom t ts

/-- The `span` of R110. -/
def span : List Word → Nat
  | [] => 0
  | t :: ts => spanFrom t ts

/-- `Est(ts)` (R110 to R112). -/
def est (ts : List Word) : Freq :=
  if ts.length < 2 then Freq.sentinel
  else if span ts = 0 then Freq.sentinel
  else { num := usPerS * (ts.length - 1), den := span ts }

/-- `Gate((NUM, DEN), lo, hi)` (R113). -/
def gate (v : Freq) (lo hi : Nat) : Freq :=
  if v.num = 0 then Freq.sentinel
  else if lo * v.den ≤ v.num ∧ v.num ≤ hi * v.den then v
  else Freq.sentinel

/-- The display value `floor(NUM / DEN)` (R114). -/
def hz (v : Freq) : Nat := v.num / v.den

/-- The value EST delivers: the estimate of the first `n` words of `EDGEBUF`, gated by the live registers when `g`
(R115). -/
def State.estValue (s : State) (g : Bool) (n : Nat) : Freq :=
  if g then gate (est (s.edgeWords n)) s.conf.gateLoHz.toNat s.conf.gateHiHz.toNat else est (s.edgeWords n)

/-- EST (R115). -/
def execEst (g : Bool) (n : Nat) (s : State) : Answer :=
  if n > edgeMax then s.fail .illegalOperand
  else ((s.setRes (s.estValue g n).num).setRes2 (s.estValue g n).den).ok

/-- The accumulators cleared (R150, R151, R156). -/
def RxEngine.clearAcc (r : RxEngine) : RxEngine := { r with accN := 0, accSat := false, accLast := 0, accSpan := 0 }

/-- `EdgeCapture(t)` on a running RX engine (R116). -/
def RxEngine.capture (t : Word) (r : RxEngine) : RxEngine :=
  if r.accN = 0 then { r with accLast := t, accN := 1 }
  else
    { r with
      accSpan := r.accSpan + (elapsed t r.accLast).zeroExtend 64
      accLast := t
      accSat := r.accSat || r.accN == BitVec.allOnes 32
      accN := if r.accN = BitVec.allOnes 32 then r.accN else r.accN + 1 }

/-- The edge capture step at `t = NOW_US`; an edge is discarded while `RX_EN = 0` (R116). -/
def edgeCapture (s : State) : State :=
  if s.rx.rxEn then { s with rx := s.rx.capture s.nowUs } else s

/-- `WinEst()`, from the accumulators and the latched gate (R118). -/
def RxEngine.winEst (r : RxEngine) : Freq :=
  if r.accSat then Freq.sentinel
  else if r.accN.toNat < 2 ∨ r.accSpan = 0 then gate Freq.sentinel r.latGateLo.toNat r.latGateHi.toNat
  else gate { num := usPerS * (r.accN.toNat - 1), den := r.accSpan.toNat } r.latGateLo.toNat r.latGateHi.toNat

end Sys2Proof.Machine
end

