-- ==== Sys2Proof/Machine/Codec.lean ====
section
/-! DEFINITION. The Symbol Codec (41_codec.md): `Match`, `FreqToSym`, and the commands S2F, F2S, B2BITS, BITS2B. -/

namespace Sys2Proof.Machine

/-- `Match((NUM, DEN), f, tol)`: `abs(NUM - f * DEN) <= tol * DEN`, exactly (R134). -/
def isMatch (v : Freq) (f tol : Nat) : Bool := decide (((v.num : Int) - (f * v.den : Nat)).natAbs ≤ tol * v.den)

/-- `FreqToSym(v, tol)`: the first symbol that matches, in table order, with its table index (R135). -/
def freqToSym (cfg : Config) (v : Freq) (tol : Nat) : Option (Byte × Nat) :=
  ((List.range nsym).find? (fun i => isMatch v (cfg.freqAt i) tol)).map (fun i => (codeAt i, i))

/-- S2F (R131, R133). -/
def execS2f (c : Byte) (s : State) : Answer :=
  match s.cfg.freqOf? c with
  | none => s.fail .notFound
  | some f => ({ s with regs := { s.regs with resLo := BitVec.ofNat 32 f, resHi := 0 } } : State).ok

/-- F2S (R136). -/
def execF2s (s : State) : Answer :=
  if s.opb = 0 then s.fail .illegalOperand
  else
    match freqToSym s.cfg.toConfig { num := s.opa, den := s.opb } s.conf.tolHz.toNat with
    | none => s.fail .notFound
    | some (c, i) => ((s.setRes c.toNat).setRes2 i).ok

/-- The bit characters of a byte string, eight for each byte, most significant bit first (R137). -/
def bytesToChars (bs : List Byte) : List Byte := bs.flatMap (fun b => (byteBits b).map bitChar)

/-- B2BITS (R137). -/
def execB2bits (l : Nat) (s : State) : Answer :=
  if l > txbufSize then s.fail .illegalOperand
  else ((s.writeMem cvtbufBase (bytesToChars (s.txBytes l))).setRes (8 * l)).ok

/-- BITS2B (R138): the range check, then the length check, then the character check. -/
def execBits2b (n : Nat) (s : State) : Answer :=
  if n > txbufSize then s.fail .illegalOperand
  else if n % 8 ≠ 0 then s.fail .malformedLength
  else if (s.txBytes n).any (fun c => (charBit? c).isNone) then s.fail .illegalOperand
  else ((s.writeMem cvtbufBase (packBytes (n / 8) ((s.txBytes n).map (fun c => c == 0x31)))).setRes (n / 8)).ok

end Sys2Proof.Machine
end

