-- ==== Sys2Proof/Machine/Control.lean ====
section
/-! DEFINITION. The control commands NOP, EVT_POP and SOFT_RESET (44_control.md). -/

namespace Sys2Proof.Machine

/-- NOP (R200). -/
def execNop (s : State) : Answer := s.ok

/-- EVT_POP (R202). -/
def execEvtPop (s : State) : Answer :=
  match s.irq.evq with
  | [] => ({ s with regs := { s.regs with resLo := 0, resHi := 0 } } : State).ok
  | e :: rest =>
    ({ s with
        regs := { s.regs with resLo := e, resHi := BitVec.ofNat 32 rest.length }
        irq := { s.irq with evq := rest } } : State).ok

/-- SOFT_RESET (R203, R250): every register, hidden item and buffer but `NOW_US` at its reset value. The configuration
is not touched (R251); the environment's own fields are not CORE's. -/
def execSoftReset (s : State) : Answer :=
  ({ State.powerOn s.cfg with nowUs := s.nowUs, env := s.env } : State).ok

end Sys2Proof.Machine
end

