-- ==== Sys2Proof/Machine/FrameDecoder.lean ====
section
/-! DEFINITION. The Frame Decoder and the RX engine (42_frame_decoder.md): RX_START, RX_STOP, the classification of a
window and the window step. -/

namespace Sys2Proof.Machine

/-- RX_START (R150). -/
def execRxStart (s : State) : Answer :=
  if s.rx.rxEn then s.fail .busy
  else
    ({ s with
        rx := { s.rx with
          latTol := s.conf.tolHz, latGateLo := s.conf.gateLoHz, latGateHi := s.conf.gateHiHz
          latBitDur := s.conf.bitDurUs, latTimeout := s.conf.timeoutUs
          winStart := s.nowUs
          accN := 0, accSat := false, accLast := 0, accSpan := 0
          fdState := .idle, sessBits := [], sessStart := 0
          rxEn := true } } : State).ok

/-- RX_STOP (R151). -/
def execRxStop (s : State) : Answer :=
  ({ s with
      rx := { s.rx with
        rxEn := false
        fdState := .idle, sessBits := [], sessStart := 0
        accN := 0, accSat := false, accLast := 0, accSpan := 0 } } : State).ok

/-- The classes of a window estimate (R155). -/
inductive WinClass where
  | none
  | start
  | stop
  | bit1
  | bit0
  | other
deriving DecidableEq, Repr

/-- `Class(v)`, with the latched tolerance (R155). -/
def classify (cfg : Config) (latTol : Word) (v : Freq) : WinClass :=
  if v.num = 0 then .none
  else
    match freqToSym cfg v latTol.toNat with
    | Option.none => .other
    | some (c, _) =>
      if c = codeStart then .start
      else if c = codeStop then .stop
      else if c = codeBit1 then .bit1
      else if c = codeBit0 then .bit0
      else .other

/-- The session ends: `FD_STATE <- Idle; SESS_BITS <- []` (R160, R161, R163). -/
def State.closeSession (s : State) : State := { s with rx := { s.rx with fdState := .idle, sessBits := [] } }

/-- The bytes of `RXBUF` after a frame: the packed bits, then zeros, `RXBUF_SIZE` in all (R160). -/
def rxbufImage (p : List Byte) : List Byte := p.take rxbufSize ++ List.replicate (rxbufSize - p.length) 0

/-- `CompleteFrame()` (R160). -/
def completeFrame (s : State) : State :=
  let nb := s.rx.sessBits.length
  let stored : State :=
    { s.writeMem rxbufBase (rxbufImage (pack s.rx.sessBits)) with
      frame := { frameBits := BitVec.ofNat 32 nb, frameSeq := s.frame.frameSeq + 1 } }
  (stored.emit (if nb % 8 = 0 then .frameOk else .frameMalformed) nb).closeSession

/-- `Overflow()` (R161). -/
def sessionOverflow (s : State) : State := (s.emit .rxOverflow bitbufMax).closeSession

/-- `AppendBit(b)` (R159, R161). -/
def appendBit (b : Bool) (s : State) : State :=
  if s.rx.sessBits.length = bitbufMax then sessionOverflow s
  else { s with rx := { s.rx with sessBits := s.rx.sessBits ++ [b] } }

/-- `Abandon()` (R163). -/
def abandonSession (s : State) : State := (s.emit .rxTimeout s.rx.sessBits.length).closeSession

/-- The symbol action of a window in a Framing session (R156, R159 to R162, R164). -/
def framingAction (k : WinClass) (v : Freq) (s : State) : State :=
  match k with
  | .stop => completeFrame s
  | .bit1 => appendBit true s
  | .bit0 => appendBit false s
  | .other => s.emit .rxWarn (hz v)
  | .start => s.emit .rxWarn (hz v)
  | .none => s

/-- The timeout test after the symbol action (R156, R163): strictly greater, and only while Framing. -/
def timeoutTest (s : State) : State :=
  if s.rx.fdState = .framing ∧ (elapsed s.nowUs s.rx.sessStart).toNat > s.rx.latTimeout.toNat then abandonSession s
  else s

/-- The transition of the Frame Decoder on a window of class `k` and estimate `v` (R156 to R164). -/
def decodeWindow (k : WinClass) (v : Freq) (s : State) : State :=
  match s.rx.fdState with
  | .idle =>
    match k with
    | .start => { s with rx := { s.rx with fdState := .framing, sessBits := [], sessStart := s.nowUs } }
    | .stop => s
    | .bit1 => s
    | .bit0 => s
    | .other => s
    | .none => s
  | .framing => timeoutTest (framingAction k v s)

/-- The next window begins: `WIN_START <- now`, accumulators cleared (R156). -/
def openWindow (s : State) : State := { s with rx := { s.rx.clearAcc with winStart := s.nowUs } }

/-- `RxWindowStep(NOW_US)` (R156). -/
def rxWindowStep (s : State) : State :=
  openWindow (decodeWindow (classify s.cfg.toConfig s.rx.latTol s.rx.winEst) s.rx.winEst s)

/-- The window length `W = 2 * LAT_BIT_DUR` in µs (R45, R152). -/
def RxEngine.window (r : RxEngine) : Nat := 2 * r.latBitDur.toNat

/-- The RX window step is due: `elapsed(t, WIN_START) = W` while `RX_EN = 1` (R152). -/
def rxDue (s : State) : Bool := s.rx.rxEn && (elapsed s.nowUs s.rx.winStart).toNat == s.rx.window

end Sys2Proof.Machine
end

