-- ==== Sys2Proof/Machine/Transmit.lean ====
section
/-! DEFINITION. The Transmit Sequencer and the TX engine (43_transmit.md): item lists, TX_FRAME, TX_BITS, TX_ABORT and
the phase step. -/

namespace Sys2Proof.Machine

/-- `Tone(FREQ(c))`. -/
def toneOf (cfg : Config) (c : Byte) : TxItem := .tone (cfg.freqWord c)

/-- The tone of a bit: BIT1 for 1, BIT0 for 0 (R181, R182). -/
def bitTone (cfg : Config) (b : Bool) : TxItem := toneOf cfg (if b then codeBit1 else codeBit0)

/-- `ItemsFrame(p)` (R181): `2 + 8L` items, which is more than R42's `TXBUF_SIZE + 2` for `L` above 128 (log entry 5). -/
def itemsFrame (cfg : Config) (p : List Byte) : List TxItem :=
  [toneOf cfg codeStart] ++ (p.flatMap byteBits).map (bitTone cfg) ++ [toneOf cfg codeStop]

/-- The item of the bit character at index `j`: its tone, or `Skip(j)` for an invalid one (R182). -/
def bitItem (cfg : Config) (j : Nat) (c : Byte) : TxItem :=
  match charBit? c with
  | some b => bitTone cfg b
  | none => .skip j

/-- The items of the bit characters, the first of index `j`. -/
def bitItemsFrom (cfg : Config) : Nat → List Byte → List TxItem
  | _, [] => []
  | j, c :: cs => bitItem cfg j c :: bitItemsFrom cfg (j + 1) cs

/-- `ItemsBits(s)` (R182). -/
def itemsBits (cfg : Config) (cs : List Byte) : List TxItem :=
  [toneOf cfg codeStart] ++ bitItemsFrom cfg 0 cs ++ [toneOf cfg codeStop]

/-- An item is a tone. -/
def TxItem.isTone : TxItem → Bool
  | .tone _ => true
  | .skip _ => false

/-- `WAVE <- (1, f)`, and the tone phase begins at `NOW_US` (R187). -/
def startTone (f : Word) (s : State) : State :=
  { s with tx := { s.tx with
      waveOn := true, waveFreq := f, txPhase := .tone, txPhaseEnd := s.nowUs + s.tx.txBitDur } }

/-- The lock is released and the item list cleared (R187, R190). -/
def releaseLine (s : State) : State :=
  { s with tx := { s.tx with txActive := false, txItems := [], txPos := 0, txPhase := .tone } }

/-- `StartNext` on the items from `TX_POS` on (R187): the skips are reported one by one, then the next tone starts or
the transmission ends. -/
def startFrom : List TxItem → State → State
  | .skip j :: rest, s =>
    startFrom rest { s.emit .txSkip j with tx := { s.tx with txPos := s.tx.txPos + 1 } }
  | .tone f :: _, s => startTone f s
  | [], s => (releaseLine s).emit .txDone s.tx.txDoneN.toNat

/-- `StartNext(NOW_US)` (R187). -/
def startNext (s : State) : State := startFrom (s.tx.txItems.drop s.tx.txPos) s

/-- A transmission of an item list is accepted: the lock is taken and the first tone starts (R183, R185). -/
def beginTransmission (items : List TxItem) (s : State) : State :=
  startNext { s with tx := { s.tx with
    txItems := items, txBitDur := s.conf.bitDurUs, txPos := 0, txDoneN := 0, txActive := true } }

/-- TX_FRAME (R183). -/
def execTxFrame (l : Nat) (s : State) : Answer :=
  if l > txbufSize then s.fail .illegalOperand
  else if s.tx.txActive then s.fail .busy
  else ((beginTransmission (itemsFrame s.cfg.toConfig (s.txBytes l)) s).setRes (2 + 8 * l)).ok

/-- TX_BITS (R185). -/
def execTxBits (n : Nat) (s : State) : Answer :=
  if n > txbufSize then s.fail .illegalOperand
  else if s.tx.txActive then s.fail .busy
  else
    ((beginTransmission (itemsBits s.cfg.toConfig (s.txBytes n)) s).setRes
      ((itemsBits s.cfg.toConfig (s.txBytes n)).countP TxItem.isTone)).ok

/-- `WAVE <- (0, 0)`. -/
def waveOff (s : State) : State := { s with tx := { s.tx with waveOn := false, waveFreq := 0 } }

/-- TX_ABORT (R190). -/
def execTxAbort (s : State) : Answer :=
  if s.tx.txActive then ((releaseLine (waveOff s)).emit .txAborted s.tx.txDoneN.toNat).ok
  else s.ok

/-- `TxPhaseStep(NOW_US)` (R186). -/
def txPhaseStep (s : State) : State :=
  match s.tx.txPhase with
  | .tone =>
    { waveOff s with tx := { (waveOff s).tx with txPhase := .gap, txPhaseEnd := s.nowUs + s.tx.txBitDur } }
  | .gap => startNext { s with tx := { s.tx with txDoneN := s.tx.txDoneN + 1, txPos := s.tx.txPos + 1 } }

/-- The TX phase step is due (R186). -/
def txDue (s : State) : Bool := s.tx.txActive && s.nowUs == s.tx.txPhaseEnd

end Sys2Proof.Machine
end

