-- ==== Sys2Proof/Machine/Dispatch.lean ====
section
/-! DEFINITION. The meaning of every command, one arm per constructor of Instr. -/

namespace Sys2Proof.Machine

def exec (i : Instr) (s : State) : Host.Outcome State Fault Refusal :=
  match i with
  | .nop => Sys2Proof.Machine.execNop s
  | .est g n => Sys2Proof.Machine.execEst g n s
  | .s2f c => Sys2Proof.Machine.execS2f c s
  | .f2s => Sys2Proof.Machine.execF2s s
  | .b2bits l => Sys2Proof.Machine.execB2bits l s
  | .bits2b n => Sys2Proof.Machine.execBits2b n s
  | .txFrame l => Sys2Proof.Machine.execTxFrame l s
  | .txBits n => Sys2Proof.Machine.execTxBits n s
  | .txAbort => Sys2Proof.Machine.execTxAbort s
  | .rxStart => Sys2Proof.Machine.execRxStart s
  | .rxStop => Sys2Proof.Machine.execRxStop s
  | .evtPop => Sys2Proof.Machine.execEvtPop s
  | .softReset => Sys2Proof.Machine.execSoftReset s

end Sys2Proof.Machine
end

