-- ==== Sys2Proof/Machine/Bus.lean ====
section
/-! DEFINITION. The host bus (20_memory.md): the register map of 10_state.md section 4, the address map of R63, what a
read returns and what a write does, and the command that a write to `CMD` runs. -/

namespace Sys2Proof.Machine

/-- The registers of the map in 10_state.md section 4. -/
inductive Reg where
  | id
  | version
  | status
  | cmd
  | result
  | opaLo
  | opaHi
  | opbLo
  | opbHi
  | resLo
  | resHi
  | res2Lo
  | res2Hi
  | tolHz
  | gateLoHz
  | gateHiHz
  | bitDurUs
  | timeoutUs
  | irqStatus
  | irqEn
  | nowUs
  | frameBits
  | frameSeq
  | rxBits
  | txProgress
  | numSymbols
  | minSepHz
  | dutyPct
deriving DecidableEq, Repr

/-- The register at a byte offset (10_state.md section 4). -/
def regAt? : Nat → Option Reg
  | 0x000 => some .id
  | 0x004 => some .version
  | 0x008 => some .status
  | 0x00C => some .cmd
  | 0x010 => some .result
  | 0x014 => some .opaLo
  | 0x018 => some .opaHi
  | 0x01C => some .opbLo
  | 0x020 => some .opbHi
  | 0x024 => some .resLo
  | 0x028 => some .resHi
  | 0x02C => some .res2Lo
  | 0x030 => some .res2Hi
  | 0x034 => some .tolHz
  | 0x038 => some .gateLoHz
  | 0x03C => some .gateHiHz
  | 0x040 => some .bitDurUs
  | 0x044 => some .timeoutUs
  | 0x048 => some .irqStatus
  | 0x04C => some .irqEn
  | 0x050 => some .nowUs
  | 0x054 => some .frameBits
  | 0x058 => some .frameSeq
  | 0x05C => some .rxBits
  | 0x060 => some .txProgress
  | 0x064 => some .numSymbols
  | 0x068 => some .minSepHz
  | 0x06C => some .dutyPct
  | _ => none

/-- The byte offset of a register (10_state.md section 4). -/
def Reg.offset : Reg → Nat
  | .id => 0x000
  | .version => 0x004
  | .status => 0x008
  | .cmd => 0x00C
  | .result => 0x010
  | .opaLo => 0x014
  | .opaHi => 0x018
  | .opbLo => 0x01C
  | .opbHi => 0x020
  | .resLo => 0x024
  | .resHi => 0x028
  | .res2Lo => 0x02C
  | .res2Hi => 0x030
  | .tolHz => 0x034
  | .gateLoHz => 0x038
  | .gateHiHz => 0x03C
  | .bitDurUs => 0x040
  | .timeoutUs => 0x044
  | .irqStatus => 0x048
  | .irqEn => 0x04C
  | .nowUs => 0x050
  | .frameBits => 0x054
  | .frameSeq => 0x058
  | .rxBits => 0x05C
  | .txProgress => 0x060
  | .numSymbols => 0x064
  | .minSepHz => 0x068
  | .dutyPct => 0x06C

/-- What an aligned word offset names (R63). The number of a table or buffer word counts from 0. -/
inductive Target where
  | reg (r : Reg)
  | freqTbl (k : Nat)
  | edgebuf (k : Nat)
  | txbuf (k : Nat)
  | rxbuf (k : Nat)
  | cvtbuf (k : Nat)
  | reserved
deriving DecidableEq, Repr

/-- The address map of R63. -/
def targetAt (off : Nat) : Target :=
  if off < 0x0070 then
    match regAt? off with
    | some r => .reg r
    | none => .reserved
  else if off < 0x0400 then .reserved
  else if off < 0x0800 then .freqTbl ((off - 0x0400) / 4)
  else if off < 0x1000 then .reserved
  else if off < 0x2000 then .edgebuf ((off - 0x1000) / 4)
  else if off < 0x2400 then .txbuf ((off - 0x2000) / 4)
  else if off < 0x2800 then .rxbuf ((off - 0x2400) / 4)
  else if off < 0x4000 then .reserved
  else if off < 0x6000 then .cvtbuf ((off - 0x4000) / 4)
  else .reserved

/-- The offset of a target's word, for a target of the map; the inverse of `targetAt` there. A reserved offset is given
by its first one. -/
def Target.offset : Target → Nat
  | .reg r => r.offset
  | .freqTbl k => 0x0400 + 4 * k
  | .edgebuf k => edgebufBase + 4 * k
  | .txbuf k => txbufBase + 4 * k
  | .rxbuf k => rxbufBase + 4 * k
  | .cvtbuf k => cvtbufBase + 4 * k
  | .reserved => 0x0070

/-! ## Reads -/

/-- `RX_BITS` (R38). -/
def State.rxBits (s : State) : Word :=
  match s.rx.fdState with
  | .framing => BitVec.ofNat 32 s.rx.sessBits.length
  | .idle => 0

/-- What a register reads (10_state.md sections 2 to 7; reserved bits 0, R29). -/
def readReg (r : Reg) (s : State) : Word :=
  match r with
  | .id => idWord
  | .version => versionWord
  | .status => s.statusWord
  | .cmd => 0
  | .result => s.regs.result.zeroExtend 32
  | .opaLo => s.regs.opaLo
  | .opaHi => s.regs.opaHi
  | .opbLo => s.regs.opbLo
  | .opbHi => s.regs.opbHi
  | .resLo => s.regs.resLo
  | .resHi => s.regs.resHi
  | .res2Lo => s.regs.res2Lo
  | .res2Hi => s.regs.res2Hi
  | .tolHz => s.conf.tolHz
  | .gateLoHz => s.conf.gateLoHz
  | .gateHiHz => s.conf.gateHiHz
  | .bitDurUs => s.conf.bitDurUs
  | .timeoutUs => s.conf.timeoutUs
  | .irqStatus => s.irq.status.zeroExtend 32
  | .irqEn => s.irq.enable.zeroExtend 32
  | .nowUs => s.nowUs
  | .frameBits => s.frame.frameBits
  | .frameSeq => s.frame.frameSeq
  | .rxBits => s.rxBits
  | .txProgress => s.tx.txDoneN
  | .numSymbols => BitVec.ofNat 32 nsym
  | .minSepHz => BitVec.ofNat 32 (min s.cfg.minSep (2 ^ 32 - 1))
  | .dutyPct => BitVec.ofNat 32 dutyPct

/-- What a legal read returns (R64, R65, R66). -/
def readTarget (t : Target) (s : State) : Word :=
  match t with
  | .reg r => readReg r s
  | .freqTbl k => s.cfg.freqWord (BitVec.ofNat 8 k)
  | .edgebuf _ => Memory.readWord s.mem t.offset
  | .txbuf _ => Memory.readWord s.mem t.offset
  | .rxbuf _ => Memory.readWord s.mem t.offset
  | .cvtbuf _ => Memory.readWord s.mem t.offset
  | .reserved => 0

/-! ## Writes -/

/-- The value a write of `v` stores in `TOL_HZ`: `min(v, floor(MIN_SEP / 2))` (R31). -/
def tolStore (cfg : Config) (v : Word) : Word := BitVec.ofNat 32 (min v.toNat cfg.tolMax)

/-- The value a write of `v` stores in `BIT_DUR_US` (R33). -/
def bitDurStore (v : Word) : Word :=
  if v = 0 then 1 else if v.toNat > bitDurMax then BitVec.ofNat 32 bitDurMax else v

/-- The result code of a command word the decoder refuses (R94). -/
def refusalCode : DecodeError → ResultCode
  | .illegalOpcode => .illegalOpcode
  | .illegalOperand => .illegalOperand

/-- The command of a word, run to completion within the write (R28, R67, R90, R94). -/
def runCommand (w : Word) (s : State) : Answer :=
  match decode w with
  | .ok i => exec i s
  | .error e => s.fail (refusalCode e)

/-- What a legal write does to a register, by its access type (R67; 10_state.md section 4). -/
def writeReg (r : Reg) (w : Word) (s : State) : Answer :=
  match r with
  | .cmd => runCommand w s
  | .opaLo => .next { s with regs := { s.regs with opaLo := w } }
  | .opaHi => .next { s with regs := { s.regs with opaHi := w } }
  | .opbLo => .next { s with regs := { s.regs with opbLo := w } }
  | .opbHi => .next { s with regs := { s.regs with opbHi := w } }
  | .tolHz => .next { s with conf := { s.conf with tolHz := tolStore s.cfg.toConfig w } }
  | .gateLoHz => .next { s with conf := { s.conf with gateLoHz := w } }
  | .gateHiHz => .next { s with conf := { s.conf with gateHiHz := w } }
  | .bitDurUs => .next { s with conf := { s.conf with bitDurUs := bitDurStore w } }
  | .timeoutUs => .next { s with conf := { s.conf with timeoutUs := w } }
  | .irqStatus => .next { s with irq := { s.irq with status := s.irq.status &&& ~~~(w.truncate 10) } }
  | .irqEn => .next { s with irq := { s.irq with enable := w.truncate 10 } }
  | .id => .next s
  | .version => .next s
  | .status => .next s
  | .result => .next s
  | .resLo => .next s
  | .resHi => .next s
  | .res2Lo => .next s
  | .res2Hi => .next s
  | .nowUs => .next s
  | .frameBits => .next s
  | .frameSeq => .next s
  | .rxBits => .next s
  | .txProgress => .next s
  | .numSymbols => .next s
  | .minSepHz => .next s
  | .dutyPct => .next s

/-- What a legal write does (R64, R65, R67). -/
def writeTarget (t : Target) (w : Word) (s : State) : Answer :=
  match t with
  | .reg r => writeReg r w s
  | .edgebuf _ => .next (s.writeMem t.offset (wordBytes w))
  | .txbuf _ => .next (s.writeMem t.offset (wordBytes w))
  | .freqTbl _ => .next s
  | .rxbuf _ => .next s
  | .cvtbuf _ => .next s
  | .reserved => .next s

/-! ## Accesses -/

/-- An access is legal when `sz = 4` and `off mod 4 = 0` (R61). -/
def legalAccess (off : BitVec 15) (sz : AccessSize) : Bool := sz == .word && off.toNat % 4 == 0

/-- `IRQ_STATUS.BUS_ERR <- 1` (R62). -/
def State.busError (s : State) : State := { s with irq := { s.irq with status := s.irq.status ||| busErrBit } }

/-- The bus returns a value to the host (R66; log entry 4). -/
def State.busReturn (v : Word) (s : State) : State := { s with env := { s.env with rdata := v } }

/-- A host access (R60 to R67). -/
def hostAccess (a : HostAccess) (s : State) : Answer :=
  match a with
  | .read off sz =>
    if legalAccess off sz then .next (s.busReturn (readTarget (targetAt off.toNat) s)) else .next (s.busError.busReturn 0)
  | .write off sz w =>
    if legalAccess off sz then writeTarget (targetAt off.toNat) w s else .next s.busError

/-- The access that writes a target's word. -/
def wordWrite (t : Target) (w : Word) : HostAccess := .write (BitVec.ofNat 15 t.offset) .word w

/-- The access that reads a target's word. -/
def wordRead (t : Target) : HostAccess := .read (BitVec.ofNat 15 t.offset) .word

/-- The access that runs the command of a word (R28, R90). -/
def commandWrite (w : Word) : HostAccess := wordWrite (.reg .cmd) w

end Sys2Proof.Machine
end

