-- ==== Sys2Proof/Machine/Schedule.lean ====
section
/-! DEFINITION. One agent step: ticks (10_state.md R44), and which of the five kinds of step comes next (R20,
20_memory.md R71, R72). -/

namespace Sys2Proof.Machine

/-- The environment's part at the next time value, after one tick. An empty schedule means that the environment does
nothing at that time (log entry 3). -/
def Env.advance (e : Env) : Env :=
  match e.schedule with
  | [] => { e with turn := .tx, dueEdges := 0, dueAccesses := [] }
  | slot :: rest =>
    match slot.wait with
    | 0 => { e with turn := .tx, dueEdges := slot.edges, dueAccesses := slot.accesses, schedule := rest }
    | k + 1 => { e with turn := .tx, dueEdges := 0, dueAccesses := [], schedule := { slot with wait := k } :: rest }

/-- A tick: `NOW_US <- (NOW_US + 1) mod 2^32` (R44). -/
def tick (s : State) : State := { s with nowUs := s.nowUs + 1, env := s.env.advance }

/-- The turn at the present time value passes on. -/
def State.setTurn (t : Turn) (s : State) : State := { s with env := { s.env with turn := t } }

/-- The TX phase step comes now: it is due and nothing but the tick has come at this time value (R72). -/
def txTurn (s : State) : Bool := s.env.turn == .tx && txDue s

/-- The RX window step comes now: it is due, and neither it nor an edge nor an access has come (R72). -/
def rxTurn (s : State) : Bool := (s.env.turn == .tx || s.env.turn == .rx) && rxDue s

/-- An edge capture comes now: one is left and no access has come (R72). -/
def edgeTurn (s : State) : Bool := s.env.turn != .host && s.env.dueEdges != 0

/-- One edge of the present time value, captured. -/
def nextEdge (s : State) : State :=
  edgeCapture { s with env := { s.env with turn := .edge, dueEdges := s.env.dueEdges - 1 } }

/-- The next access of the present time value, or the tick when none is left. -/
def nextAccess (s : State) : Answer :=
  match s.env.dueAccesses with
  | [] => .next (tick s)
  | a :: rest => hostAccess a { s with env := { s.env with turn := .host, dueAccesses := rest } }

/-- One step of one agent (R20), in the order of R72. -/
def agentStep (s : State) : Answer :=
  if txTurn s then .next (txPhaseStep (s.setTurn .rx))
  else if rxTurn s then .next (rxWindowStep (s.setTurn .edge))
  else if edgeTurn s then .next (nextEdge s)
  else nextAccess s

end Sys2Proof.Machine
end

