-- ==== Sys2Proof/Machine/Step.lean ====
section
/-! DEFINITION. The step of the machine, and a command word placed where the next step takes it. -/

namespace Sys2Proof.Machine

/-- One step of the machine: one step of one agent (R20). -/
def step (s : State) : Host.Outcome State Fault Refusal :=
  agentStep s

/-- The state in which the host's next access writes this command word to `CMD`, at the present time value, with the
engines' turns and the edge captures of that time value over, so that the next step runs the command (R28, R72;
log entry 3). -/
def State.withFetchWord (s : State) (nbits w : Nat) : State :=
  { s with env := { s.env with
      turn := .host
      dueAccesses := commandWrite (BitVec.ofNat 32 (w % 2 ^ nbits)) :: s.env.dueAccesses } }

end Sys2Proof.Machine
end

