-- ==== Sys2Proof/Safety.lean ====
section
/-! DEFINITION. What a good state of CORE is, in the terms the statements use: one predicate for each unit, each from
the rules its docstring names, and `State.Inv`, all of them together. A step keeps it (Obligations.lean). The
predicates also rule out the states that no run reaches. -/

namespace Sys2Proof.Machine

/-- The buffers are in canonical form and only offsets of R63's buffers hold bytes. -/
def State.MemOk (s : State) : Prop := Memory.wf s.mem ∧ ∀ c ∈ s.mem, inBuffers c.1 = true

/-- The WARL registers hold legal values (R31, R33). -/
def State.ConfOk (s : State) : Prop :=
  s.conf.tolHz.toNat ≤ s.cfg.tolMax ∧ 1 ≤ s.conf.bitDurUs.toNat ∧ s.conf.bitDurUs.toNat ≤ bitDurMax

/-- The result code is one of R98's, the FIFO is within its depth and holds only codes 1..8 (R42, R98, R99). -/
def State.ReportsOk (s : State) : Prop :=
  s.regs.result.toNat ≤ 5 ∧ s.irq.evq.length ≤ evtDepth ∧
    ∀ w ∈ s.irq.evq, 1 ≤ (w.extractLsb' 0 8).toNat ∧ (w.extractLsb' 0 8).toNat ≤ 8

/-- The decode session is within its bound, empty while Idle, and absent while the RX engine is stopped; the frame
registers are within theirs (R37, R42, R45, R46). -/
def State.SessionOk (s : State) : Prop :=
  s.rx.sessBits.length ≤ bitbufMax ∧ (s.rx.fdState = .idle → s.rx.sessBits = []) ∧
    (s.rx.rxEn = false → s.rx.fdState = .idle) ∧ s.frame.frameBits.toNat ≤ bitbufMax

/-- A running RX engine is inside its window: less than `W` has elapsed since its start, or exactly `W` and the window
step is still to come at this time value (R45, R72, R152). -/
def State.WindowOk (s : State) : Prop :=
  s.rx.rxEn = true →
    1 ≤ s.rx.latBitDur.toNat ∧ s.rx.latBitDur.toNat ≤ bitDurMax ∧
      ((elapsed s.nowUs s.rx.winStart).toNat < s.rx.window ∨
        ((elapsed s.nowUs s.rx.winStart).toNat = s.rx.window ∧ (s.env.turn = .tx ∨ s.env.turn = .rx)))

/-- The accumulators are those of the current window: with no edge the span is 0, and otherwise the last edge lies in
the window and the span is at most the time from the window's start to it, so it never wraps (R116, R117, R153). -/
def State.AccOk (s : State) : Prop :=
  (s.rx.accN = 0 → s.rx.accSpan = 0 ∧ s.rx.accSat = false) ∧
    (s.rx.rxEn = false → s.rx.accN = 0) ∧
    (s.rx.rxEn = true → s.rx.accN ≠ 0 →
      s.rx.accSpan.toNat ≤ (elapsed s.rx.accLast s.rx.winStart).toNat ∧
        (elapsed s.rx.accLast s.rx.winStart).toNat ≤ (elapsed s.nowUs s.rx.winStart).toNat)

/-- The waveform port and the item list agree with the lock: while a transmission is active, `TX_POS` is at a tone,
which is on the port in the tone phase, and the port is off in the gap; otherwise the port is off and the list empty
(R42, R48, R49, R180, R184, R187, R190). -/
def State.LineOk (s : State) : Prop :=
  (s.tx.txActive = true →
    ∃ f, s.tx.txItems[s.tx.txPos]? = some (.tone f) ∧
      (s.tx.txPhase = .tone → s.tx.waveOn = true ∧ s.tx.waveFreq = f) ∧
      (s.tx.txPhase = .gap → s.tx.waveOn = false ∧ s.tx.waveFreq = 0)) ∧
  (s.tx.txActive = false →
    s.tx.txItems = [] ∧ s.tx.txPos = 0 ∧ s.tx.txPhase = .tone ∧ s.tx.waveOn = false ∧ s.tx.waveFreq = 0)

/-- An active TX engine misses no phase end: the end is 1 to `TX_BIT_DUR` ticks ahead, or it is now and the phase step
is still to come at this time value (R72, R186). -/
def State.PhaseOk (s : State) : Prop :=
  s.tx.txActive = true →
    1 ≤ s.tx.txBitDur.toNat ∧ s.tx.txBitDur.toNat ≤ bitDurMax ∧
      ((1 ≤ (elapsed s.tx.txPhaseEnd s.nowUs).toNat ∧ (elapsed s.tx.txPhaseEnd s.nowUs).toNat ≤ s.tx.txBitDur.toNat) ∨
        (s.tx.txPhaseEnd = s.nowUs ∧ s.env.turn = .tx))

/-- The item list is within what TX_FRAME of a full `TXBUF` builds, `2 + 8 * TXBUF_SIZE` items (R181, R183; log entry 5).
R42's own bound, `TXBUF_SIZE + 2`, holds of every list but that of a TX_FRAME of more than 128 bytes. -/
def State.ItemsOk (s : State) : Prop := s.tx.txItems.length ≤ 2 + 8 * txbufSize

/-- Once a host access has been made at a time value, no edge is left at it (R72). -/
def State.TurnOk (s : State) : Prop := s.env.turn = .host → s.env.dueEdges = 0

/-- Everything above. -/
structure State.Inv (s : State) : Prop where
  mem : s.MemOk
  conf : s.ConfOk
  reports : s.ReportsOk
  session : s.SessionOk
  window : s.WindowOk
  acc : s.AccOk
  line : s.LineOk
  phase : s.PhaseOk
  items : s.ItemsOk
  turn : s.TurnOk

end Sys2Proof.Machine
end

