-- ==== Sys2Proof/Certificates/Slice0/Obligations.lean ====
section
/-! DEFINITION. The statements for the provers. Each formalises numbered rules of spec/ (its docstring names them);
OBLIGATIONS.json lists them. The first part names what several statements share. -/

namespace Sys2Proof.Machine

/-! ## Shared wording -/

/-- The state with `RESULT[7:0]` replaced, and nothing else: what a failed command leaves (R15, R94). -/
def withResult (c : BitVec 8) (s : State) : State := { s with regs := { s.regs with result := c } }

/-- Every byte of memory reads as before. -/
def SameMemory (s t : State) : Prop := ∀ a, Memory.read t.mem a = Memory.read s.mem a

/-- Every byte of memory outside the `n` bytes from `a` on reads as before. -/
def SameMemoryOutside (a n : Nat) (s t : State) : Prop :=
  ∀ b, b < a ∨ a + n ≤ b → Memory.read t.mem b = Memory.read s.mem b

/-- Configuration, configuration registers, interrupt registers, event FIFO, clock, frame registers, both engines with
the waveform port, and the environment are unchanged: all but the operand, result and result-code registers and the
memory. -/
def SameOutsideRegs (s t : State) : Prop :=
  t.cfg = s.cfg ∧ t.conf = s.conf ∧ t.irq = s.irq ∧ t.nowUs = s.nowUs ∧ t.frame = s.frame ∧ t.rx = s.rx ∧ t.tx = s.tx ∧
    t.env = s.env

/-- A word of opcode `opc` runs its command when the bits of `mustBeZero` are 0 (R92), and otherwise ends with
`ILLEGAL_OPERAND` (3) and changes only `RESULT` (R94). -/
def WordRuns (opc : Nat) (mustBeZero : Word) (i : Word → Instr) (s : State) : Prop :=
  ∀ w : Word, (w.extractLsb' 0 8).toNat = opc →
    (w &&& mustBeZero = 0 → runCommand w s = exec (i w) s) ∧
    (w &&& mustBeZero ≠ 0 → runCommand w s = .next (withResult 3 s))

/-- `LEN16` of a word as a number (R91). -/
def len16 (w : Word) : Nat := (w.extractLsb' 16 16).toNat

/-- R95: the symbol at table index `i` has code `c`. -/
def SymbolAt (i : Nat) (c : Byte) : Prop :=
  (i < 26 ∧ c.toNat = 0x41 + i) ∨ (26 ≤ i ∧ i < 52 ∧ c.toNat = 0x61 + i - 26) ∨
    (52 ≤ i ∧ i < 62 ∧ c.toNat = 0x30 + i - 52) ∨ (i = 62 ∧ c = 0x80) ∨ (i = 63 ∧ c = 0x81) ∨ (i = 64 ∧ c = 0x82) ∨
    (i = 65 ∧ c = 0x83) ∨ (i = 66 ∧ c = 0x84)

/-- `Match` of R134, on the table frequency at an index: `abs(NUM - f * DEN) <= tol * DEN`. -/
def Within (cfg : Config) (v : Freq) (tol i : Nat) : Prop :=
  |(v.num : Int) - cfg.freqAt i * v.den| ≤ (tol * v.den : Nat)

/-- R135: `i` is the first table index that matches. -/
def FirstMatch (cfg : Config) (v : Freq) (tol i : Nat) : Prop :=
  i < 67 ∧ Within cfg v tol i ∧ ∀ j < i, ¬ Within cfg v tol j

/-- The timestamp `EDGEBUF[i]`. -/
def edgeAt (s : State) (i : Nat) : Word := Memory.readWord s.mem (0x1000 + 4 * i)

/-- The byte `TXBUF[j]`. -/
def txAt (s : State) (j : Nat) : Byte := Memory.read s.mem (0x2000 + j)

/-- The `span` of R110 over `EDGEBUF[0..n-1]`. -/
def edgeSpan (s : State) (n : Nat) : Nat := ∑ i ∈ Finset.range (n - 1), (edgeAt s (i + 1) - edgeAt s i).toNat

/-- `Est` of R110 to R112 over `EDGEBUF[0..n-1]`, as numerator and denominator. -/
def edgeEstimate (s : State) (n : Nat) : Nat × Nat :=
  if n < 2 ∨ edgeSpan s n = 0 then (0, 1) else (1000000 * (n - 1), edgeSpan s n)

/-- `Gate` of R113. -/
def gated (v : Nat × Nat) (lo hi : Nat) : Nat × Nat :=
  if v.1 ≠ 0 ∧ lo * v.2 ≤ v.1 ∧ v.1 ≤ hi * v.2 then v else (0, 1)

/-- `FREQ` at a table index as a word. -/
def freqWordAt (s : State) (i : Nat) : Word := BitVec.ofNat 32 (s.cfg.freqAt i)

/-- The TX engine right after a transmission of `items` was accepted: the lock is held, the first tone, START, is on
the port, and its end is `BIT_DUR_US` ahead (R183, R185, R187). -/
def startedTx (s : State) (items : List TxItem) : TxEngine :=
  { txActive := true, txItems := items, txPos := 0, txPhase := .tone, txPhaseEnd := s.nowUs + s.conf.bitDurUs
    txBitDur := s.conf.bitDurUs, txDoneN := 0, waveOn := true, waveFreq := freqWordAt s 63 }

/-- The RX engine at the start of the next window, the decode session as given (R156). -/
def nextWindow (s : State) (fd : FdState) (bits : List Bool) (start : Word) : RxEngine :=
  { s.rx with
    winStart := s.nowUs, accN := 0, accSat := false, accLast := 0, accSpan := 0
    fdState := fd, sessBits := bits, sessStart := start }

/-- The class of the current window (R155, R118). -/
def windowClass (s : State) : WinClass := classify s.cfg.toConfig s.rx.latTol s.rx.winEst

/-- The timeout condition of R163 at the present time value. -/
def TimedOut (s : State) : Prop := (s.nowUs - s.rx.sessStart).toNat > s.rx.latTimeout.toNat

/-- The rows of spec/opcode_table.json: match and mask. -/
def opcodeTable : List (Word × Word) :=
  [(0x00000000, 0xFFFFFFFF), (0x00000001, 0x0000FEFF), (0x00000002, 0xFFFF00FF), (0x00000003, 0xFFFFFFFF),
   (0x00000004, 0x0000FFFF), (0x00000005, 0x0000FFFF), (0x00000006, 0x0000FFFF), (0x00000007, 0x0000FFFF),
   (0x00000008, 0xFFFFFFFF), (0x00000009, 0xFFFFFFFF), (0x0000000A, 0xFFFFFFFF), (0x0000000B, 0xFFFFFFFF),
   (0x0000000C, 0xFFFFFFFF)]

/-- The access that the next step will make is a write to `CMD` whose word decodes to a command of `p`. -/
def NextCommandIs (p : Instr → Prop) (s : State) : Prop :=
  txTurn s = false ∧ rxTurn s = false ∧ edgeTurn s = false ∧
    ∃ w rest i, s.env.dueAccesses = .write 0x00C .word w :: rest ∧ decode w = .ok i ∧ p i

/-- The next step will make the host access `a`. -/
def NextAccessIs (a : HostAccess) (s : State) : Prop :=
  txTurn s = false ∧ rxTurn s = false ∧ edgeTurn s = false ∧ ∃ rest, s.env.dueAccesses = a :: rest

/-- The access that the next step will make is not an aligned 32-bit access (R61). -/
def NextAccessIsIllegal (s : State) : Prop :=
  ∃ (off : BitVec 15) (sz : AccessSize), (sz ≠ .word ∨ off.toNat % 4 ≠ 0) ∧
    (NextAccessIs (.read off sz) s ∨ ∃ w, NextAccessIs (.write off sz w) s)

/-- From `s` to `t` the FIFO keeps its events, and those added behind them have codes from `lo` to `hi` (R99). -/
def QueuesOnly (lo hi : Nat) (s t : State) : Prop :=
  ∃ ws : List Word, t.irq.evq = s.irq.evq ++ ws ∧
    ∀ w ∈ ws, lo ≤ (w.extractLsb' 0 8).toNat ∧ (w.extractLsb' 0 8).toNat ≤ hi

end Sys2Proof.Machine

open Sys2Proof Sys2Proof.Machine

/-! ## The command word -/

/-- R90 to R93: every well-formed command, with every operand its encoding admits, is what its word decodes to. -/
def Obligations.EncodedCommandDecodesToItself : Prop :=
  ∀ i : Instr, i.wf = true → decode (encode i) = .ok i

/-- R91, R101: a word that decodes has one meaning, and that command's word is the word itself. -/
def Obligations.DecodedWordEncodesBack : Prop :=
  ∀ (w : Word) (i : Instr), decode w = .ok i → i.wf = true ∧ encode i = w

/-- Words written out from the encodings of R92, R93 and R104 decode to their commands. -/
def Obligations.WrittenWordsDecode : Prop :=
  decode 0x00000000 = .ok .nop ∧ decode 0x00050101 = .ok (.est true 5) ∧ decode 0x00004102 = .ok (.s2f 0x41) ∧
    decode 0x00020006 = .ok (.txFrame 2) ∧ decode 0x00000009 = .ok .rxStart ∧ decode 0x0000000B = .ok .evtPop

/-- R92 to R94: the decoder accepts a word exactly when it fits a row of the opcode table. The opcode is checked first
(`ILLEGAL_OPCODE`, 5), then the fields that must be 0 (`ILLEGAL_OPERAND`, 3), then the command's own checks run; and a
command that ends with a code other than `OK` changes only `RESULT`. -/
def Obligations.CommandChecksComeInOrder : Prop :=
  ∀ (w : Word) (s : State),
    ((∃ i, decode w = .ok i) ↔ ∃ r ∈ opcodeTable, w &&& r.2 = r.1) ∧
    ((w.extractLsb' 0 8).toNat > 0x0C → runCommand w s = .next (withResult 5 s)) ∧
    ((w.extractLsb' 0 8).toNat ≤ 0x0C → (∀ r ∈ opcodeTable, w &&& r.2 ≠ r.1) →
      runCommand w s = .next (withResult 3 s)) ∧
    (∀ i, decode w = .ok i → runCommand w s = exec i s) ∧
    (∀ t, runCommand w s = .next t → t.regs.result ≠ 0 → t = withResult t.regs.result s)

/-! ## Steps -/

/-- R20, R28, R60, R72, R90: where no engine step and no edge capture comes first, the step makes the host's next access,
whatever it is, with that access taken off the queue and the turn the host's. An aligned 32-bit write to `CMD` runs the
command of the word (what of a word that is refused: CommandChecksComeInOrder); so where the word decodes to `i`, `i` is
well formed and the step is `exec i`; and so it is in a state that `withFetchWord` makes. -/
def Obligations.StepRunsWrittenCommand : Prop :=
  (∀ (s : State) (a : HostAccess) (rest : List HostAccess),
    txTurn s = false → rxTurn s = false → edgeTurn s = false → s.env.dueAccesses = a :: rest →
    step s = hostAccess a { s with env := { s.env with turn := .host, dueAccesses := rest } }) ∧
  (∀ (s : State) (w : Word), hostAccess (.write 0x00C .word w) s = runCommand w s) ∧
  (∀ (s : State) (w : Word) (rest : List HostAccess) (i : Instr),
    txTurn s = false → rxTurn s = false → edgeTurn s = false →
    s.env.dueAccesses = .write 0x00C .word w :: rest → decode w = .ok i →
    i.wf = true ∧ step s = exec i { s with env := { s.env with turn := .host, dueAccesses := rest } }) ∧
  (∀ (s : State) (w : Word) (i : Instr), decode w = .ok i →
    step (s.withFetchWord 32 w.toNat) = exec i { s with env := { s.env with turn := .host } })

/-- R220, R221, R270: nothing traps: every step of every agent answers a next state. Every command completes within its
`CMD` write: the step that makes the write leaves the host's next access at the head of the queue with the turn still
the host's, and `NOW_US` where it was. -/
def Obligations.StepsAnswerAndCommandsCompleteAtOnce : Prop :=
  (∀ s : State, ∃ t, step s = .next t) ∧
  (∀ (s t : State) (w : Word) (rest : List HostAccess),
    txTurn s = false → rxTurn s = false → edgeTurn s = false → s.env.dueAccesses = .write 0x00C .word w :: rest →
    step s = .next t → t.nowUs = s.nowUs ∧ t.env.turn = .host ∧ t.env.dueAccesses = rest)

/-- R20, R44, R239, R241: `NOW_US` moves only by ticks, each adding one modulo 2^32 and leaving every other piece of CORE's
state as it is (the environment, which is not CORE's, moves on); and a tick comes only when no engine step, no edge and
no access is left at the present time value (R72). -/
def Obligations.OnlyTicksMoveTheClock : Prop :=
  ∀ s t : State, step s = .next t →
    (t.nowUs = s.nowUs ∧ t.env.schedule = s.env.schedule) ∨
    (t = tick s ∧ t = { s with nowUs := s.nowUs + 1, env := t.env } ∧
      t.nowUs.toNat = (s.nowUs.toNat + 1) % 2 ^ 32 ∧ t.env.turn = .tx ∧
      txTurn s = false ∧ rxTurn s = false ∧ edgeTurn s = false ∧ s.env.dueAccesses = [])

/-- R72: at one time value the TX phase step due comes first, then the RX window step due, then the edge captures, then
the host accesses; no step of the first three kinds follows a host access before the next tick (`State.TurnOk`, which
every step keeps, says that no edge is left then). -/
def Obligations.StepsAtOneTimeComeInOrder : Prop :=
  ∀ s t : State, step s = .next t →
    (s.env.turn = .tx → txDue s = true → t = txPhaseStep { s with env := { s.env with turn := .rx } }) ∧
    (s.env.turn = .tx → txDue s = false → rxDue s = true →
      t = rxWindowStep { s with env := { s.env with turn := .edge } }) ∧
    (s.env.turn = .rx → rxDue s = true → t = rxWindowStep { s with env := { s.env with turn := .edge } }) ∧
    (txTurn s = false → rxTurn s = false → s.env.turn ≠ .host → s.env.dueEdges ≠ 0 →
      t = edgeCapture { s with env := { s.env with turn := .edge, dueEdges := s.env.dueEdges - 1 } }) ∧
    (s.env.turn = .host → s.env.dueAccesses = [] → t = tick s) ∧
    (s.env.turn = .host → s.env.dueAccesses ≠ [] → t.env.turn = .host ∧ t.nowUs = s.nowUs) ∧
    (s.TurnOk → t.TurnOk)

/-- R22, R251: no step, SOFT_RESET included, changes the configuration. -/
def Obligations.StepsKeepConfiguration : Prop :=
  ∀ s t : State, step s = .next t → t.cfg = s.cfg

/-! ## The bus -/

/-- R62: an access that is not an aligned 32-bit access changes nothing but `IRQ_STATUS.BUS_ERR`, bit 9, which it sets; a
read returns 0 and a write is dropped. (What a read returned stands in the model's own `rdata`, log entry 4.) -/
def Obligations.IllegalAccessOnlySetsBusErr : Prop :=
  ∀ (s : State) (off : BitVec 15) (sz : AccessSize) (w : Word), sz ≠ .word ∨ off.toNat % 4 ≠ 0 →
    ∃ st : BitVec 10, (∀ k < 10, st.getLsbD k = (s.irq.status.getLsbD k || k == 9)) ∧
      hostAccess (.write off sz w) s = .next { s with irq := { s.irq with status := st } } ∧
      hostAccess (.read off sz) s =
        .next { s with irq := { s.irq with status := st }, env := { s.env with rdata := 0 } }

/-- R64, with the reserved ranges of R63: a legal read returns 0, a legal write is ignored, and neither sets `BUS_ERR`. -/
def Obligations.ReservedOffsetsReadZero : Prop :=
  ∀ (s : State) (off : BitVec 15) (w : Word), off.toNat % 4 = 0 →
    (0x0070 ≤ off.toNat ∧ off.toNat ≤ 0x03FF) ∨ (0x0800 ≤ off.toNat ∧ off.toNat ≤ 0x0FFF) ∨
      (0x2800 ≤ off.toNat ∧ off.toNat ≤ 0x3FFF) ∨ 0x6000 ≤ off.toNat →
    hostAccess (.read off .word) s = .next { s with env := { s.env with rdata := 0 } } ∧
      hostAccess (.write off .word w) s = .next s

/-- R66: no legal read has a side effect but that the bus returns a value, and a second read with no step between
returns the same value. -/
def Obligations.ReadsHaveNoSideEffect : Prop :=
  ∀ (s : State) (off : BitVec 15), off.toNat % 4 = 0 →
    ∃ t, hostAccess (.read off .word) s = .next t ∧ t = { s with env := { s.env with rdata := t.env.rdata } } ∧
      hostAccess (.read off .word) t = .next t

/-- R50, R65, R67, with the map of R63: a write of the word `k` of `TXBUF` sets its four bytes, bits [7:0] first; a write
of the word `k` of `EDGEBUF` sets that word and keeps every other; the word reads back; and nothing else changes. -/
def Obligations.BufferWordsReadBack : Prop :=
  ∀ (s : State) (k : Nat) (w : Word),
    (k < 256 → ∃ t, hostAccess (.write (BitVec.ofNat 15 (0x2000 + 4 * k)) .word w) s = .next t ∧
      (∀ i < 4, txAt t (4 * k + i) = w.extractLsb' (8 * i) 8) ∧
      SameMemoryOutside (0x2000 + 4 * k) 4 s t ∧ SameOutsideRegs s t ∧ t.regs = s.regs ∧
      hostAccess (.read (BitVec.ofNat 15 (0x2000 + 4 * k)) .word) t =
        .next { t with env := { t.env with rdata := w } }) ∧
    (k < 1024 → ∃ t, hostAccess (.write (BitVec.ofNat 15 (0x1000 + 4 * k)) .word w) s = .next t ∧
      edgeAt t k = w ∧ (∀ j < 1024, j ≠ k → edgeAt t j = edgeAt s j) ∧
      SameMemoryOutside (0x1000 + 4 * k) 4 s t ∧ SameOutsideRegs s t ∧ t.regs = s.regs ∧
      hostAccess (.read (BitVec.ofNat 15 (0x1000 + 4 * k)) .word) t =
        .next { t with env := { t.env with rdata := w } })

/-- R50, R63, R65: the word of a byte buffer holds its four bytes, the byte at the word's offset in bits [7:0]. -/
def Obligations.ByteBuffersReadLittleEndian : Prop :=
  ∀ (s : State) (off : BitVec 15), off.toNat % 4 = 0 →
    (0x2000 ≤ off.toNat ∧ off.toNat < 0x2800) ∨ (0x4000 ≤ off.toNat ∧ off.toNat < 0x6000) →
    ∃ v : Word, hostAccess (.read off .word) s = .next { s with env := { s.env with rdata := v } } ∧
      ∀ i < 4, v.extractLsb' (8 * i) 8 = Memory.read s.mem (off.toNat + i)

/-- R23, R30, R67: a write to a read-write register with no WARL rule stores the word and changes nothing else; a write
to a read-only register (10_state.md section 4), to `FREQ_TBL`, `RXBUF` or `CVTBUF` is ignored. -/
def Obligations.WritesFollowAccessTypes : Prop :=
  ∀ (s : State) (w : Word),
    hostAccess (.write 0x014 .word w) s = .next { s with regs := { s.regs with opaLo := w } } ∧
    hostAccess (.write 0x018 .word w) s = .next { s with regs := { s.regs with opaHi := w } } ∧
    hostAccess (.write 0x01C .word w) s = .next { s with regs := { s.regs with opbLo := w } } ∧
    hostAccess (.write 0x020 .word w) s = .next { s with regs := { s.regs with opbHi := w } } ∧
    hostAccess (.write 0x038 .word w) s = .next { s with conf := { s.conf with gateLoHz := w } } ∧
    hostAccess (.write 0x03C .word w) s = .next { s with conf := { s.conf with gateHiHz := w } } ∧
    hostAccess (.write 0x044 .word w) s = .next { s with conf := { s.conf with timeoutUs := w } } ∧
    (∀ off ∈ ([0x000, 0x004, 0x008, 0x010, 0x024, 0x028, 0x02C, 0x030, 0x050, 0x054, 0x058, 0x05C, 0x060, 0x064, 0x068,
      0x06C] : List (BitVec 15)), hostAccess (.write off .word w) s = .next s) ∧
    ∀ off : BitVec 15, off.toNat % 4 = 0 →
      (0x0400 ≤ off.toNat ∧ off.toNat < 0x0800) ∨ (0x2400 ≤ off.toNat ∧ off.toNat < 0x2800) ∨
        (0x4000 ≤ off.toNat ∧ off.toNat < 0x6000) →
      hostAccess (.write off .word w) s = .next s

/-- R31: a write of `v` to `TOL_HZ` stores `min(v, floor(MIN_SEP / 2))`, where `MIN_SEP` is the least distance of two
table frequencies; so every two of them are at least twice the stored tolerance apart; and the reset value is
`TOL_RESET`. -/
def Obligations.ToleranceIsClamped : Prop :=
  (∀ (s : State) (v : Word), ∃ t, hostAccess (.write 0x034 .word v) s = .next t ∧
    t = { s with conf := { s.conf with tolHz := t.conf.tolHz } } ∧
    t.conf.tolHz.toNat = min v.toNat (s.cfg.minSep / 2) ∧
    ∀ i j, i < 67 → j < 67 → i ≠ j →
      (2 * t.conf.tolHz.toNat : Int) ≤ |(s.cfg.freqAt i : Int) - s.cfg.freqAt j|) ∧
  (∀ cfg : WfConfig, (∃ i j, i < 67 ∧ j < 67 ∧ i ≠ j ∧
      (cfg.minSep : Int) = |(cfg.freqAt i : Int) - cfg.freqAt j|) ∧
    (∀ i j, i < 67 → j < 67 → i ≠ j → (cfg.minSep : Int) ≤ |(cfg.freqAt i : Int) - cfg.freqAt j|) ∧
    (State.powerOn cfg).conf.tolHz.toNat = cfg.tolReset)

/-- R33: a write of `v` to `BIT_DUR_US` stores 1 for 0, `2^30` above `2^30`, and `v` otherwise, so that a window never
exceeds `2^31` µs; and the reset value is `BIT_DUR_RESET`. -/
def Obligations.BitDurationIsClamped : Prop :=
  (∀ (s : State) (v : Word), ∃ t, hostAccess (.write 0x040 .word v) s = .next t ∧
    t = { s with conf := { s.conf with bitDurUs := t.conf.bitDurUs } } ∧
    (v = 0 → t.conf.bitDurUs.toNat = 1) ∧ (v.toNat > 2 ^ 30 → t.conf.bitDurUs.toNat = 2 ^ 30) ∧
    (v ≠ 0 → v.toNat ≤ 2 ^ 30 → t.conf.bitDurUs = v) ∧ 2 * t.conf.bitDurUs.toNat ≤ 2 ^ 31) ∧
  (∀ cfg : WfConfig, (State.powerOn cfg).conf.bitDurUs.toNat = cfg.bitDurReset)

/-- R35, R66, R67, R228: a write of `w` to `IRQ_STATUS` clears exactly the bits that `w` has set, and nothing else changes,
the event FIFO included; a read at 0x048 returns the ten bits, and 0 in bits [31:10]; and no step of any agent clears a
bit but such a write with that bit 1, or SOFT_RESET. -/
def Obligations.IrqStatusIsWriteOneToClear : Prop :=
  (∀ (s : State) (w : Word), ∃ t, hostAccess (.write 0x048 .word w) s = .next t ∧
    t = { s with irq := { s.irq with status := t.irq.status } } ∧
    ∀ k < 10, t.irq.status.getLsbD k = (s.irq.status.getLsbD k && !w.getLsbD k)) ∧
  (∀ s : State, ∃ v : Word,
    hostAccess (.read 0x048 .word) s = .next { s with env := { s.env with rdata := v } } ∧
      ∀ k, v.getLsbD k = (decide (k < 10) && s.irq.status.getLsbD k)) ∧
  ∀ (s t : State) (k : Nat), step s = .next t → s.irq.status.getLsbD k = true → t.irq.status.getLsbD k = false →
    (∃ w : Word, NextAccessIs (.write 0x048 .word w) s ∧ w.getLsbD k = true) ∨ NextCommandIs (fun i => i = .softReset) s

/-- R36, R66, R227: bits [9:0] of `IRQ_EN` keep what is written to 0x04C and are what a read there returns, and bits
[31:10] read 0 and ignore writes; and `IRQ` is high exactly when some bit is set in both `IRQ_STATUS` and `IRQ_EN`. -/
def Obligations.IrqLineIsTheOrOfEnabledSources : Prop :=
  (∀ (s : State) (w : Word), ∃ t, hostAccess (.write 0x04C .word w) s = .next t ∧
    t = { s with irq := { s.irq with enable := t.irq.enable } } ∧
    ∀ k < 10, t.irq.enable.getLsbD k = w.getLsbD k) ∧
  (∀ s : State, ∃ v : Word,
    hostAccess (.read 0x04C .word) s = .next { s with env := { s.env with rdata := v } } ∧
      ∀ k, v.getLsbD k = (decide (k < 10) && s.irq.enable.getLsbD k)) ∧
  ∀ s : State, s.irqLine = true ↔ ∃ k < 10, s.irq.status.getLsbD k = true ∧ s.irq.enable.getLsbD k = true

/-- R27: the fields of `STATUS`, read at 0x008, while the FIFO is within its depth (`State.ReportsOk`, itself a
statement below). -/
def Obligations.StatusFieldsFollowState : Prop :=
  ∀ s : State, s.irq.evq.length ≤ 32 →
    ∃ v : Word, hostAccess (.read 0x008 .word) s = .next { s with env := { s.env with rdata := v } } ∧
      v.getLsbD 0 = s.rx.rxEn ∧ v.getLsbD 1 = decide (s.rx.fdState = .framing) ∧ v.getLsbD 2 = s.tx.txActive ∧
      v.getLsbD 3 = s.tx.waveOn ∧ v.getLsbD 4 = decide (s.irq.evq ≠ []) ∧ v.extractLsb' 5 3 = 0 ∧
      (v.extractLsb' 8 8).toNat = s.irq.evq.length ∧ v.extractLsb' 16 16 = 0

/-- R23, R24, R26, R28, R30, R37 to R40, R44, R66: what a read of each register returns. `STATUS` and the interrupt
registers have statements of their own. -/
def Obligations.RegistersReadTheirValues : Prop :=
  ∀ s : State, ∀ r ∈ ([(0x000, 0x46534B43), (0x004, 1), (0x00C, 0), (0x010, s.regs.result.zeroExtend 32),
      (0x014, s.regs.opaLo), (0x018, s.regs.opaHi), (0x01C, s.regs.opbLo), (0x020, s.regs.opbHi),
      (0x024, s.regs.resLo), (0x028, s.regs.resHi), (0x02C, s.regs.res2Lo), (0x030, s.regs.res2Hi),
      (0x034, s.conf.tolHz), (0x038, s.conf.gateLoHz), (0x03C, s.conf.gateHiHz), (0x040, s.conf.bitDurUs),
      (0x044, s.conf.timeoutUs), (0x050, s.nowUs), (0x054, s.frame.frameBits), (0x058, s.frame.frameSeq),
      (0x05C, if s.rx.fdState = .framing then BitVec.ofNat 32 s.rx.sessBits.length else 0), (0x060, s.tx.txDoneN),
      (0x064, 67), (0x068, BitVec.ofNat 32 (min s.cfg.minSep (2 ^ 32 - 1))), (0x06C, 50)] : List (BitVec 15 × Word)),
    hostAccess (.read r.1 .word) s = .next { s with env := { s.env with rdata := r.2 } }

/-- R41, with the codes of R95: the word of `FREQ_TBL` at a symbol's code reads its frequency, and 0 at every code that
names no symbol; and no step, a host write included, changes what it reads. -/
def Obligations.FreqTblReadsFrequencies : Prop :=
  ∀ (s : State) (c : Byte), ∃ v : Word,
    hostAccess (.read (BitVec.ofNat 15 (0x400 + 4 * c.toNat)) .word) s = .next { s with env := { s.env with rdata := v } } ∧
      (∀ i, SymbolAt i c → v.toNat = s.cfg.freqAt i) ∧ ((∀ i, ¬ SymbolAt i c) → v = 0) ∧
      ∀ t, step s = .next t →
        hostAccess (.read (BitVec.ofNat 15 (0x400 + 4 * c.toNat)) .word) t =
          .next { t with env := { t.env with rdata := v } }

/-! ## Reset -/

/-- R250, R252: power-on reset under every configuration, and SOFT_RESET, which does the same for everything except
`NOW_US`. `FMIN` and `FMAX` are the least and greatest frequency. (The model's own environment fields: log entry 3.) -/
def Obligations.PowerOnResetValues : Prop :=
  ∀ cfg : WfConfig, ∃ s, State.powerOn? cfg.toConfig = .next s ∧ s = State.powerOn cfg ∧ s.cfg = cfg ∧
    s.regs = CmdRegs.mk 0 0 0 0 0 0 0 0 0 ∧ s.irq = Reports.mk 0 0 [] ∧ s.nowUs = 0 ∧ s.frame = FrameRegs.mk 0 0 ∧
    s.conf.tolHz.toNat = cfg.tolReset ∧ s.conf.bitDurUs.toNat = cfg.bitDurReset ∧ s.conf.timeoutUs.toNat = 5000000 ∧
    (∃ i < 67, s.conf.gateLoHz.toNat = cfg.freqAt i - cfg.tolReset ∧ ∀ j < 67, cfg.freqAt i ≤ cfg.freqAt j) ∧
    (∃ i < 67, s.conf.gateHiHz.toNat = min (2 ^ 32 - 1) (cfg.freqAt i + cfg.tolReset) ∧
      ∀ j < 67, cfg.freqAt j ≤ cfg.freqAt i) ∧
    s.rx = RxEngine.mk false 0 0 0 0 0 0 0 false 0 0 .idle [] 0 ∧
    s.tx = TxEngine.mk false [] 0 .tone 0 0 0 false 0 ∧
    (∀ a, Memory.read s.mem a = 0) ∧ s.statusWord = 0 ∧ s.irqLine = false ∧
    ∀ t : State, t.cfg = cfg → exec .softReset t = .next { s with nowUs := t.nowUs, env := t.env }

/-- R10, R11, with the alignment of R60: power-on with a configuration succeeds exactly when the configuration is well
formed, and otherwise is refused. -/
def Obligations.IllFormedConfigurationsAreRefused : Prop :=
  ∀ c : Config,
    ((∃ s, State.powerOn? c = .next s) ↔
      c.freq.length = 67 ∧ (∀ i < 67, 1 ≤ c.freqAt i ∧ c.freqAt i ≤ 2 ^ 32 - 1) ∧
        (∀ i j, i < 67 → j < 67 → i ≠ j → c.freqAt i ≠ c.freqAt j) ∧ c.tolReset ≤ c.minSep / 2 ∧
        1 ≤ c.bitDurReset ∧ c.bitDurReset ≤ 2 ^ 30 ∧ c.coreBase % 32768 = 0) ∧
    ((¬ ∃ s, State.powerOn? c = .next s) → State.powerOn? c = .refused .illFormedConfig)

/-- R203, R250, R251: SOFT_RESET sets everything but `NOW_US` to its reset value under the same configuration (the
environment is not CORE's), emits no event, and refuses a word with a nonzero field without resetting anything. -/
def Obligations.SoftResetKeepsOnlyTheClock : Prop :=
  ∀ s : State,
    exec .softReset s = .next { State.powerOn s.cfg with nowUs := s.nowUs, env := s.env } ∧
      WordRuns 0x0C 0xFFFFFF00 (fun _ => .softReset) s

/-! ## The commands -/

/-- R200: NOP sets `RESULT` to OK and changes nothing else. -/
def Obligations.NopOnlyWritesResult : Prop :=
  ∀ s : State, exec .nop s = .next (withResult 0 s) ∧ WordRuns 0x00 0xFFFFFF00 (fun _ => .nop) s

/-- R110 to R113, R115: EST delivers the exact estimate of `EDGEBUF[0..n-1]`, gated by the live bounds when `g`, in `RES`
and `RES2`, and changes nothing else; `n > 1024` is refused. -/
def Obligations.EstDeliversExactEstimate : Prop :=
  ∀ (g : Bool) (n : Nat) (s : State),
    (n ≤ 1024 →
      let v := if g then gated (edgeEstimate s n) s.conf.gateLoHz.toNat s.conf.gateHiHz.toNat else edgeEstimate s n
      ∃ t, exec (.est g n) s = .next t ∧ t.res = v.1 ∧ t.res2 = v.2 ∧
        t.regs = { s.regs with
          result := 0, resLo := t.regs.resLo, resHi := t.regs.resHi, res2Lo := t.regs.res2Lo, res2Hi := t.regs.res2Hi } ∧
        SameOutsideRegs s t ∧ SameMemory s t) ∧
    (n > 1024 → exec (.est g n) s = .next (withResult 3 s)) ∧
    WordRuns 0x01 0x0000FE00 (fun w => .est (w.getLsbD 8) (len16 w)) s

/-- R131, R133, with the codes of R95: S2F gives the frequency of a symbol code in `RES` and changes nothing else; any of
the other codes gives `NOTFOUND` (1). -/
def Obligations.S2fGivesTableFrequency : Prop :=
  ∀ (c : Byte) (s : State),
    (∀ i, SymbolAt i c → ∃ t, exec (.s2f c) s = .next t ∧ t.res = s.cfg.freqAt i ∧
      t.regs = { s.regs with result := 0, resLo := t.regs.resLo, resHi := 0 } ∧ SameOutsideRegs s t ∧ SameMemory s t) ∧
    ((∀ i, ¬ SymbolAt i c) → exec (.s2f c) s = .next (withResult 1 s)) ∧
    WordRuns 0x02 0xFFFF0000 (fun w => .s2f (w.extractLsb' 8 8)) s

/-- R134 to R136: F2S gives the first symbol in table order within `TOL_HZ` of `OPA / OPB`, its code in `RES` and its index
in `RES2`, and changes nothing else; `NOTFOUND` (1) when none is; `ILLEGAL_OPERAND` (3) when `OPB = 0`. -/
def Obligations.F2sGivesFirstSymbolWithinTolerance : Prop :=
  ∀ s : State,
    (s.opb = 0 → exec .f2s s = .next (withResult 3 s)) ∧
    (s.opb ≠ 0 → ∀ i c, SymbolAt i c → FirstMatch s.cfg.toConfig ⟨s.opa, s.opb⟩ s.conf.tolHz.toNat i →
      ∃ t, exec .f2s s = .next t ∧ t.res = c.toNat ∧ t.res2 = i ∧
        t.regs = { s.regs with
          result := 0, resLo := t.regs.resLo, resHi := 0, res2Lo := t.regs.res2Lo, res2Hi := 0 } ∧
        SameOutsideRegs s t ∧ SameMemory s t) ∧
    (s.opb ≠ 0 → (∀ i < 67, ¬ Within s.cfg.toConfig ⟨s.opa, s.opb⟩ s.conf.tolHz.toNat i) →
      exec .f2s s = .next (withResult 1 s)) ∧
    WordRuns 0x03 0xFFFFFF00 (fun _ => .f2s) s

/-- R137: B2BITS writes each byte of `TXBUF[0..L-1]` as eight bit characters, most significant bit first, to `CVTBUF`,
and no other byte of memory; `RES` is `8 L`. -/
def Obligations.B2bitsWritesBitCharacters : Prop :=
  ∀ (l : Nat) (s : State),
    (l ≤ 1024 → ∃ t, exec (.b2bits l) s = .next t ∧
      (∀ j < l, ∀ k < 8, Memory.read t.mem (0x4000 + (8 * j + k)) = if (txAt s j).getLsbD (7 - k) then 0x31 else 0x30) ∧
      SameMemoryOutside 0x4000 (8 * l) s t ∧ t.res = 8 * l ∧
      t.regs = { s.regs with result := 0, resLo := t.regs.resLo, resHi := 0 } ∧ SameOutsideRegs s t) ∧
    (l > 1024 → exec (.b2bits l) s = .next (withResult 3 s)) ∧
    WordRuns 0x04 0x0000FF00 (fun w => .b2bits (len16 w)) s

/-- R138: BITS2B packs the bit characters of `TXBUF[0..N-1]` into `CVTBUF[0..N/8-1]` and writes no other byte of memory;
the range check, the length check (`MALFORMED_LENGTH`, 2) and the character check come in this order, and a refused
command changes only `RESULT`. -/
def Obligations.Bits2bPacksBitCharacters : Prop :=
  ∀ (n : Nat) (s : State),
    (n ≤ 1024 → n % 8 = 0 → (∀ j < n, txAt s j = 0x30 ∨ txAt s j = 0x31) → ∃ t, exec (.bits2b n) s = .next t ∧
      (∀ m < n / 8, (Memory.read t.mem (0x4000 + m)).toNat =
        ∑ k ∈ Finset.range 8, ((txAt s (8 * m + k)).toNat - 0x30) * 2 ^ (7 - k)) ∧
      SameMemoryOutside 0x4000 (n / 8) s t ∧ t.res = n / 8 ∧
      t.regs = { s.regs with result := 0, resLo := t.regs.resLo, resHi := 0 } ∧ SameOutsideRegs s t) ∧
    (n > 1024 → exec (.bits2b n) s = .next (withResult 3 s)) ∧
    (n ≤ 1024 → n % 8 ≠ 0 → exec (.bits2b n) s = .next (withResult 2 s)) ∧
    (n ≤ 1024 → n % 8 = 0 → (∃ j < n, txAt s j ≠ 0x30 ∧ txAt s j ≠ 0x31) → exec (.bits2b n) s = .next (withResult 3 s)) ∧
    WordRuns 0x05 0x0000FF00 (fun w => .bits2b (len16 w)) s

/-- R181, R183, R184, R187: with the line free, TX_FRAME takes the lock, starts START and queues the bits of `TXBUF[0..L-1]`,
most significant first, each as BIT1 or BIT0, and STOP; `RES` is the number of tones. Nothing else changes. With the
line locked it ends with `BUSY` (4), and the range check comes before that. That the queue holds all `2 + 8 L` items for
`L` above 128 is the model's reading, log entry 5 (R181 and R183 against the 1026 items of R42). -/
def Obligations.TxFrameStartsTransmission : Prop :=
  ∀ (l : Nat) (s : State),
    (l ≤ 1024 → s.tx.txActive = false → ∃ t, exec (.txFrame l) s = .next t ∧
      t.tx = startedTx s t.tx.txItems ∧ t.tx.txItems.length = 2 + 8 * l ∧
      t.tx.txItems[0]? = some (.tone (freqWordAt s 63)) ∧
      (∀ j < l, ∀ k < 8, t.tx.txItems[1 + (8 * j + k)]? =
        some (.tone (if (txAt s j).getLsbD (7 - k) then freqWordAt s 66 else freqWordAt s 65))) ∧
      t.tx.txItems[1 + 8 * l]? = some (.tone (freqWordAt s 64)) ∧
      t.res = 2 + 8 * l ∧ t.regs = { s.regs with result := 0, resLo := t.regs.resLo, resHi := 0 } ∧
      SameOutsideRegs s { t with tx := s.tx } ∧ SameMemory s t) ∧
    (l ≤ 1024 → s.tx.txActive = true → exec (.txFrame l) s = .next (withResult 4 s)) ∧
    (l > 1024 → exec (.txFrame l) s = .next (withResult 3 s)) ∧
    WordRuns 0x06 0x0000FF00 (fun w => .txFrame (len16 w)) s

/-- R182, R184, R185, R187: with the line free, TX_BITS takes the lock, starts START and queues, for each character of
`TXBUF[0..N-1]`, BIT1 for '1', BIT0 for '0' and a skip for any other, and STOP; `RES` is the number of tones. Nothing
else changes. With the line locked it ends with `BUSY` (4), and the range check comes before that. -/
def Obligations.TxBitsStartsTransmission : Prop :=
  ∀ (n : Nat) (s : State),
    (n ≤ 1024 → s.tx.txActive = false → ∃ t, exec (.txBits n) s = .next t ∧
      t.tx = startedTx s t.tx.txItems ∧ t.tx.txItems.length = 2 + n ∧
      t.tx.txItems[0]? = some (.tone (freqWordAt s 63)) ∧
      (∀ j < n, t.tx.txItems[1 + j]? =
        some (if txAt s j = 0x31 then .tone (freqWordAt s 66)
          else if txAt s j = 0x30 then .tone (freqWordAt s 65) else .skip j)) ∧
      t.tx.txItems[1 + n]? = some (.tone (freqWordAt s 64)) ∧
      t.res = 2 + ((Finset.range n).filter (fun j => txAt s j = 0x30 ∨ txAt s j = 0x31)).card ∧
      t.regs = { s.regs with result := 0, resLo := t.regs.resLo, resHi := 0 } ∧
      SameOutsideRegs s { t with tx := s.tx } ∧ SameMemory s t) ∧
    (n ≤ 1024 → s.tx.txActive = true → exec (.txBits n) s = .next (withResult 4 s)) ∧
    (n > 1024 → exec (.txBits n) s = .next (withResult 3 s)) ∧
    WordRuns 0x07 0x0000FF00 (fun w => .txBits (len16 w)) s

/-- R190: TX_ABORT turns the waveform off, releases the lock and reports the tones completed; without a transmission it
changes only `RESULT`. -/
def Obligations.TxAbortReleasesTheLine : Prop :=
  ∀ s : State,
    (s.tx.txActive = true → exec .txAbort s = .next { withResult 0 s with
      tx := { s.tx with
        waveOn := false, waveFreq := 0, txActive := false, txItems := [], txPos := 0, txPhase := .tone }
      irq := Reports.emit .txAborted s.tx.txDoneN.toNat s.irq }) ∧
    (s.tx.txActive = false → exec .txAbort s = .next (withResult 0 s)) ∧
    WordRuns 0x08 0xFFFFFF00 (fun _ => .txAbort) s

/-- R45, R150: on a stopped engine RX_START latches the live configuration, opens a window at `NOW_US`, clears the
accumulators and the session, and changes nothing else; on a running one it ends with `BUSY` (4). -/
def Obligations.RxStartLatchesConfiguration : Prop :=
  ∀ s : State,
    (s.rx.rxEn = false → exec .rxStart s = .next { withResult 0 s with
      rx := RxEngine.mk true s.conf.tolHz s.conf.gateLoHz s.conf.gateHiHz s.conf.bitDurUs s.conf.timeoutUs s.nowUs
        0 false 0 0 .idle [] 0 }) ∧
    (s.rx.rxEn = true → exec .rxStart s = .next (withResult 4 s)) ∧
    WordRuns 0x09 0xFFFFFF00 (fun _ => .rxStart) s

/-- R151: RX_STOP stops the engine and discards the session and the accumulators, without an event; the latched values,
the window start, `RXBUF` and the frame registers are kept. -/
def Obligations.RxStopDiscardsSession : Prop :=
  ∀ s : State,
    exec .rxStop s = .next { withResult 0 s with
      rx := RxEngine.mk false s.rx.latTol s.rx.latGateLo s.rx.latGateHi s.rx.latBitDur s.rx.latTimeout s.rx.winStart
        0 false 0 0 .idle [] 0 } ∧
      WordRuns 0x0A 0xFFFFFF00 (fun _ => .rxStop) s

/-- R202: EVT_POP takes the oldest event into `RES_LO` and the number left into `RES_HI`; on an empty FIFO both are 0. -/
def Obligations.EvtPopTakesOldestEvent : Prop :=
  ∀ s : State,
    (s.irq.evq = [] →
      exec .evtPop s = .next { s with regs := { s.regs with result := 0, resLo := 0, resHi := 0 } }) ∧
    (∀ e rest, s.irq.evq = e :: rest →
      exec .evtPop s = .next { s with
        regs := { s.regs with result := 0, resLo := e, resHi := BitVec.ofNat 32 rest.length }
        irq := { s.irq with evq := rest } }) ∧
    WordRuns 0x0B 0xFFFFFF00 (fun _ => .evtPop) s

/-! ## Reports -/

/-- R99, R226: the events have the codes 1 to 8 of R99, and so the `IRQ_STATUS` bits 0 to 7 of R35. Emitting the event of code `c` with a payload sets its `IRQ_STATUS` bit; with room in the FIFO the word is
appended, its code in [7:0] and its payload, at most `2^24 - 1`, in [31:8]; with none it is dropped and `EVT_OVF`, bit 8,
is set too. Nothing else changes. -/
def Obligations.EmitAppendsOrOverflows : Prop :=
  (∀ (e : Event) (p : Nat) (s : State), ∃ t, s.emit e p = t ∧
    t = { s with irq := { s.irq with status := t.irq.status, evq := t.irq.evq } } ∧
    (s.irq.evq.length < 32 → (∃ w : Word, t.irq.evq = s.irq.evq ++ [w] ∧
        w.toNat = e.code + 2 ^ 8 * min p (2 ^ 24 - 1)) ∧
      ∀ k < 10, t.irq.status.getLsbD k = (s.irq.status.getLsbD k || k == e.code - 1)) ∧
    (s.irq.evq.length ≥ 32 → t.irq.evq = s.irq.evq ∧
      ∀ k < 10, t.irq.status.getLsbD k = (s.irq.status.getLsbD k || k == e.code - 1 || k == 8))) ∧
  Event.frameOk.code = 1 ∧ Event.frameMalformed.code = 2 ∧ Event.rxTimeout.code = 3 ∧ Event.rxWarn.code = 4 ∧
    Event.rxOverflow.code = 5 ∧ Event.txDone.code = 6 ∧ Event.txSkip.code = 7 ∧ Event.txAborted.code = 8

/-- R35, R224: no command but TX_FRAME, TX_BITS, TX_ABORT, EVT_POP and SOFT_RESET touches the FIFO or `IRQ_STATUS`, and of
these only TX_ABORT adds an event (TX_FRAME and TX_BITS add theirs in later phase steps). Of all steps, a TX phase step
queues only TX_DONE and TX_SKIP (codes 6 and 7), an RX window step only the five receive events (1 to 5) and TX_ABORT
only TX_ABORTED (8); EVT_POP and SOFT_RESET only take events away; any other step leaves the FIFO as it is. And a bit of
`IRQ_STATUS` rises only in the steps that its row of R35 names: bits 0 to 4 in window steps, 5 and 6 in phase steps, 7 in
TX_ABORT, `EVT_OVF` in one of these three, `BUS_ERR` at an access that is not an aligned 32-bit access. -/
def Obligations.OnlyTransmitCommandsMakeEvents : Prop :=
  (∀ (i : Instr) (s t : State), exec i s = .next t →
    (i ≠ .txAbort → i ≠ .evtPop → i ≠ .softReset → t.irq = s.irq) ∧
    (t.irq.evq.length > s.irq.evq.length → i = .txAbort)) ∧
  ∀ s t : State, step s = .next t →
    ((txTurn s = true ∧ QueuesOnly 6 7 s t) ∨ (txTurn s = false ∧ rxTurn s = true ∧ QueuesOnly 1 5 s t) ∨
      (NextCommandIs (fun i => i = .txAbort) s ∧ QueuesOnly 8 8 s t) ∨
      (NextCommandIs (fun i => i = .evtPop) s ∧ t.irq.evq = s.irq.evq.tail) ∨
      (NextCommandIs (fun i => i = .softReset) s ∧ t.irq.evq = []) ∨ t.irq.evq = s.irq.evq) ∧
    ∀ k, s.irq.status.getLsbD k = false → t.irq.status.getLsbD k = true →
      (k < 5 ∧ txTurn s = false ∧ rxTurn s = true) ∨ ((k = 5 ∨ k = 6) ∧ txTurn s = true) ∨
      (k = 7 ∧ NextCommandIs (fun i => i = .txAbort) s) ∨
      (k = 8 ∧ (txTurn s = true ∨ rxTurn s = true ∨ NextCommandIs (fun i => i = .txAbort) s)) ∨
      (k = 9 ∧ NextAccessIsIllegal s)

/-! ## The RX engine -/

/-- R116: an edge captured while the RX engine runs; it is discarded while the engine is stopped. In good accumulators
(`State.AccOk`, itself a statement below) the new span is the exact sum; that it is taken modulo 2^64 in a state that no
run reaches is the model's choice, log entry 8. -/
def Obligations.EdgeCaptureAccumulates : Prop :=
  ∀ s : State,
    (s.rx.rxEn = false → edgeCapture s = s) ∧
    (s.rx.rxEn = true → s.rx.accN = 0 → edgeCapture s = { s with rx := { s.rx with accLast := s.nowUs, accN := 1 } }) ∧
    (s.rx.rxEn = true → s.rx.accN ≠ 0 → ∃ span : BitVec 64,
      span.toNat = (s.rx.accSpan.toNat + (s.nowUs - s.rx.accLast).toNat) % 2 ^ 64 ∧
      (s.AccOk → span.toNat = s.rx.accSpan.toNat + (s.nowUs - s.rx.accLast).toNat) ∧
      (s.rx.accN.toNat < 2 ^ 32 - 1 →
        edgeCapture s = { s with rx := { s.rx with accSpan := span, accLast := s.nowUs, accN := s.rx.accN + 1 } }) ∧
      (s.rx.accN.toNat = 2 ^ 32 - 1 →
        edgeCapture s = { s with rx := { s.rx with accSpan := span, accLast := s.nowUs, accSat := true } }))

/-- R110, R116, R118 (the inference R117 draws from them): the accumulators, cleared and then fed fewer than `2^32` edges,
give at the window's end the gated estimate of the edges' timestamps, as `Est` computes it from the list; and accumulators
whose edge count overflowed give the sentinel. -/
def Obligations.AccumulatorsComputeTheEstimate : Prop :=
  (∀ r : RxEngine, r.accSat = true → r.winEst = ⟨0, 1⟩) ∧
  ∀ (r : RxEngine) (ts : List Word), r.accN = 0 → r.accSpan = 0 → r.accSat = false → ts.length < 2 ^ 32 →
    let r' := ts.foldl (fun q t => q.capture t) r
    r'.accN.toNat = ts.length ∧ r'.accSat = false ∧
      (2 ≤ ts.length → r'.accSpan.toNat = ∑ i ∈ Finset.range (ts.length - 1), (ts.getD (i + 1) 0 - ts.getD i 0).toNat) ∧
      r'.winEst = gate (est ts) r.latGateLo.toNat r.latGateHi.toNat

/-- R110, R111 (the inference R120 draws from them): a constant interval `T > 0` over `n >= 2` edges gives exactly
`(1_000_000 (n - 1), (n - 1) T)`, and 0 or 1 edges the sentinel. -/
def Obligations.ConstantIntervalGivesExactFrequency : Prop :=
  (∀ (start period : Word) (n : Nat), 2 ≤ n → period ≠ 0 →
    est ((List.range n).map (fun i => start + BitVec.ofNat 32 i * period)) =
      ⟨1000000 * (n - 1), (n - 1) * period.toNat⟩) ∧
  est [] = ⟨0, 1⟩ ∧ ∀ t : Word, est [t] = ⟨0, 1⟩

/-- R134, R135, R155: the class of a window estimate is that of the first table entry within the latched tolerance. -/
def Obligations.WindowClassIsTheFirstMatch : Prop :=
  ∀ (cfg : Config) (tol : Word) (v : Freq),
    (v.num = 0 → classify cfg tol v = .none) ∧
    (v.num ≠ 0 → ∀ i, FirstMatch cfg v tol.toNat i →
      classify cfg tol v =
        if i = 63 then .start else if i = 64 then .stop else if i = 65 then .bit0 else if i = 66 then .bit1 else .other) ∧
    (v.num ≠ 0 → (∀ i < 67, ¬ Within cfg v tol.toNat i) → classify cfg tol v = .other)

/-- R156 to R158, R164: in Idle a START window opens a session that starts now; a window of any other class only starts
the next window; no event is emitted. -/
def Obligations.IdleWindowOpensOnlyOnStart : Prop :=
  ∀ s : State, s.rx.fdState = .idle →
    (windowClass s = .start → rxWindowStep s = { s with rx := nextWindow s .framing [] s.nowUs }) ∧
    (windowClass s ≠ .start → rxWindowStep s = { s with rx := nextWindow s .idle s.rx.sessBits s.rx.sessStart })

/-- R156, R159, R161, R163: a bit window in Framing appends its bit, unless the session is full, which abandons it with
RX_OVERFLOW; then the timeout test abandons it with RX_TIMEOUT if it has run too long. -/
def Obligations.BitWindowAppendsOrAbandons : Prop :=
  ∀ (s : State) (b : Bool), s.rx.fdState = .framing → windowClass s = (if b then .bit1 else .bit0) →
    (s.rx.sessBits.length ≠ 8192 → ¬ TimedOut s →
      rxWindowStep s = { s with rx := nextWindow s .framing (s.rx.sessBits ++ [b]) s.rx.sessStart }) ∧
    (s.rx.sessBits.length ≠ 8192 → TimedOut s →
      rxWindowStep s = { s with
        rx := nextWindow s .idle [] s.rx.sessStart
        irq := Reports.emit .rxTimeout (s.rx.sessBits.length + 1) s.irq }) ∧
    (s.rx.sessBits.length = 8192 →
      rxWindowStep s = { s with
        rx := nextWindow s .idle [] s.rx.sessStart
        irq := Reports.emit .rxOverflow 8192 s.irq })

/-- R139, R156, R160: a STOP window in Framing completes the frame, whatever the timeout: `RXBUF` holds the bits packed,
most significant first, with zeros after them, and no other byte changes; `FRAME_BITS` and `FRAME_SEQ` are set;
FRAME_OK or FRAME_MALFORMED is emitted; the session ends. -/
def Obligations.StopWindowCompletesFrame : Prop :=
  ∀ s : State, s.rx.fdState = .framing → windowClass s = .stop → s.rx.sessBits.length ≤ 8192 →
    ∃ t, rxWindowStep s = t ∧
      (∀ m < 1024, ∀ k < 8, (Memory.read t.mem (0x2400 + m)).getLsbD (7 - k) = s.rx.sessBits.getD (8 * m + k) false) ∧
      SameMemoryOutside 0x2400 1024 s t ∧
      t.frame.frameBits.toNat = s.rx.sessBits.length ∧ t.frame.frameSeq.toNat = (s.frame.frameSeq.toNat + 1) % 2 ^ 32 ∧
      t.irq = Reports.emit (if s.rx.sessBits.length % 8 = 0 then .frameOk else .frameMalformed) s.rx.sessBits.length
        s.irq ∧
      t.rx = nextWindow s .idle [] s.rx.sessStart ∧
      t.cfg = s.cfg ∧ t.regs = s.regs ∧ t.conf = s.conf ∧ t.nowUs = s.nowUs ∧ t.tx = s.tx ∧ t.env = s.env

/-- R156, R162 to R164: in Framing a window of class OTHER or START is warned with the estimate's whole Hz and a window
without a signal is not; neither changes the bits; then the timeout test abandons the session if it has run too long. -/
def Obligations.OtherWindowsWarnAndTimeOut : Prop :=
  ∀ s : State, s.rx.fdState = .framing →
    (windowClass s = .other ∨ windowClass s = .start →
      (¬ TimedOut s → rxWindowStep s = { s with
        rx := nextWindow s .framing s.rx.sessBits s.rx.sessStart
        irq := Reports.emit .rxWarn (s.rx.winEst.num / s.rx.winEst.den) s.irq }) ∧
      (TimedOut s → rxWindowStep s = { s with
        rx := nextWindow s .idle [] s.rx.sessStart
        irq := Reports.emit .rxTimeout s.rx.sessBits.length
          (Reports.emit .rxWarn (s.rx.winEst.num / s.rx.winEst.den) s.irq) })) ∧
    (windowClass s = .none →
      (¬ TimedOut s → rxWindowStep s = { s with rx := nextWindow s .framing s.rx.sessBits s.rx.sessStart }) ∧
      (TimedOut s → rxWindowStep s = { s with
        rx := nextWindow s .idle [] s.rx.sessStart
        irq := Reports.emit .rxTimeout s.rx.sessBits.length s.irq }))

/-! ## The TX engine -/

/-- R180, R186, R187: the phase step at a tone's end turns the waveform off and begins a gap of `TX_BIT_DUR`. At a gap's
end it counts the element done and reports, in buffer order, every skip that follows; then it starts the next tone, or,
after the last item, releases the lock and reports TX_DONE with the count. -/
def Obligations.PhaseStepAlternatesToneAndGap : Prop :=
  ∀ s : State,
    (s.tx.txPhase = .tone →
      txPhaseStep s = { s with tx := { s.tx with
        waveOn := false, waveFreq := 0, txPhase := .gap, txPhaseEnd := s.nowUs + s.tx.txBitDur } }) ∧
    ∀ js : List Nat, s.tx.txPhase = .gap →
      (∀ f rest, s.tx.txItems.drop (s.tx.txPos + 1) = js.map TxItem.skip ++ TxItem.tone f :: rest →
        txPhaseStep s = { s with
          tx := { s.tx with
            txDoneN := s.tx.txDoneN + 1, txPos := s.tx.txPos + 1 + js.length
            waveOn := true, waveFreq := f, txPhase := .tone, txPhaseEnd := s.nowUs + s.tx.txBitDur }
          irq := js.foldl (fun r j => Reports.emit .txSkip j r) s.irq }) ∧
      (s.tx.txItems.drop (s.tx.txPos + 1) = js.map TxItem.skip →
        txPhaseStep s = { s with
          tx := { s.tx with
            txDoneN := s.tx.txDoneN + 1, txActive := false, txItems := [], txPos := 0, txPhase := .tone }
          irq := Reports.emit .txDone (s.tx.txDoneN + 1).toNat
            (js.foldl (fun r j => Reports.emit .txSkip j r) s.irq) })

/-- R183, R186, R187 (the schedule that R188 and R271 derive from them): with nothing else happening (RX stopped, the
environment quiet), a TX_FRAME of `L` bytes accepted at `t0` with `B = BIT_DUR_US` has tone `j` on for the times
`t0 + 2jB + m`, `m < B`, and the port off for `t0 + 2jB + B + m`; after `2B(2 + 8L)` µs the lock is free and TX_DONE
with the count `2 + 8L` is the one event. Each µs is one tick, and each phase end one more step. That all `2 + 8L` tones
are sent for `L` above 128 is the model's reading, log entry 5 (R181 and R183 against the 1026 items of R42). -/
def Obligations.TxFrameRunsToDone : Prop :=
  ∀ (l : Nat) (s : State), l ≤ 1024 → s.tx.txActive = false → s.rx.rxEn = false →
    1 ≤ s.conf.bitDurUs.toNat → s.conf.bitDurUs.toNat ≤ 2 ^ 30 →
    s.env.dueEdges = 0 → s.env.dueAccesses = [] → s.env.schedule = [] →
    let b := s.conf.bitDurUs.toNat
    ∃ t, exec (.txFrame l) s = .next t ∧
      (∀ j < 2 + 8 * l, ∀ m < b,
        (∃ u f, Sys2Proof.core.run (2 * j * (b + 1) + m) t = .next u ∧ t.tx.txItems[j]? = some (.tone f) ∧
          u.nowUs = s.nowUs + BitVec.ofNat 32 (2 * j * b + m) ∧ u.tx.waveOn = true ∧ u.tx.waveFreq = f) ∧
        (∃ u, Sys2Proof.core.run ((2 * j + 1) * (b + 1) + m) t = .next u ∧
          u.nowUs = s.nowUs + BitVec.ofNat 32 (2 * j * b + b + m) ∧ u.tx.waveOn = false ∧ u.tx.txActive = true)) ∧
      ∃ u, Sys2Proof.core.run (2 * (2 + 8 * l) * (b + 1)) t = .next u ∧
        u.nowUs = s.nowUs + BitVec.ofNat 32 (2 * (2 + 8 * l) * b) ∧ u.tx.txActive = false ∧ u.tx.waveOn = false ∧
        u.tx.txDoneN.toNat = 2 + 8 * l ∧ u.irq = Reports.emit .txDone (2 + 8 * l) s.irq

/-! ## Rules of the whole machine -/

/-- R30, R69, R183, R191: the engines' steps do the same, and come at the same times, whatever the configuration registers
hold, whatever memory holds (the phase step) and whatever the other engine does, and leave those as they are. -/
def Obligations.EnginesReadOnlyTheirOwnState : Prop :=
  (∀ (s : State) (c : ConfRegs),
    txPhaseStep { s with conf := c } = { txPhaseStep s with conf := c } ∧
    rxWindowStep { s with conf := c } = { rxWindowStep s with conf := c } ∧
    edgeCapture { s with conf := c } = { edgeCapture s with conf := c } ∧
    txDue { s with conf := c } = txDue s ∧ rxDue { s with conf := c } = rxDue s) ∧
  (∀ (s : State) (m : Memory) (r : RxEngine),
    txPhaseStep { s with mem := m, rx := r } = { txPhaseStep s with mem := m, rx := r } ∧
    txDue { s with mem := m, rx := r } = txDue s) ∧
  (∀ (s : State) (e : TxEngine),
    rxWindowStep { s with tx := e } = { rxWindowStep s with tx := e } ∧
    edgeCapture { s with tx := e } = { edgeCapture s with tx := e } ∧
    rxDue { s with tx := e } = rxDue s)

/-- R166, R47: only RX_START, RX_STOP, the RX window step and SOFT_RESET write the session state or the window start;
edge captures also write the accumulators; no other step writes any of them. -/
def Obligations.OnlyReceiverStepsWriteReceiver : Prop :=
  ∀ s t : State, step s = .next t → t.rx ≠ s.rx →
    (txTurn s = false ∧ rxTurn s = true) ∨
    (txTurn s = false ∧ rxTurn s = false ∧ edgeTurn s = true ∧ t.rx = { s.rx with
      accN := t.rx.accN, accSat := t.rx.accSat, accLast := t.rx.accLast, accSpan := t.rx.accSpan }) ∨
    NextCommandIs (fun i => i = .rxStart ∨ i = .rxStop ∨ i = .softReset) s

/-- R49: only TX phase steps, the TX commands and SOFT_RESET write `WAVE_ON` and `WAVE_FREQ`. -/
def Obligations.OnlyTransmitStepsWriteWaveform : Prop :=
  ∀ s t : State, step s = .next t → t.tx.waveOn ≠ s.tx.waveOn ∨ t.tx.waveFreq ≠ s.tx.waveFreq →
    txTurn s = true ∨
    NextCommandIs (fun i => (∃ n, i = .txFrame n) ∨ (∃ n, i = .txBits n) ∨ i = .txAbort ∨ i = .softReset) s

/-- R37: `FRAME_BITS` and `FRAME_SEQ` change only at a frame completion, which is a STOP window of a Framing session, and at
reset. -/
def Obligations.FrameRegistersChangeOnlyAtCompletion : Prop :=
  ∀ s t : State, step s = .next t → t.frame ≠ s.frame →
    (txTurn s = false ∧ rxTurn s = true ∧ s.rx.fdState = .framing ∧ windowClass s = .stop ∧
      t.frame.frameBits = BitVec.ofNat 32 s.rx.sessBits.length ∧ t.frame.frameSeq = s.frame.frameSeq + 1) ∨
    NextCommandIs (fun i => i = .softReset) s

/-! ## Invariants -/

/-- The invariants below hold after power-on reset under every configuration, and so at `State.reset`. -/
def Obligations.PowerOnMeetsInvariants : Prop :=
  (∀ cfg : WfConfig, (State.powerOn cfg).Inv) ∧ State.reset.Inv

/-- R50, R63: every step keeps the memory canonical and inside the four buffers. -/
def Obligations.StepsKeepMemoryCanonical : Prop :=
  ∀ s t : State, s.MemOk → step s = .next t → t.MemOk

/-- R31, R33, R37, R42, R46, R98, R99: every step keeps the WARL registers legal, the result code one of the six, the FIFO
within its depth and of event codes 1..8, and the session within its bound and empty while Idle. -/
def Obligations.StepsKeepReportsAndSessionBounded : Prop :=
  ∀ s t : State, s.ConfOk ∧ s.ReportsOk ∧ s.SessionOk → step s = .next t → t.ConfOk ∧ t.ReportsOk ∧ t.SessionOk

/-- R45, R72, R116, R152: the window step is due exactly when the RX engine runs and `W = 2 * LAT_BIT_DUR` has elapsed since
`WIN_START`, neither earlier nor later; and every step keeps a running RX engine inside its window, so that the window
step is never missed, and keeps the accumulated span within the window's time, so that it never wraps. -/
def Obligations.ReceiverMissesNoWindow : Prop :=
  (∀ s : State, rxDue s = true ↔ s.rx.rxEn = true ∧ (s.nowUs - s.rx.winStart).toNat = 2 * s.rx.latBitDur.toNat) ∧
  ∀ s t : State, s.ConfOk ∧ s.WindowOk ∧ s.AccOk → step s = .next t → t.ConfOk ∧ t.WindowOk ∧ t.AccOk

/-- R42, R49, R72, R180, R184, R186: the phase step is due exactly when a transmission is active and `NOW_US` is
`TX_PHASE_END`; and every step keeps the waveform port in agreement with the lock, the phase and the item list, and an
active transmission never misses a phase end. The item list stays within `2 + 8 * TXBUF_SIZE` items
(`State.ItemsOk`), and no step makes a list of more than the `TXBUF_SIZE + 2` of R42 but an accepted TX_FRAME of more than
128 bytes: that such a frame has its `2 + 8 L` items is the model's reading, log entry 5. -/
def Obligations.TransmitterMissesNoPhaseEnd : Prop :=
  (∀ s : State, txDue s = true ↔ s.tx.txActive = true ∧ s.nowUs = s.tx.txPhaseEnd) ∧
  ∀ s t : State, step s = .next t →
    (s.ConfOk ∧ s.LineOk ∧ s.PhaseOk → t.ConfOk ∧ t.LineOk ∧ t.PhaseOk) ∧ (s.ItemsOk → t.ItemsOk) ∧
    (t.tx.txItems.length > 1024 + 2 → t.tx.txItems = s.tx.txItems ∨
      NextCommandIs (fun i => ∃ l, i = .txFrame l ∧ 128 < l) s)

/-! ## Round trips -/

/-- R31, R95, R131, R134 to R136 (the first law that R140 derives from them): F2S on the exact frequency of a symbol, as S2F
gave it, with the tolerance the register can hold, gives the symbol back. -/
def Obligations.SymbolFrequencyRoundTrip : Prop :=
  ∀ (s : State) (i : Nat) (c : Byte), SymbolAt i c → s.conf.tolHz.toNat ≤ s.cfg.minSep / 2 →
    ∃ t u, exec (.s2f c) s = .next t ∧
      exec .f2s { t with regs := { t.regs with opaLo := t.regs.resLo, opaHi := t.regs.resHi, opbLo := 1, opbHi := 0 } } =
        .next u ∧
      u.regs.result = 0 ∧ u.res = c.toNat ∧ u.res2 = i

/-- R137 to R139, R181 (the second and third law that R140 derives from them): B2BITS of `L <= 128` bytes, the
host's copy of the `8L` characters of `CVTBUF` into `TXBUF`, and BITS2B give the bytes back; and packing the bits of any byte string gives the string. -/
def Obligations.BytesToBitsRoundTrip : Prop :=
  (∀ (s t : State) (l : Nat), l ≤ 128 → exec (.b2bits l) s = .next t →
    ∀ t' : State, (∀ j < 8 * l, txAt t' j = Memory.read t.mem (0x4000 + j)) →
      ∃ u, exec (.bits2b (8 * l)) t' = .next u ∧ u.regs.result = 0 ∧ u.res = l ∧
        ∀ j < l, Memory.read u.mem (0x4000 + j) = txAt s j) ∧
  ∀ bs : List Byte, pack (bs.flatMap byteBits) = bs
end

