-- ==== Sys2Proof/Laws/Config.lean ====
section
/-! SUPPORT. The symbol codes, and what a well-formed configuration has: its bounds, and the separation of its
frequencies. -/

namespace Sys2Proof

/-! ## Symbol codes -/

/-- A table index from its symbol code. -/
theorem indexOf?_codeAt : ∀ i < 67, indexOf? (codeAt i) = some i := by decide

/-- A symbol code from its table index. -/
theorem codeAt_of_indexOf? : ∀ c : Byte, ∀ i, indexOf? c = some i → i < 67 ∧ codeAt i = c := by
  have h : ∀ c : Byte, ∀ i ∈ indexOf? c, i < 67 ∧ codeAt i = c := by decide +kernel
  exact fun c i hi => h c i hi

/-! ## Well-formed configurations -/

theorem WfConfig.length_freq (c : WfConfig) : c.freq.length = 67 := by
  have := c.isWf
  simp only [Config.wf, Bool.and_eq_true, Config.freqTotal, beq_iff_eq] at this
  exact this.1.1.1.1.1

theorem WfConfig.freqAt_range (c : WfConfig) (i : Nat) (h : i < 67) : 1 ≤ c.freqAt i ∧ c.freqAt i ≤ 2 ^ 32 - 1 := by
  have hl := c.length_freq
  have := c.isWf
  simp only [Config.wf, Bool.and_eq_true, Config.freqInRange, List.all_eq_true, decide_eq_true_eq] at this
  have hm := this.1.1.1.1.2 (c.freqAt i) (by
    unfold Config.freqAt
    rw [List.getD_eq_getElem?_getD, List.getElem?_eq_getElem (by omega)]
    exact List.getElem_mem _)
  exact hm

/-- The reset tolerance is at most half the table separation (R11). -/
theorem WfConfig.tolReset_le (c : WfConfig) : c.tolReset ≤ c.tolMax := by
  have := c.isWf
  simp only [Config.wf, Bool.and_eq_true, Config.tolInRange, decide_eq_true_eq] at this
  exact this.1.1.2

/-- The reset bit duration is in its bounds (R11). -/
theorem WfConfig.bitDur_range (c : WfConfig) : 1 ≤ c.bitDurReset ∧ c.bitDurReset ≤ bitDurMax := by
  have := c.isWf
  simp only [Config.wf, Bool.and_eq_true, Config.bitDurInRange, decide_eq_true_eq] at this
  exact this.1.2

theorem leastOf_le {l : List Nat} {a : Nat} (h : a ∈ l) : leastOf l ≤ a := by
  induction l with
  | nil => cases h
  | cons b l ih =>
    cases l with
    | nil => simp_all [leastOf]
    | cons c l =>
      simp only [leastOf]
      rcases List.mem_cons.1 h with rfl | h
      · exact Nat.min_le_left _ _
      · exact Nat.le_trans (Nat.min_le_right _ _) (ih h)

theorem leastOf_mem {l : List Nat} (h : l ≠ []) : leastOf l ∈ l := by
  induction l with
  | nil => exact absurd rfl h
  | cons b l ih =>
    cases l with
    | nil => simp [leastOf]
    | cons c l =>
      simp only [leastOf]
      rcases Nat.le_total b (leastOf (c :: l)) with hb | hb
      · rw [Nat.min_eq_left hb]; exact List.mem_cons_self
      · rw [Nat.min_eq_right hb]; exact List.mem_cons_of_mem _ (ih (by simp))

theorem le_greatestOf {l : List Nat} {a : Nat} (h : a ∈ l) : a ≤ greatestOf l := by
  induction l with
  | nil => cases h
  | cons b l ih =>
    simp only [greatestOf]
    rcases List.mem_cons.1 h with rfl | h
    · exact Nat.le_max_left _ _
    · exact Nat.le_trans (ih h) (Nat.le_max_right _ _)

theorem greatestOf_mem {l : List Nat} (h : l ≠ []) : greatestOf l ∈ l := by
  induction l with
  | nil => exact absurd rfl h
  | cons b l ih =>
    simp only [greatestOf]
    cases l with
    | nil => simp [greatestOf]
    | cons c l =>
      rcases Nat.le_total b (greatestOf (c :: l)) with hb | hb
      · rw [Nat.max_eq_right hb]; exact List.mem_cons_of_mem _ (ih (by simp))
      · rw [Nat.max_eq_left hb]; exact List.mem_cons_self

theorem absDiff_comm (a b : Nat) : absDiff a b = absDiff b a := by
  unfold absDiff; split <;> split <;> omega

/-- The distance of two naturals, as an integer's absolute value. -/
theorem absDiff_eq_abs (a b : Nat) : (absDiff a b : Int) = |(a : Int) - b| := by
  unfold absDiff
  split
  · rw [abs_of_nonpos (by omega)]; omega
  · rw [abs_of_nonneg (by omega)]; omega

/-- No two entries of a list are closer than its least separation. -/
theorem separations_le {l : List Nat} {i j : Nat} (hi : i < j) (hj : j < l.length) :
    leastOf (separations l) ≤ absDiff (l[i]'(by omega)) l[j] := by
  induction l generalizing i j with
  | nil => simp at hj
  | cons a l ih =>
    cases l with
    | nil => simp at hj; omega
    | cons b r =>
      rw [separations]
      cases j with
      | zero => omega
      | succ j =>
        cases i with
        | zero =>
          refine Nat.le_trans (leastOf_le List.mem_cons_self) (leastOf_le ?_)
          simp only [List.getElem_cons_zero, List.getElem_cons_succ]
          exact List.mem_map_of_mem (List.getElem_mem _)
        | succ i =>
          simp only [List.getElem_cons_succ]
          have key := ih (i := i) (j := j) (by omega) (by simpa using hj)
          by_cases hs : separations (b :: r) = []
          · cases r with
            | nil => simp at hj; omega
            | cons c r => simp [separations] at hs
          · exact Nat.le_trans (leastOf_le (List.mem_cons_of_mem _ (leastOf_mem hs))) key

/-- The least separation of a list with two entries is the distance of two of them. -/
theorem separations_mem {l : List Nat} {d : Nat} (h : d ∈ separations l) :
    ∃ i j, ∃ (hi : i < j) (hj : j < l.length), d = absDiff (l[i]'(by omega)) l[j] := by
  induction l with
  | nil => simp [separations] at h
  | cons a l ih =>
    cases l with
    | nil => simp [separations] at h
    | cons b r =>
      rw [separations] at h
      rcases List.mem_cons.1 h with rfl | h
      · have hm := leastOf_mem (l := (b :: r).map (absDiff a)) (by simp)
        obtain ⟨x, hx, hxe⟩ := List.mem_map.1 hm
        obtain ⟨j, hj, rfl⟩ := List.getElem_of_mem hx
        exact ⟨0, j + 1, by omega, by simpa using hj, by simpa using hxe.symm⟩
      · obtain ⟨i, j, hi, hj, rfl⟩ := ih h
        exact ⟨i + 1, j + 1, by omega, by simpa using hj, by simp⟩

theorem Config.freqAt_eq_getElem (c : Config) (i : Nat) (h : i < c.freq.length) : c.freqAt i = c.freq[i] := by
  unfold Config.freqAt
  rw [List.getD_eq_getElem?_getD, List.getElem?_eq_getElem h]
  rfl

/-- `MIN_SEP` is at most the distance of any two table frequencies. -/
theorem WfConfig.minSep_le (c : WfConfig) {i j : Nat} (hi : i < 67) (hj : j < 67) (h : i ≠ j) :
    c.minSep ≤ absDiff (c.freqAt i) (c.freqAt j) := by
  have hl := c.length_freq
  rw [c.freqAt_eq_getElem i (by omega), c.freqAt_eq_getElem j (by omega)]
  rcases Nat.lt_or_gt_of_ne h with h | h
  · exact separations_le h (by omega)
  · rw [absDiff_comm]; exact separations_le h (by omega)

/-- The table frequencies are pairwise distinct (R10). -/
theorem WfConfig.freqAt_ne (c : WfConfig) {i j : Nat} (hi : i < 67) (hj : j < 67) (h : i ≠ j) :
    c.freqAt i ≠ c.freqAt j := by
  have hl := c.length_freq
  have := c.isWf
  simp only [Config.wf, Bool.and_eq_true, Config.freqDistinct, decide_eq_true_eq] at this
  have hp := List.pairwise_iff_getElem.1 this.1.1.1.2
  rw [c.freqAt_eq_getElem i (by omega), c.freqAt_eq_getElem j (by omega)]
  rcases Nat.lt_or_gt_of_ne h with h | h
  · exact hp i j (by omega) (by omega) h
  · exact (hp j i (by omega) (by omega) h).symm

end Sys2Proof
end

