-- ==== Sys2Proof/Laws/Decode.lean ====
section
/-! SUPPORT. The fields of a command word: what a built word holds, and that the three fields are the whole word. -/

namespace Sys2Proof

@[simp] theorem fieldOpc_commandWord (o a : BitVec 8) (n : Nat) : fieldOpc (commandWord o a n) = o := by
  unfold fieldOpc commandWord
  ext i hi
  simp only [BitVec.getElem_extractLsb', Nat.zero_add, BitVec.getLsbD_append]
  simp [hi]

@[simp] theorem fieldArg8_commandWord (o a : BitVec 8) (n : Nat) : fieldArg8 (commandWord o a n) = a := by
  unfold fieldArg8 commandWord
  ext i hi
  simp only [BitVec.getElem_extractLsb', BitVec.getLsbD_append]
  simp [hi]

@[simp] theorem fieldLen16_commandWord (o a : BitVec 8) (n : Nat) :
    fieldLen16 (commandWord o a n) = BitVec.ofNat 16 n := by
  unfold fieldLen16 commandWord
  ext i hi
  simp only [BitVec.getElem_extractLsb', BitVec.getLsbD_append]
  simp [show ¬ (16 + i < 8) by omega, show ¬ (16 + i - 8 < 8) by omega, show 16 + i - 8 - 8 = i by omega, hi,
    BitVec.getElem_eq_testBit_toNat]

/-- Two words with the same three fields are the same word. -/
theorem word_eq_of_fields (w v : Word) (h1 : fieldOpc w = fieldOpc v) (h2 : fieldArg8 w = fieldArg8 v)
    (h3 : fieldLen16 w = fieldLen16 v) : w = v := by
  have e1 : ∀ i < 8, w.getLsbD i = v.getLsbD i := fun i hi => by
    have := congrArg (·.getLsbD i) h1
    simpa [fieldOpc, BitVec.getLsbD_extractLsb', hi] using this
  have e2 : ∀ i < 8, w.getLsbD (8 + i) = v.getLsbD (8 + i) := fun i hi => by
    have := congrArg (·.getLsbD i) h2
    simpa [fieldArg8, BitVec.getLsbD_extractLsb', hi] using this
  have e3 : ∀ i < 16, w.getLsbD (16 + i) = v.getLsbD (16 + i) := fun i hi => by
    have := congrArg (·.getLsbD i) h3
    simpa [fieldLen16, BitVec.getLsbD_extractLsb', hi] using this
  apply BitVec.eq_of_getLsbD_eq
  intro i hi
  rcases Nat.lt_or_ge i 8 with h | h
  · exact e1 i h
  · rcases Nat.lt_or_ge i 16 with h' | h'
    · have := e2 (i - 8) (by omega)
      rwa [show 8 + (i - 8) = i by omega] at this
    · have := e3 (i - 16) (by omega)
      rwa [show 16 + (i - 16) = i by omega] at this

/-- A mask on a word is the mask's fields on the word's. -/
theorem and_eq_iff_fields (w mask val : Word) :
    w &&& mask = val ↔ fieldOpc w &&& fieldOpc mask = fieldOpc val ∧ fieldArg8 w &&& fieldArg8 mask = fieldArg8 val ∧
      fieldLen16 w &&& fieldLen16 mask = fieldLen16 val := by
  constructor
  · rintro rfl
    simp [fieldOpc, fieldArg8, fieldLen16, BitVec.extractLsb'_and]
  · rintro ⟨h1, h2, h3⟩
    apply word_eq_of_fields <;> simp only [fieldOpc, fieldArg8, fieldLen16, BitVec.extractLsb'_and] at * <;> assumption

end Sys2Proof
end

