-- ==== Sys2Proof/Laws/Memory.lean ====
section
/-! SUPPORT. The buffers: what a byte reads after a block is written, and that every memory operation keeps the
canonical form. -/

namespace Sys2Proof.Machine

@[simp] theorem Memory.read_nil (a : Nat) : Memory.read [] a = Memory.unlisted a := rfl

theorem Memory.read_cons (k : Nat) (v : Byte) (m : Memory) (a : Nat) :
    Memory.read ((k, v) :: m) a = if k = a then v else Memory.read m a := rfl

/-- An address that no cell lists reads as an unlisted one. -/
theorem Memory.read_of_not_listed (m : Memory) (a : Nat) (h : ∀ c ∈ m, c.1 ≠ a) :
    Memory.read m a = Memory.unlisted a := by
  induction m with
  | nil => rfl
  | cons c m ih =>
    obtain ⟨k, v⟩ := c
    rw [Memory.read_cons, if_neg (h (k, v) (by simp)), ih (fun c hc => h c (by simp [hc]))]

/-- Reading in a joined list: the first part answers where it lists the address. -/
theorem Memory.read_append (m n : Memory) (a : Nat) :
    Memory.read (m ++ n) a = if ∃ c ∈ m, c.1 = a then Memory.read m a else Memory.read n a := by
  induction m with
  | nil => simp
  | cons c m ih =>
    obtain ⟨k, v⟩ := c
    by_cases hk : k = a
    · simp [Memory.read_cons, hk]
    · simp [Memory.read_cons, hk, ih]

/-- Keeping only the cells of some addresses changes no reading at one of them. -/
theorem Memory.read_filter (m : Memory) (p : Nat → Bool) (a : Nat) (h : p a = true) :
    Memory.read (m.filter (fun c => p c.1)) a = Memory.read m a := by
  induction m with
  | nil => rfl
  | cons c m ih =>
    obtain ⟨k, v⟩ := c
    by_cases hk : k = a
    · subst hk; simp [h, Memory.read_cons]
    · by_cases hp : p k = true <;> simp [hp, Memory.read_cons, hk, ih]

/-- Every cell of a block lies in the block and differs from what its address reads unlisted. -/
theorem Memory.mem_cells {a : Nat} {bs : List Byte} {c : Host.Cell} (h : c ∈ Memory.cells a bs) :
    a ≤ c.1 ∧ c.1 < a + bs.length ∧ c.2 ≠ Memory.unlisted c.1 := by
  induction bs generalizing a with
  | nil => simp [Memory.cells] at h
  | cons b bs ih =>
    unfold Memory.cells at h
    split at h
    · obtain ⟨h1, h2, h3⟩ := ih h
      exact ⟨by omega, by simp only [List.length_cons]; omega, h3⟩
    · rcases List.mem_cons.1 h with rfl | h
      · simp_all
      · obtain ⟨h1, h2, h3⟩ := ih h
        exact ⟨by omega, by simp only [List.length_cons]; omega, h3⟩

/-- A block reads as its bytes. -/
theorem Memory.read_cells (a : Nat) (bs : List Byte) (i : Nat) (h : i < bs.length) :
    Memory.read (Memory.cells a bs) (a + i) = bs[i] := by
  induction bs generalizing a i with
  | nil => simp at h
  | cons b bs ih =>
    unfold Memory.cells
    cases i with
    | zero =>
      split
      · next hb =>
        rw [Memory.read_of_not_listed]
        · simp [hb]
        · intro c hc; have := Memory.mem_cells hc; omega
      · simp [Memory.read_cons]
    | succ i =>
      have hi : i < bs.length := by simpa using h
      have key := ih (a + 1) i hi
      rw [show a + 1 + i = a + (i + 1) by omega] at key
      split
      · simpa using key
      · rw [Memory.read_cons, if_neg (by omega)]; simpa using key

/-- What a byte reads after a block is written: its byte of the block inside it, and what it read before outside. -/
theorem Memory.read_writeBytes (m : Memory) (a : Nat) (bs : List Byte) (b : Nat) :
    Memory.read (Memory.writeBytes m a bs) b =
      if h : a ≤ b ∧ b < a + bs.length then bs[b - a]'(by omega) else Memory.read m b := by
  unfold Memory.writeBytes
  by_cases h1 : b < a
  · rw [dif_neg (by omega), List.append_assoc, Memory.read_append]
    by_cases hx : ∃ c ∈ m.filter (fun c => decide (c.1 < a)), c.1 = b
    · rw [if_pos hx]; exact Memory.read_filter m (fun k => decide (k < a)) b (by simpa using h1)
    · rw [if_neg hx, Memory.read_of_not_listed, Memory.read_of_not_listed m b]
      · intro c hc hcb
        exact hx ⟨c, by simp [hc, hcb, h1], hcb⟩
      · intro c hc
        rcases List.mem_append.1 hc with hc | hc
        · have := Memory.mem_cells hc; omega
        · have := (List.mem_filter.1 hc).2; simp at this; omega
  · rw [List.append_assoc, Memory.read_append, if_neg (by
      rintro ⟨c, hc, hcb⟩
      have := (List.mem_filter.1 hc).2
      simp at this; omega), Memory.read_append]
    by_cases h2 : b < a + bs.length
    · rw [dif_pos ⟨by omega, h2⟩]
      have key := Memory.read_cells a bs (b - a) (by omega)
      rw [show a + (b - a) = b by omega] at key
      by_cases hx : ∃ c ∈ Memory.cells a bs, c.1 = b
      · rw [if_pos hx, key]
      · rw [if_neg hx, Memory.read_of_not_listed, ← key, Memory.read_of_not_listed]
        · intro c hc hcb; exact hx ⟨c, hc, hcb⟩
        · intro c hc
          have := (List.mem_filter.1 hc).2
          simp at this; omega
    · rw [dif_neg (by omega), if_neg (by
        rintro ⟨c, hc, hcb⟩
        have := Memory.mem_cells hc
        omega)]
      exact Memory.read_filter m (fun k => decide (a + bs.length ≤ k)) b (by simp; omega)

/-- A byte outside a written block reads as before. -/
theorem Memory.read_writeBytes_outside (m : Memory) (a : Nat) (bs : List Byte) (b : Nat)
    (h : b < a ∨ a + bs.length ≤ b) : Memory.read (Memory.writeBytes m a bs) b = Memory.read m b := by
  rw [Memory.read_writeBytes, dif_neg (by omega)]

/-- A byte of a written block reads as written. -/
theorem Memory.read_writeBytes_inside (m : Memory) (a : Nat) (bs : List Byte) (i : Nat) (h : i < bs.length) :
    Memory.read (Memory.writeBytes m a bs) (a + i) = bs[i] := by
  rw [Memory.read_writeBytes, dif_pos ⟨by omega, by omega⟩]
  simp

theorem Memory.pairwise_cells (a : Nat) (bs : List Byte) :
    (Memory.cells a bs).Pairwise (fun c d => c.1 < d.1) := by
  induction bs generalizing a with
  | nil => simp [Memory.cells]
  | cons b bs ih =>
    unfold Memory.cells
    split
    · exact ih _
    · refine List.pairwise_cons.2 ⟨fun c hc => ?_, ih _⟩
      have := Memory.mem_cells hc
      show a < c.1
      omega

/-- Writing a block keeps the canonical form. -/
theorem Memory.wf_writeBytes (m : Memory) (a : Nat) (bs : List Byte) (h : Memory.wf m) :
    Memory.wf (Memory.writeBytes m a bs) := by
  obtain ⟨hp, hn⟩ := h
  refine ⟨?_, ?_⟩
  · unfold Memory.writeBytes
    rw [List.append_assoc, List.pairwise_append]
    refine ⟨hp.filter _, ?_, ?_⟩
    · rw [List.pairwise_append]
      refine ⟨Memory.pairwise_cells a bs, hp.filter _, ?_⟩
      intro c hc d hd
      have := Memory.mem_cells hc
      have := (List.mem_filter.1 hd).2
      simp at this; omega
    · intro c hc d hd
      have h1 := (List.mem_filter.1 hc).2
      simp at h1
      rcases List.mem_append.1 hd with hd | hd
      · have := Memory.mem_cells hd; omega
      · have h2 := (List.mem_filter.1 hd).2
        simp at h2; omega
  · intro c hc
    unfold Memory.writeBytes at hc
    rcases List.mem_append.1 hc with hc | hc
    · rcases List.mem_append.1 hc with hc | hc
      · exact hn c (List.mem_filter.1 hc).1
      · exact (Memory.mem_cells hc).2.2
    · exact hn c (List.mem_filter.1 hc).1

/-- Every cell after a block is written was there before or lies in the block. -/
theorem Memory.mem_writeBytes {m : Memory} {a : Nat} {bs : List Byte} {c : Host.Cell}
    (h : c ∈ Memory.writeBytes m a bs) : c ∈ m ∨ (a ≤ c.1 ∧ c.1 < a + bs.length) := by
  unfold Memory.writeBytes at h
  rcases List.mem_append.1 h with h | h
  · rcases List.mem_append.1 h with h | h
    · exact .inl (List.mem_filter.1 h).1
    · have := Memory.mem_cells h; exact .inr ⟨this.1, this.2.1⟩
  · exact .inl (List.mem_filter.1 h).1

@[simp] theorem Memory.length_readBytes (m : Memory) (a n : Nat) : (Memory.readBytes m a n).length = n := by
  simp [Memory.readBytes]

@[simp] theorem Memory.getElem_readBytes (m : Memory) (a n i : Nat) (h : i < (Memory.readBytes m a n).length) :
    (Memory.readBytes m a n)[i] = Memory.read m (a + i) := by
  simp [Memory.readBytes]

/-- Two memories that read the same in a block give the same block. -/
theorem Memory.readBytes_congr {m n : Memory} {a k : Nat}
    (h : ∀ i < k, Memory.read m (a + i) = Memory.read n (a + i)) :
    Memory.readBytes m a k = Memory.readBytes n a k := by
  apply List.map_congr_left
  intro i hi
  exact h i (List.mem_range.1 hi)

@[simp] theorem length_wordBytes (w : Word) : (wordBytes w).length = 4 := rfl

/-- The four bytes of a word, joined again. -/
theorem word_of_bytes (w : Word) :
    w.extractLsb' 24 8 ++ w.extractLsb' 16 8 ++ w.extractLsb' 8 8 ++ w.extractLsb' 0 8 = w := by
  apply BitVec.eq_of_getLsbD_eq
  intro i hi
  simp only [BitVec.getLsbD_append, BitVec.getLsbD_extractLsb']
  by_cases h1 : i < 8
  · simp [h1]
  · by_cases h2 : i < 16
    · simp [h1, show i - 8 < 8 by omega, show 8 + (i - 8) = i by omega]
    · by_cases h3 : i < 24
      · simp only [if_neg h1, if_neg (show ¬ i - 8 < 8 by omega), if_pos (show i - 8 - 8 < 8 by omega)]
        simp [show i - 8 - 8 < 8 by omega, show 16 + (i - 8 - 8) = i by omega]
      · simp only [if_neg h1, if_neg (show ¬ i - 8 < 8 by omega), if_neg (show ¬ i - 8 - 8 < 8 by omega)]
        simp [show i - 8 - 8 - 8 < 8 by omega, show 24 + (i - 8 - 8 - 8) = i by omega]

/-- A word reads as it was written. -/
theorem Memory.readWord_writeWord (m : Memory) (a : Nat) (w : Word) :
    Memory.readWord (Memory.writeWord m a w) a = w := by
  have h (i : Nat) (hi : i < 4) := Memory.read_writeBytes_inside m a (wordBytes w) i (by simpa using hi)
  have h0 := h 0 (by omega)
  rw [Nat.add_zero] at h0
  unfold Memory.readWord Memory.writeWord
  rw [h0, h 1 (by omega), h 2 (by omega), h 3 (by omega)]
  exact word_of_bytes w

/-- A word that a written block does not meet reads as before. -/
theorem Memory.readWord_writeBytes_outside (m : Memory) (a : Nat) (bs : List Byte) (b : Nat)
    (h : b + 4 ≤ a ∨ a + bs.length ≤ b) : Memory.readWord (Memory.writeBytes m a bs) b = Memory.readWord m b := by
  have k (i : Nat) (hi : i < 4) := Memory.read_writeBytes_outside m a bs (b + i) (by omega)
  have k0 := k 0 (by omega)
  rw [Nat.add_zero] at k0
  simp only [Memory.readWord, k0, k 1 (by omega), k 2 (by omega), k 3 (by omega)]

end Sys2Proof.Machine
end

