-- ==== Sys2Proof/Laws/State.lean ====
section
/-! SUPPORT. One lemma for each unit of the state and each named update of it, true by `rfl`, so that no later proof
unfolds a record update. -/

namespace Sys2Proof.Machine

/-! ## State.setResult -/

@[simp] theorem State.setResult_cfg (c : ResultCode) (s : State) : (s.setResult c).cfg = s.cfg := rfl
@[simp] theorem State.setResult_regs (c : ResultCode) (s : State) :
    (s.setResult c).regs = { s.regs with result := c.code } := rfl
@[simp] theorem State.setResult_conf (c : ResultCode) (s : State) : (s.setResult c).conf = s.conf := rfl
@[simp] theorem State.setResult_irq (c : ResultCode) (s : State) : (s.setResult c).irq = s.irq := rfl
@[simp] theorem State.setResult_nowUs (c : ResultCode) (s : State) : (s.setResult c).nowUs = s.nowUs := rfl
@[simp] theorem State.setResult_frame (c : ResultCode) (s : State) : (s.setResult c).frame = s.frame := rfl
@[simp] theorem State.setResult_rx (c : ResultCode) (s : State) : (s.setResult c).rx = s.rx := rfl
@[simp] theorem State.setResult_tx (c : ResultCode) (s : State) : (s.setResult c).tx = s.tx := rfl
@[simp] theorem State.setResult_mem (c : ResultCode) (s : State) : (s.setResult c).mem = s.mem := rfl
@[simp] theorem State.setResult_env (c : ResultCode) (s : State) : (s.setResult c).env = s.env := rfl

/-! ## State.setRes -/

@[simp] theorem State.setRes_cfg (v : Nat) (s : State) : (s.setRes v).cfg = s.cfg := rfl
@[simp] theorem State.setRes_regs (v : Nat) (s : State) :
    (s.setRes v).regs = { s.regs with resLo := lowHalf v, resHi := highHalf v } := rfl
@[simp] theorem State.setRes_conf (v : Nat) (s : State) : (s.setRes v).conf = s.conf := rfl
@[simp] theorem State.setRes_irq (v : Nat) (s : State) : (s.setRes v).irq = s.irq := rfl
@[simp] theorem State.setRes_nowUs (v : Nat) (s : State) : (s.setRes v).nowUs = s.nowUs := rfl
@[simp] theorem State.setRes_frame (v : Nat) (s : State) : (s.setRes v).frame = s.frame := rfl
@[simp] theorem State.setRes_rx (v : Nat) (s : State) : (s.setRes v).rx = s.rx := rfl
@[simp] theorem State.setRes_tx (v : Nat) (s : State) : (s.setRes v).tx = s.tx := rfl
@[simp] theorem State.setRes_mem (v : Nat) (s : State) : (s.setRes v).mem = s.mem := rfl
@[simp] theorem State.setRes_env (v : Nat) (s : State) : (s.setRes v).env = s.env := rfl

/-! ## State.setRes2 -/

@[simp] theorem State.setRes2_cfg (v : Nat) (s : State) : (s.setRes2 v).cfg = s.cfg := rfl
@[simp] theorem State.setRes2_regs (v : Nat) (s : State) :
    (s.setRes2 v).regs = { s.regs with res2Lo := lowHalf v, res2Hi := highHalf v } := rfl
@[simp] theorem State.setRes2_conf (v : Nat) (s : State) : (s.setRes2 v).conf = s.conf := rfl
@[simp] theorem State.setRes2_irq (v : Nat) (s : State) : (s.setRes2 v).irq = s.irq := rfl
@[simp] theorem State.setRes2_nowUs (v : Nat) (s : State) : (s.setRes2 v).nowUs = s.nowUs := rfl
@[simp] theorem State.setRes2_frame (v : Nat) (s : State) : (s.setRes2 v).frame = s.frame := rfl
@[simp] theorem State.setRes2_rx (v : Nat) (s : State) : (s.setRes2 v).rx = s.rx := rfl
@[simp] theorem State.setRes2_tx (v : Nat) (s : State) : (s.setRes2 v).tx = s.tx := rfl
@[simp] theorem State.setRes2_mem (v : Nat) (s : State) : (s.setRes2 v).mem = s.mem := rfl
@[simp] theorem State.setRes2_env (v : Nat) (s : State) : (s.setRes2 v).env = s.env := rfl

/-! ## State.emit -/

@[simp] theorem State.emit_cfg (e : Event) (p : Nat) (s : State) : (s.emit e p).cfg = s.cfg := rfl
@[simp] theorem State.emit_regs (e : Event) (p : Nat) (s : State) : (s.emit e p).regs = s.regs := rfl
@[simp] theorem State.emit_conf (e : Event) (p : Nat) (s : State) : (s.emit e p).conf = s.conf := rfl
@[simp] theorem State.emit_irq (e : Event) (p : Nat) (s : State) : (s.emit e p).irq = Reports.emit e p s.irq := rfl
@[simp] theorem State.emit_nowUs (e : Event) (p : Nat) (s : State) : (s.emit e p).nowUs = s.nowUs := rfl
@[simp] theorem State.emit_frame (e : Event) (p : Nat) (s : State) : (s.emit e p).frame = s.frame := rfl
@[simp] theorem State.emit_rx (e : Event) (p : Nat) (s : State) : (s.emit e p).rx = s.rx := rfl
@[simp] theorem State.emit_tx (e : Event) (p : Nat) (s : State) : (s.emit e p).tx = s.tx := rfl
@[simp] theorem State.emit_mem (e : Event) (p : Nat) (s : State) : (s.emit e p).mem = s.mem := rfl
@[simp] theorem State.emit_env (e : Event) (p : Nat) (s : State) : (s.emit e p).env = s.env := rfl

/-! ## State.writeMem -/

@[simp] theorem State.writeMem_cfg (a : Nat) (bs : List Byte) (s : State) : (s.writeMem a bs).cfg = s.cfg := rfl
@[simp] theorem State.writeMem_regs (a : Nat) (bs : List Byte) (s : State) : (s.writeMem a bs).regs = s.regs := rfl
@[simp] theorem State.writeMem_conf (a : Nat) (bs : List Byte) (s : State) : (s.writeMem a bs).conf = s.conf := rfl
@[simp] theorem State.writeMem_irq (a : Nat) (bs : List Byte) (s : State) : (s.writeMem a bs).irq = s.irq := rfl
@[simp] theorem State.writeMem_nowUs (a : Nat) (bs : List Byte) (s : State) : (s.writeMem a bs).nowUs = s.nowUs := rfl
@[simp] theorem State.writeMem_frame (a : Nat) (bs : List Byte) (s : State) : (s.writeMem a bs).frame = s.frame := rfl
@[simp] theorem State.writeMem_rx (a : Nat) (bs : List Byte) (s : State) : (s.writeMem a bs).rx = s.rx := rfl
@[simp] theorem State.writeMem_tx (a : Nat) (bs : List Byte) (s : State) : (s.writeMem a bs).tx = s.tx := rfl
@[simp] theorem State.writeMem_mem (a : Nat) (bs : List Byte) (s : State) :
    (s.writeMem a bs).mem = Memory.writeBytes s.mem a bs := rfl
@[simp] theorem State.writeMem_env (a : Nat) (bs : List Byte) (s : State) : (s.writeMem a bs).env = s.env := rfl

/-! ## State.closeSession -/

@[simp] theorem State.closeSession_cfg (s : State) : (s.closeSession).cfg = s.cfg := rfl
@[simp] theorem State.closeSession_regs (s : State) : (s.closeSession).regs = s.regs := rfl
@[simp] theorem State.closeSession_conf (s : State) : (s.closeSession).conf = s.conf := rfl
@[simp] theorem State.closeSession_irq (s : State) : (s.closeSession).irq = s.irq := rfl
@[simp] theorem State.closeSession_nowUs (s : State) : (s.closeSession).nowUs = s.nowUs := rfl
@[simp] theorem State.closeSession_frame (s : State) : (s.closeSession).frame = s.frame := rfl
@[simp] theorem State.closeSession_rx (s : State) :
    (s.closeSession).rx = { s.rx with fdState := .idle, sessBits := [] } := rfl
@[simp] theorem State.closeSession_tx (s : State) : (s.closeSession).tx = s.tx := rfl
@[simp] theorem State.closeSession_mem (s : State) : (s.closeSession).mem = s.mem := rfl
@[simp] theorem State.closeSession_env (s : State) : (s.closeSession).env = s.env := rfl

/-! ## State.busError -/

@[simp] theorem State.busError_cfg (s : State) : (s.busError).cfg = s.cfg := rfl
@[simp] theorem State.busError_regs (s : State) : (s.busError).regs = s.regs := rfl
@[simp] theorem State.busError_conf (s : State) : (s.busError).conf = s.conf := rfl
@[simp] theorem State.busError_irq (s : State) :
    (s.busError).irq = { s.irq with status := s.irq.status ||| busErrBit } := rfl
@[simp] theorem State.busError_nowUs (s : State) : (s.busError).nowUs = s.nowUs := rfl
@[simp] theorem State.busError_frame (s : State) : (s.busError).frame = s.frame := rfl
@[simp] theorem State.busError_rx (s : State) : (s.busError).rx = s.rx := rfl
@[simp] theorem State.busError_tx (s : State) : (s.busError).tx = s.tx := rfl
@[simp] theorem State.busError_mem (s : State) : (s.busError).mem = s.mem := rfl
@[simp] theorem State.busError_env (s : State) : (s.busError).env = s.env := rfl

/-! ## State.busReturn -/

@[simp] theorem State.busReturn_cfg (v : Word) (s : State) : (s.busReturn v).cfg = s.cfg := rfl
@[simp] theorem State.busReturn_regs (v : Word) (s : State) : (s.busReturn v).regs = s.regs := rfl
@[simp] theorem State.busReturn_conf (v : Word) (s : State) : (s.busReturn v).conf = s.conf := rfl
@[simp] theorem State.busReturn_irq (v : Word) (s : State) : (s.busReturn v).irq = s.irq := rfl
@[simp] theorem State.busReturn_nowUs (v : Word) (s : State) : (s.busReturn v).nowUs = s.nowUs := rfl
@[simp] theorem State.busReturn_frame (v : Word) (s : State) : (s.busReturn v).frame = s.frame := rfl
@[simp] theorem State.busReturn_rx (v : Word) (s : State) : (s.busReturn v).rx = s.rx := rfl
@[simp] theorem State.busReturn_tx (v : Word) (s : State) : (s.busReturn v).tx = s.tx := rfl
@[simp] theorem State.busReturn_mem (v : Word) (s : State) : (s.busReturn v).mem = s.mem := rfl
@[simp] theorem State.busReturn_env (v : Word) (s : State) : (s.busReturn v).env = { s.env with rdata := v } := rfl

/-! ## State.setTurn -/

@[simp] theorem State.setTurn_cfg (t : Turn) (s : State) : (s.setTurn t).cfg = s.cfg := rfl
@[simp] theorem State.setTurn_regs (t : Turn) (s : State) : (s.setTurn t).regs = s.regs := rfl
@[simp] theorem State.setTurn_conf (t : Turn) (s : State) : (s.setTurn t).conf = s.conf := rfl
@[simp] theorem State.setTurn_irq (t : Turn) (s : State) : (s.setTurn t).irq = s.irq := rfl
@[simp] theorem State.setTurn_nowUs (t : Turn) (s : State) : (s.setTurn t).nowUs = s.nowUs := rfl
@[simp] theorem State.setTurn_frame (t : Turn) (s : State) : (s.setTurn t).frame = s.frame := rfl
@[simp] theorem State.setTurn_rx (t : Turn) (s : State) : (s.setTurn t).rx = s.rx := rfl
@[simp] theorem State.setTurn_tx (t : Turn) (s : State) : (s.setTurn t).tx = s.tx := rfl
@[simp] theorem State.setTurn_mem (t : Turn) (s : State) : (s.setTurn t).mem = s.mem := rfl
@[simp] theorem State.setTurn_env (t : Turn) (s : State) : (s.setTurn t).env = { s.env with turn := t } := rfl

/-! ## waveOff -/

@[simp] theorem waveOff_cfg (s : State) : (waveOff s).cfg = s.cfg := rfl
@[simp] theorem waveOff_regs (s : State) : (waveOff s).regs = s.regs := rfl
@[simp] theorem waveOff_conf (s : State) : (waveOff s).conf = s.conf := rfl
@[simp] theorem waveOff_irq (s : State) : (waveOff s).irq = s.irq := rfl
@[simp] theorem waveOff_nowUs (s : State) : (waveOff s).nowUs = s.nowUs := rfl
@[simp] theorem waveOff_frame (s : State) : (waveOff s).frame = s.frame := rfl
@[simp] theorem waveOff_rx (s : State) : (waveOff s).rx = s.rx := rfl
@[simp] theorem waveOff_tx (s : State) : (waveOff s).tx = { s.tx with waveOn := false, waveFreq := 0 } := rfl
@[simp] theorem waveOff_mem (s : State) : (waveOff s).mem = s.mem := rfl
@[simp] theorem waveOff_env (s : State) : (waveOff s).env = s.env := rfl

/-! ## releaseLine -/

@[simp] theorem releaseLine_cfg (s : State) : (releaseLine s).cfg = s.cfg := rfl
@[simp] theorem releaseLine_regs (s : State) : (releaseLine s).regs = s.regs := rfl
@[simp] theorem releaseLine_conf (s : State) : (releaseLine s).conf = s.conf := rfl
@[simp] theorem releaseLine_irq (s : State) : (releaseLine s).irq = s.irq := rfl
@[simp] theorem releaseLine_nowUs (s : State) : (releaseLine s).nowUs = s.nowUs := rfl
@[simp] theorem releaseLine_frame (s : State) : (releaseLine s).frame = s.frame := rfl
@[simp] theorem releaseLine_rx (s : State) : (releaseLine s).rx = s.rx := rfl
@[simp] theorem releaseLine_tx (s : State) :
    (releaseLine s).tx = { s.tx with txActive := false, txItems := [], txPos := 0, txPhase := .tone } := rfl
@[simp] theorem releaseLine_mem (s : State) : (releaseLine s).mem = s.mem := rfl
@[simp] theorem releaseLine_env (s : State) : (releaseLine s).env = s.env := rfl

/-! ## startTone -/

@[simp] theorem startTone_cfg (f : Word) (s : State) : (startTone f s).cfg = s.cfg := rfl
@[simp] theorem startTone_regs (f : Word) (s : State) : (startTone f s).regs = s.regs := rfl
@[simp] theorem startTone_conf (f : Word) (s : State) : (startTone f s).conf = s.conf := rfl
@[simp] theorem startTone_irq (f : Word) (s : State) : (startTone f s).irq = s.irq := rfl
@[simp] theorem startTone_nowUs (f : Word) (s : State) : (startTone f s).nowUs = s.nowUs := rfl
@[simp] theorem startTone_frame (f : Word) (s : State) : (startTone f s).frame = s.frame := rfl
@[simp] theorem startTone_rx (f : Word) (s : State) : (startTone f s).rx = s.rx := rfl
@[simp] theorem startTone_tx (f : Word) (s : State) :
    (startTone f s).tx = { s.tx with waveOn := true, waveFreq := f, txPhase := .tone, txPhaseEnd := s.nowUs + s.tx.txBitDur } := rfl
@[simp] theorem startTone_mem (f : Word) (s : State) : (startTone f s).mem = s.mem := rfl
@[simp] theorem startTone_env (f : Word) (s : State) : (startTone f s).env = s.env := rfl

/-! ## tick -/

@[simp] theorem tick_cfg (s : State) : (tick s).cfg = s.cfg := rfl
@[simp] theorem tick_regs (s : State) : (tick s).regs = s.regs := rfl
@[simp] theorem tick_conf (s : State) : (tick s).conf = s.conf := rfl
@[simp] theorem tick_irq (s : State) : (tick s).irq = s.irq := rfl
@[simp] theorem tick_nowUs (s : State) : (tick s).nowUs = s.nowUs + 1 := rfl
@[simp] theorem tick_frame (s : State) : (tick s).frame = s.frame := rfl
@[simp] theorem tick_rx (s : State) : (tick s).rx = s.rx := rfl
@[simp] theorem tick_tx (s : State) : (tick s).tx = s.tx := rfl
@[simp] theorem tick_mem (s : State) : (tick s).mem = s.mem := rfl
@[simp] theorem tick_env (s : State) : (tick s).env = s.env.advance := rfl

/-! ## openWindow -/

@[simp] theorem openWindow_cfg (s : State) : (openWindow s).cfg = s.cfg := rfl
@[simp] theorem openWindow_regs (s : State) : (openWindow s).regs = s.regs := rfl
@[simp] theorem openWindow_conf (s : State) : (openWindow s).conf = s.conf := rfl
@[simp] theorem openWindow_irq (s : State) : (openWindow s).irq = s.irq := rfl
@[simp] theorem openWindow_nowUs (s : State) : (openWindow s).nowUs = s.nowUs := rfl
@[simp] theorem openWindow_frame (s : State) : (openWindow s).frame = s.frame := rfl
@[simp] theorem openWindow_rx (s : State) : (openWindow s).rx = { s.rx.clearAcc with winStart := s.nowUs } := rfl
@[simp] theorem openWindow_tx (s : State) : (openWindow s).tx = s.tx := rfl
@[simp] theorem openWindow_mem (s : State) : (openWindow s).mem = s.mem := rfl
@[simp] theorem openWindow_env (s : State) : (openWindow s).env = s.env := rfl

/-! ## The accumulators and the environment -/

@[simp] theorem RxEngine.clearAcc_rxEn (r : RxEngine) : r.clearAcc.rxEn = r.rxEn := rfl
@[simp] theorem RxEngine.clearAcc_latTol (r : RxEngine) : r.clearAcc.latTol = r.latTol := rfl
@[simp] theorem RxEngine.clearAcc_latGateLo (r : RxEngine) : r.clearAcc.latGateLo = r.latGateLo := rfl
@[simp] theorem RxEngine.clearAcc_latGateHi (r : RxEngine) : r.clearAcc.latGateHi = r.latGateHi := rfl
@[simp] theorem RxEngine.clearAcc_latBitDur (r : RxEngine) : r.clearAcc.latBitDur = r.latBitDur := rfl
@[simp] theorem RxEngine.clearAcc_latTimeout (r : RxEngine) : r.clearAcc.latTimeout = r.latTimeout := rfl
@[simp] theorem RxEngine.clearAcc_winStart (r : RxEngine) : r.clearAcc.winStart = r.winStart := rfl
@[simp] theorem RxEngine.clearAcc_accN (r : RxEngine) : r.clearAcc.accN = 0 := rfl
@[simp] theorem RxEngine.clearAcc_accSat (r : RxEngine) : r.clearAcc.accSat = false := rfl
@[simp] theorem RxEngine.clearAcc_accLast (r : RxEngine) : r.clearAcc.accLast = 0 := rfl
@[simp] theorem RxEngine.clearAcc_accSpan (r : RxEngine) : r.clearAcc.accSpan = 0 := rfl
@[simp] theorem RxEngine.clearAcc_fdState (r : RxEngine) : r.clearAcc.fdState = r.fdState := rfl
@[simp] theorem RxEngine.clearAcc_sessBits (r : RxEngine) : r.clearAcc.sessBits = r.sessBits := rfl
@[simp] theorem RxEngine.clearAcc_sessStart (r : RxEngine) : r.clearAcc.sessStart = r.sessStart := rfl

/-- A tick gives the engines their turn. -/
@[simp] theorem Env.advance_turn (e : Env) : e.advance.turn = .tx := by
  unfold Env.advance; split <;> (try split) <;> rfl

/-- A tick returns nothing on the bus. -/
@[simp] theorem Env.advance_rdata (e : Env) : e.advance.rdata = e.rdata := by
  unfold Env.advance; split <;> (try split) <;> rfl

/-- Every command ends in a next state: `ok`. -/
@[simp] theorem State.ok_eq (s : State) : s.ok = .next (s.setResult .ok) := rfl
/-- Every command ends in a next state: `fail`. -/
@[simp] theorem State.fail_eq (c : ResultCode) (s : State) : s.fail c = .next (s.setResult c) := rfl

end Sys2Proof.Machine
end

