-- ==== Sys2Proof/Laws/Ops.lean ====
section
/-! SUPPORT. What the shared operations do: result pairs, events, and the bits of bytes. -/

namespace Sys2Proof.Machine

/-! ## 64-bit quantities -/

/-- The two halves of a quantity below 2^64, joined. -/
theorem join64_halves (v : Nat) (h : v < 2 ^ 64) : join64 (highHalf v) (lowHalf v) = v := by
  unfold join64 highHalf lowHalf
  simp only [BitVec.toNat_ofNat]
  omega

/-- A quantity below 2^32 has a high half of 0. -/
theorem highHalf_small (v : Nat) (h : v < 2 ^ 32) : highHalf v = 0 := by
  unfold highHalf
  rw [Nat.div_eq_of_lt h]
  rfl

/-- What a command with one result delivers in `RES`. -/
theorem res_setRes (v : Nat) (s : State) (h : v < 2 ^ 64) : (s.setRes v).res = v := join64_halves v h

/-- What a command with two results delivers in `RES` and `RES2`. -/
theorem res_setRes_setRes2 (v w : Nat) (s : State) (hv : v < 2 ^ 64) (hw : w < 2 ^ 64) :
    ((s.setRes v).setRes2 w).res = v ∧ ((s.setRes v).setRes2 w).res2 = w := ⟨join64_halves v hv, join64_halves w hw⟩

@[simp] theorem res_setResult (c : ResultCode) (s : State) : (s.setResult c).res = s.res := rfl
@[simp] theorem res2_setResult (c : ResultCode) (s : State) : (s.setResult c).res2 = s.res2 := rfl

/-! ## Events -/

@[simp] theorem Reports.emit_enable (e : Event) (p : Nat) (r : Reports) : (Reports.emit e p r).enable = r.enable := by
  unfold Reports.emit; split <;> rfl

/-- The FIFO after an event: with room, the word is the last; with none, nothing is queued. -/
theorem Reports.emit_evq (e : Event) (p : Nat) (r : Reports) :
    (Reports.emit e p r).evq = if r.evq.length < evtDepth then r.evq ++ [eventWord e p] else r.evq := by
  unfold Reports.emit; split <;> rfl

/-- The status bits after an event. -/
theorem Reports.emit_status (e : Event) (p : Nat) (r : Reports) :
    (Reports.emit e p r).status =
      if r.evq.length < evtDepth then r.status ||| irqBit (e.code - 1)
      else r.status ||| irqBit (e.code - 1) ||| evtOvfBit := by
  unfold Reports.emit; split <;> rfl

theorem Event.code_range (e : Event) : 1 ≤ e.code ∧ e.code ≤ 8 := by cases e <;> decide

/-- The code field of an event word. -/
theorem eventWord_code (e : Event) (p : Nat) : ((eventWord e p).extractLsb' 0 8).toNat = e.code := by
  have h : (eventWord e p).extractLsb' 0 8 = BitVec.ofNat 8 e.code := by
    apply BitVec.eq_of_getLsbD_eq
    intro i hi
    rw [BitVec.getLsbD_extractLsb', eventWord, Nat.zero_add, BitVec.getLsbD_append]
    simp [hi]
  rw [h, BitVec.toNat_ofNat, Nat.mod_eq_of_lt]
  have := e.code_range
  omega

/-- An event keeps the FIFO within its depth. -/
theorem Reports.emit_length (e : Event) (p : Nat) (r : Reports) (h : r.evq.length ≤ evtDepth) :
    (Reports.emit e p r).evq.length ≤ evtDepth := by
  rw [Reports.emit_evq]
  split
  · simp only [List.length_append, List.length_singleton]; omega
  · exact h

/-- An event queues only words with a code of 1..8. -/
theorem Reports.emit_codes (e : Event) (p : Nat) (r : Reports)
    (h : ∀ w ∈ r.evq, 1 ≤ (w.extractLsb' 0 8).toNat ∧ (w.extractLsb' 0 8).toNat ≤ 8) :
    ∀ w ∈ (Reports.emit e p r).evq, 1 ≤ (w.extractLsb' 0 8).toNat ∧ (w.extractLsb' 0 8).toNat ≤ 8 := by
  intro w hw
  rw [Reports.emit_evq] at hw
  split at hw
  · rcases List.mem_append.1 hw with hw | hw
    · exact h w hw
    · rw [List.mem_singleton.1 hw, eventWord_code]; exact e.code_range
  · exact h w hw

/-- Reports only added to: the FIFO's events stay, those behind them have codes of `lo..hi`, a bit that was set stays
set, and a bit newly set is one of these codes' or `EVT_OVF`. -/
def Reports.Grows (lo hi : Nat) (r r' : Reports) : Prop :=
  (∃ ws : List Word, r'.evq = r.evq ++ ws ∧
    ∀ w ∈ ws, lo ≤ (w.extractLsb' 0 8).toNat ∧ (w.extractLsb' 0 8).toNat ≤ hi) ∧
  ∀ k, (r.status.getLsbD k = true → r'.status.getLsbD k = true) ∧
    (r.status.getLsbD k = false → r'.status.getLsbD k = true → (lo ≤ k + 1 ∧ k + 1 ≤ hi) ∨ k = 8)

theorem Reports.Grows.refl (lo hi : Nat) (r : Reports) : Reports.Grows lo hi r r :=
  ⟨⟨[], by simp⟩, fun k => ⟨id, fun h h' => by simp [h] at h'⟩⟩

theorem Reports.Grows.trans {lo hi : Nat} {r r' r'' : Reports} (h : Reports.Grows lo hi r r')
    (h' : Reports.Grows lo hi r' r'') : Reports.Grows lo hi r r'' := by
  obtain ⟨⟨ws, he, hw⟩, hb⟩ := h
  obtain ⟨⟨ws', he', hw'⟩, hb'⟩ := h'
  refine ⟨⟨ws ++ ws', by rw [he', he, List.append_assoc], fun w hm => ?_⟩,
    fun k => ⟨fun hk => (hb' k).1 ((hb k).1 hk), fun h0 h1 => ?_⟩⟩
  · rcases List.mem_append.1 hm with hm | hm
    · exact hw w hm
    · exact hw' w hm
  · rcases hm : r'.status.getLsbD k with _ | _
    · exact (hb' k).2 hm h1
    · exact (hb k).2 h0 hm

/-- One bit of the mask of a bit. -/
theorem getLsbD_irqBit (b k : Nat) : (irqBit b).getLsbD k = (decide (k < 10) && k == b) := by
  unfold irqBit
  rw [BitVec.getLsbD_shiftLeft, BitVec.getLsbD_one]
  by_cases h : k = b
  · subst h; simp
  · rw [show (k == b) = false by simpa using h]
    simp; omega

/-- The status bits after an event, one by one. -/
theorem Reports.emit_bit (e : Event) (p : Nat) (r : Reports) (k : Nat) :
    (Reports.emit e p r).status.getLsbD k =
      (r.status.getLsbD k || k == e.code - 1 || (decide (evtDepth ≤ r.evq.length) && k == 8)) := by
  rw [Reports.emit_status]
  have h8 : ∀ b : Nat, b < 10 → (decide (k < 10) && k == b) = (k == b) := by
    intro b hb
    by_cases h : k = b <;> simp [h]
    omega
  have := e.code_range
  split
  · rw [BitVec.getLsbD_or, getLsbD_irqBit, h8 _ (by omega), decide_eq_false (by omega)]; simp
  · rw [BitVec.getLsbD_or, BitVec.getLsbD_or, evtOvfBit, getLsbD_irqBit, getLsbD_irqBit, h8 _ (by omega),
      h8 _ (by omega), decide_eq_true (by omega)]
    simp

/-- An event only adds to the reports. -/
theorem Reports.emit_grows {lo hi : Nat} (e : Event) (p : Nat) (r : Reports) (hlo : lo ≤ e.code) (hhi : e.code ≤ hi) :
    Reports.Grows lo hi r (Reports.emit e p r) := by
  have hc := e.code_range
  refine ⟨?_, fun k => ⟨fun h => by rw [Reports.emit_bit, h]; rfl, fun h0 h1 => ?_⟩⟩
  · rw [Reports.emit_evq]
    split
    · refine ⟨_, rfl, fun w hw => ?_⟩
      rw [List.mem_singleton.1 hw, eventWord_code]
      exact ⟨hlo, hhi⟩
    · exact ⟨[], by simp⟩
  · rw [Reports.emit_bit, h0] at h1
    simp at h1
    omega

/-! ## Bits and bytes -/

@[simp] theorem length_byteBits (b : Byte) : (byteBits b).length = 8 := rfl

theorem getElem?_byteBits (b : Byte) (k : Nat) (h : k < 8) : (byteBits b)[k]? = some (b.getLsbD (7 - k)) := by
  unfold byteBits
  simp [h]

/-- The element of a list of blocks of one length. -/
theorem getElem?_flatMap_blocks {α β : Type} (f : α → List β) (n : Nat) (hf : ∀ a, (f a).length = n) (l : List α)
    (j k : Nat) (hk : k < n) : (l.flatMap f)[n * j + k]? = l[j]?.bind (fun a => (f a)[k]?) := by
  induction l generalizing j with
  | nil => simp
  | cons a l ih =>
    rw [List.flatMap_cons]
    cases j with
    | zero => rw [List.getElem?_append_left (by simp [hf, hk])]; simp
    | succ j =>
      rw [List.getElem?_append_right (by rw [hf]; nlinarith), hf, show n * (j + 1) + k - n = n * j + k by
        rw [Nat.mul_succ]; omega, ih]
      simp

theorem length_flatMap_blocks {α β : Type} (f : α → List β) (n : Nat) (hf : ∀ a, (f a).length = n) (l : List α) :
    (l.flatMap f).length = n * l.length := by
  induction l with
  | nil => simp
  | cons a l ih => rw [List.flatMap_cons, List.length_append, ih, hf, List.length_cons, Nat.mul_succ]; omega

/-- A byte is the sum of its bits' weights, most significant first. -/
theorem getLsbD_weights : ∀ (b0 b1 b2 b3 b4 b5 b6 b7 : Bool) (k : Fin 8),
    (BitVec.ofNat 8 ((List.range 8).map
      (fun k => if [b0, b1, b2, b3, b4, b5, b6, b7].getD k false then 2 ^ (7 - k) else 0)).sum).getLsbD (7 - k.1) =
      [b0, b1, b2, b3, b4, b5, b6, b7].getD k.1 false := by
  decide +kernel

/-- The bits of a packed byte. -/
theorem getLsbD_bitsByte (l : List Bool) (k : Nat) (h : k < 8) :
    (bitsByte l).getLsbD (7 - k) = l.getD k false := by
  have hl : ∀ i < 8, [l.getD 0 false, l.getD 1 false, l.getD 2 false, l.getD 3 false, l.getD 4 false, l.getD 5 false,
      l.getD 6 false, l.getD 7 false].getD i false = l.getD i false := by
    intro i hi
    have : i = 0 ∨ i = 1 ∨ i = 2 ∨ i = 3 ∨ i = 4 ∨ i = 5 ∨ i = 6 ∨ i = 7 := by omega
    rcases this with rfl | rfl | rfl | rfl | rfl | rfl | rfl | rfl <;> rfl
  have key := getLsbD_weights (l.getD 0 false) (l.getD 1 false) (l.getD 2 false) (l.getD 3 false) (l.getD 4 false)
    (l.getD 5 false) (l.getD 6 false) (l.getD 7 false) ⟨k, h⟩
  rw [hl k h] at key
  rw [← key, bitsByte]
  rfl

@[simp] theorem length_packBytes (m : Nat) (bits : List Bool) : (packBytes m bits).length = m := by
  induction m generalizing bits with
  | zero => rfl
  | succ m ih => simp [packBytes, ih]

/-- The byte of a packed sequence at an index is the byte of its eight bits. -/
theorem getElem?_packBytes (m : Nat) (bits : List Bool) (i : Nat) (h : i < m) :
    (packBytes m bits)[i]? = some (bitsByte ((bits.drop (8 * i)).take 8)) := by
  induction m generalizing bits i with
  | zero => omega
  | succ m ih =>
    cases i with
    | zero => simp [packBytes]
    | succ i =>
      simp only [packBytes, List.getElem?_cons_succ]
      rw [ih _ i (by omega), List.drop_drop, show 8 + 8 * i = 8 * (i + 1) by omega]

/-- The bit of a packed sequence. -/
theorem getD_take_drop (bits : List Bool) (i k : Nat) (h : k < 8) :
    ((bits.drop (8 * i)).take 8).getD k false = bits.getD (8 * i + k) false := by
  simp only [List.getD_eq_getElem?_getD, List.getElem?_take, h, if_true, List.getElem?_drop]

/-- A byte packed from its own bits. -/
theorem bitsByte_byteBits (b : Byte) : bitsByte (byteBits b) = b := by
  apply BitVec.eq_of_getLsbD_eq
  intro i hi
  have := getLsbD_bitsByte (byteBits b) (7 - i) (by omega)
  rw [show 7 - (7 - i) = i by omega] at this
  rw [this, List.getD_eq_getElem?_getD, getElem?_byteBits b (7 - i) (by omega), show 7 - (7 - i) = i by omega]
  rfl

end Sys2Proof.Machine
end

