-- ==== Sys2Proof/Laws/PerInstr.lean ====
section
/-! SUPPORT. What is said of every command as syntax, one lemma per command. -/

namespace Sys2Proof.Laws

/-- The row of the opcode table a command belongs to: its match and its mask (spec/opcode_table.json, R92, R93). -/
def TableRow.row : Instr → Word × Word
  | .nop => (0x00000000, 0xFFFFFFFF)
  | .est _ _ => (0x00000001, 0x0000FEFF)
  | .s2f _ => (0x00000002, 0xFFFF00FF)
  | .f2s => (0x00000003, 0xFFFFFFFF)
  | .b2bits _ => (0x00000004, 0x0000FFFF)
  | .bits2b _ => (0x00000005, 0x0000FFFF)
  | .txFrame _ => (0x00000006, 0x0000FFFF)
  | .txBits _ => (0x00000007, 0x0000FFFF)
  | .txAbort => (0x00000008, 0xFFFFFFFF)
  | .rxStart => (0x00000009, 0xFFFFFFFF)
  | .rxStop => (0x0000000A, 0xFFFFFFFF)
  | .evtPop => (0x0000000B, 0xFFFFFFFF)
  | .softReset => (0x0000000C, 0xFFFFFFFF)

/-- The word of the command fits its row, whatever its operands. -/
def TableRow.Statement (i : Instr) : Prop := encode i &&& (TableRow.row i).2 = (TableRow.row i).1

/-- A built word fits a row when each of its fields does. -/
theorem TableRow.of_fields {o a : BitVec 8} {n : Nat} {mask val : Word} (h1 : o &&& fieldOpc mask = fieldOpc val)
    (h2 : a &&& fieldArg8 mask = fieldArg8 val) (h3 : BitVec.ofNat 16 n &&& fieldLen16 mask = fieldLen16 val) :
    commandWord o a n &&& mask = val := by
  rw [and_eq_iff_fields]
  simpa using ⟨h1, h2, h3⟩

/-- A field that the mask leaves free fits whatever it holds. -/
theorem TableRow.free {w : Nat} {m v : BitVec w} (hm : m = 0) (hv : v = 0) (x : BitVec w) : x &&& m = v := by
  subst hm hv
  simp

theorem TableRow.nop : TableRow.Statement .nop := by unfold TableRow.Statement; decide
theorem TableRow.est (g : Bool) (n : Nat) : TableRow.Statement (.est g n) :=
  TableRow.of_fields (mask := 0x0000FEFF) (val := 0x00000001) (by decide) (by cases g <;> decide)
    (TableRow.free (by decide) (by decide) _)
theorem TableRow.s2f (c : Byte) : TableRow.Statement (.s2f c) :=
  TableRow.of_fields (mask := 0xFFFF00FF) (val := 0x00000002) (by decide) (TableRow.free (by decide) (by decide) _)
    (by decide)
theorem TableRow.f2s : TableRow.Statement .f2s := by unfold TableRow.Statement; decide
theorem TableRow.b2bits (l : Nat) : TableRow.Statement (.b2bits l) :=
  TableRow.of_fields (mask := 0x0000FFFF) (val := 0x00000004) (by decide) (by decide)
    (TableRow.free (by decide) (by decide) _)
theorem TableRow.bits2b (n : Nat) : TableRow.Statement (.bits2b n) :=
  TableRow.of_fields (mask := 0x0000FFFF) (val := 0x00000005) (by decide) (by decide)
    (TableRow.free (by decide) (by decide) _)
theorem TableRow.txFrame (l : Nat) : TableRow.Statement (.txFrame l) :=
  TableRow.of_fields (mask := 0x0000FFFF) (val := 0x00000006) (by decide) (by decide)
    (TableRow.free (by decide) (by decide) _)
theorem TableRow.txBits (n : Nat) : TableRow.Statement (.txBits n) :=
  TableRow.of_fields (mask := 0x0000FFFF) (val := 0x00000007) (by decide) (by decide)
    (TableRow.free (by decide) (by decide) _)
theorem TableRow.txAbort : TableRow.Statement .txAbort := by unfold TableRow.Statement; decide
theorem TableRow.rxStart : TableRow.Statement .rxStart := by unfold TableRow.Statement; decide
theorem TableRow.rxStop : TableRow.Statement .rxStop := by unfold TableRow.Statement; decide
theorem TableRow.evtPop : TableRow.Statement .evtPop := by unfold TableRow.Statement; decide
theorem TableRow.softReset : TableRow.Statement .softReset := by unfold TableRow.Statement; decide

end Sys2Proof.Laws
end

