-- ==== Sys2Proof/Laws/Units.lean ====
section
/-! SUPPORT. The units' own operations: the codec's scan, the estimator's span, the item lists and
`StartNext`, and what each command leaves alone. -/

namespace Sys2Proof.Machine

/-! ## The codec's scan -/

/-- The scan finds the first matching index. -/
theorem freqToSym_of_first {cfg : Config} {v : Freq} {tol i : Nat} (hi : i < 67)
    (hm : isMatch v (cfg.freqAt i) tol = true) (hf : ∀ j < i, isMatch v (cfg.freqAt j) tol = false) :
    freqToSym cfg v tol = some (codeAt i, i) := by
  unfold freqToSym
  have : (List.range nsym).find? (fun i => isMatch v (cfg.freqAt i) tol) = some i := by
    rw [List.find?_range_eq_some]
    exact ⟨hm, List.mem_range.2 hi, fun j hj => by simp [hf j hj]⟩
  rw [this]
  rfl

/-- The scan finds nothing where nothing matches. -/
theorem freqToSym_of_none {cfg : Config} {v : Freq} {tol : Nat}
    (h : ∀ i < 67, isMatch v (cfg.freqAt i) tol = false) : freqToSym cfg v tol = none := by
  unfold freqToSym
  have : (List.range nsym).find? (fun i => isMatch v (cfg.freqAt i) tol) = none := by
    rw [List.find?_eq_none]
    intro i hi
    simp [h i (List.mem_range.1 hi)]
  rw [this]
  rfl

/-! ## Bytes and bit characters -/

@[simp] theorem length_txBytes (s : State) (n : Nat) : (s.txBytes n).length = n := by simp [State.txBytes]

/-- A character or byte of `TXBUF`, as a command reads it. -/
theorem getElem?_txBytes (s : State) (n j : Nat) (h : j < n) :
    (s.txBytes n)[j]? = some (Memory.read s.mem (txbufBase + j)) := by
  simp [State.txBytes, Memory.readBytes, h]

@[simp] theorem length_bytesToChars (bs : List Byte) : (bytesToChars bs).length = 8 * bs.length :=
  length_flatMap_blocks _ 8 (fun b => by simp) bs

/-- The bit character of each bit of each byte. -/
theorem getElem?_bytesToChars (bs : List Byte) (j k : Nat) (hk : k < 8) :
    (bytesToChars bs)[8 * j + k]? = bs[j]?.map (fun b => bitChar (b.getLsbD (7 - k))) := by
  unfold bytesToChars
  rw [getElem?_flatMap_blocks _ 8 (fun b => by simp) _ _ _ hk]
  cases bs[j]? with
  | none => rfl
  | some b => simp [getElem?_byteBits _ _ hk]

/-- The characters that are no bit characters (R97). -/
theorem charBit?_isNone : ∀ c : Byte, (charBit? c).isNone = true ↔ c ≠ 0x30 ∧ c ≠ 0x31 := by decide +kernel

/-- The value of eight bits, most significant first. -/
theorem toNat_bitsByte (l : List Bool) :
    (bitsByte l).toNat = ∑ k ∈ Finset.range 8, (l.getD k false).toNat * 2 ^ (7 - k) := by
  have key : ∀ b0 b1 b2 b3 b4 b5 b6 b7 : Bool, (bitsByte [b0, b1, b2, b3, b4, b5, b6, b7]).toNat =
      b0.toNat * 128 + b1.toNat * 64 + b2.toNat * 32 + b3.toNat * 16 + b4.toNat * 8 + b5.toNat * 4 + b6.toNat * 2 +
        b7.toNat := by decide
  have h : bitsByte l = bitsByte [l.getD 0 false, l.getD 1 false, l.getD 2 false, l.getD 3 false, l.getD 4 false,
    l.getD 5 false, l.getD 6 false, l.getD 7 false] := rfl
  rw [h, key]
  simp [Finset.sum_range_succ]

/-! ## The estimator -/

/-- The span as a sum over indices. -/
theorem span_eq_sum (ts : List Word) :
    span ts = ∑ i ∈ Finset.range (ts.length - 1), (ts.getD (i + 1) 0 - ts.getD i 0).toNat := by
  cases ts with
  | nil => rfl
  | cons t ts =>
    simp only [span, List.length_cons, Nat.add_sub_cancel]
    induction ts generalizing t with
    | nil => rfl
    | cons u us ih =>
      rw [spanFrom, List.length_cons, Finset.sum_range_succ', ih u, Nat.add_comm]
      rfl

/-- A span of `n` timestamps is at most `n - 1` intervals below 2^32. -/
theorem span_le (ts : List Word) : span ts ≤ (ts.length - 1) * (2 ^ 32 - 1) := by
  rw [span_eq_sum]
  refine Nat.le_trans (Finset.sum_le_card_nsmul _ _ (2 ^ 32 - 1) ?_) ?_
  · intro i _
    have := (ts.getD (i + 1) 0 - ts.getD i 0).isLt
    omega
  · simp

/-! ## The transmit sequencer -/

/-- A tone at the head of the rest of the list starts. -/
@[simp] theorem startFrom_tone (f : Word) (rest : List TxItem) (s : State) :
    startFrom (.tone f :: rest) s = startTone f s := rfl

/-- What `StartNext` does to the units it does not own: nothing. -/
theorem startFrom_frame (items : List TxItem) (s : State) :
    (startFrom items s).cfg = s.cfg ∧ (startFrom items s).regs = s.regs ∧ (startFrom items s).conf = s.conf ∧
      (startFrom items s).nowUs = s.nowUs ∧ (startFrom items s).frame = s.frame ∧ (startFrom items s).rx = s.rx ∧
      (startFrom items s).mem = s.mem ∧ (startFrom items s).env = s.env ∧
      (startFrom items s).irq.enable = s.irq.enable := by
  induction items generalizing s with
  | nil => simp [startFrom]
  | cons i items ih =>
    cases i with
    | tone f => simp
    | skip j =>
      rw [startFrom]
      have := ih { s.emit .txSkip j with tx := { s.tx with txPos := s.tx.txPos + 1 } }
      simpa using this

/-- What `StartNext` does to the TX engine and the reports, once: it passes over the skips at the head, each reported,
and then starts the tone that follows, or ends the transmission if none does. -/
theorem startFrom_cases (items : List TxItem) (s : State) :
    ∃ (js : List Nat) (rest : List TxItem), items = js.map TxItem.skip ++ rest ∧
      ((∃ f rest', rest = TxItem.tone f :: rest' ∧
          startFrom items s = { s with
            tx := { s.tx with
              txPos := s.tx.txPos + js.length, waveOn := true, waveFreq := f, txPhase := .tone
              txPhaseEnd := s.nowUs + s.tx.txBitDur }
            irq := js.foldl (fun r j => Reports.emit .txSkip j r) s.irq }) ∨
       (rest = [] ∧
          startFrom items s = { s with
            tx := { s.tx with txActive := false, txItems := [], txPos := 0, txPhase := .tone }
            irq := Reports.emit .txDone s.tx.txDoneN.toNat
              (js.foldl (fun r j => Reports.emit .txSkip j r) s.irq) })) := by
  induction items generalizing s with
  | nil => exact ⟨[], [], rfl, .inr ⟨rfl, rfl⟩⟩
  | cons i items ih =>
    cases i with
    | tone f => exact ⟨[], _, rfl, .inl ⟨f, items, rfl, rfl⟩⟩
    | skip j =>
      obtain ⟨js, rest, rfl, h⟩ := ih { s.emit .txSkip j with tx := { s.tx with txPos := s.tx.txPos + 1 } }
      refine ⟨j :: js, rest, rfl, ?_⟩
      rcases h with ⟨f, rest', hr, h⟩ | ⟨hr, h⟩
      · refine .inl ⟨f, rest', hr, ?_⟩
        rw [startFrom, h]
        simp [State.emit, Nat.add_assoc, Nat.add_comm 1]
      · refine .inr ⟨hr, ?_⟩
        rw [startFrom, h]
        simp [State.emit]

/-- `StartNext` adds only TX_DONE and TX_SKIP to the reports (R187). -/
theorem startFrom_grows (items : List TxItem) (s : State) : Reports.Grows 6 7 s.irq (startFrom items s).irq := by
  induction items generalizing s with
  | nil => exact Reports.emit_grows .txDone _ _ (by decide) (by decide)
  | cons i items ih =>
    cases i with
    | tone f => exact Reports.Grows.refl _ _ _
    | skip j => exact (Reports.emit_grows .txSkip j s.irq (by decide) (by decide)).trans (ih _)

/-- `StartNext` on a list that begins with skips. -/
theorem startFrom_skips (js : List Nat) (rest : List TxItem) (s : State) :
    startFrom (js.map TxItem.skip ++ rest) s = startFrom rest { s with
      tx := { s.tx with txPos := s.tx.txPos + js.length }
      irq := js.foldl (fun r j => Reports.emit .txSkip j r) s.irq } := by
  induction js generalizing s with
  | nil => rfl
  | cons j js ih =>
    rw [List.map_cons, List.cons_append, startFrom, ih]
    simp [State.emit, Nat.add_assoc, Nat.add_comm 1]

@[simp] theorem length_bitItemsFrom (cfg : Config) (j : Nat) (cs : List Byte) :
    (bitItemsFrom cfg j cs).length = cs.length := by
  induction cs generalizing j with
  | nil => rfl
  | cons c cs ih => simp [bitItemsFrom, ih]

/-- The items of a frame: START, eight for each byte, STOP (R181). -/
@[simp] theorem length_itemsFrame (cfg : Config) (p : List Byte) : (itemsFrame cfg p).length = 2 + 8 * p.length := by
  simp only [itemsFrame, List.length_append, List.length_map, length_flatMap_blocks _ 8 length_byteBits,
    List.length_singleton]
  omega

/-- The items of a bit string: START, one for each character, STOP (R182). -/
@[simp] theorem length_itemsBits (cfg : Config) (cs : List Byte) : (itemsBits cfg cs).length = 2 + cs.length := by
  simp only [itemsBits, List.length_append, length_bitItemsFrom, List.length_singleton]
  omega

/-- The item of each character. -/
theorem getElem?_bitItemsFrom (cfg : Config) (j : Nat) (cs : List Byte) (i : Nat) :
    (bitItemsFrom cfg j cs)[i]? = cs[i]?.map (bitItem cfg (j + i)) := by
  induction cs generalizing j i with
  | nil => simp [bitItemsFrom]
  | cons c cs ih =>
    cases i with
    | zero => simp [bitItemsFrom]
    | succ i => simp only [bitItemsFrom, List.getElem?_cons_succ, ih]; congr 2; omega

/-- An accepted transmission whose list begins with a tone: the lock is held and that tone is on the port. -/
theorem beginTransmission_tone (f : Word) (rest : List TxItem) (s : State) :
    beginTransmission (.tone f :: rest) s = { s with tx := {
      txActive := true, txItems := .tone f :: rest, txPos := 0, txPhase := .tone
      txPhaseEnd := s.nowUs + s.conf.bitDurUs, txBitDur := s.conf.bitDurUs, txDoneN := 0, waveOn := true
      waveFreq := f } } := rfl

end Sys2Proof.Machine
end

