-- ==== Sys2Proof/Laws/Step.lean ====
section
/-! SUPPORT. What a command, a host access, an engine step and a step of the machine can do, each said once. -/

namespace Sys2Proof.Machine

/-! ## Commands and accesses -/

/-- What no command changes: the configuration, the clock, the environment. -/
theorem exec_frame (i : Instr) (s : State) :
    ∃ t, exec i s = .next t ∧ t.cfg = s.cfg ∧ t.nowUs = s.nowUs ∧ t.env = s.env := by
  cases i <;> simp only [exec, execNop, execEst, execS2f, execF2s, execB2bits, execBits2b, execTxFrame, execTxBits,
    execTxAbort, execRxStart, execRxStop, execEvtPop, execSoftReset]
  all_goals repeat' split
  all_goals simp only [State.ok, State.fail]
  all_goals refine ⟨_, rfl, ?_⟩
  all_goals simp [beginTransmission, startNext, startFrom_frame, releaseLine, waveOff, State.powerOn]

/-- The same of the command of any word. -/
theorem runCommand_frame (w : Word) (s : State) :
    ∃ t, runCommand w s = .next t ∧ t.cfg = s.cfg ∧ t.nowUs = s.nowUs ∧ t.env = s.env := by
  unfold runCommand
  split
  · exact exec_frame _ _
  · exact ⟨_, rfl, rfl, rfl, rfl⟩

/-- The only commands that touch the RX engine (R150, R151, R203). -/
theorem exec_rx (i : Instr) (s t : State) (h : exec i s = .next t) :
    (i = .rxStart ∨ i = .rxStop ∨ i = .softReset) ∨ t.rx = s.rx := by
  cases i <;> first | (left; simp; done) | skip
  all_goals right
  all_goals simp only [exec, execNop, execEst, execS2f, execF2s, execB2bits, execBits2b, execTxFrame, execTxBits,
    execTxAbort, execEvtPop] at h
  all_goals repeat' split at h
  all_goals simp only [State.ok, State.fail] at h
  all_goals cases h
  all_goals simp [beginTransmission, startNext, startFrom_frame, releaseLine, waveOff]

/-- The only command that touches the frame registers (R37, R203). -/
theorem exec_frameRegs (i : Instr) (s t : State) (h : exec i s = .next t) :
    i = .softReset ∨ t.frame = s.frame := by
  cases i <;> first | (left; simp; done) | skip
  all_goals right
  all_goals simp only [exec, execNop, execEst, execS2f, execF2s, execB2bits, execBits2b, execTxFrame, execTxBits,
    execTxAbort, execEvtPop, execRxStart, execRxStop] at h
  all_goals repeat' split at h
  all_goals simp only [State.ok, State.fail] at h
  all_goals cases h
  all_goals simp [beginTransmission, startNext, startFrom_frame, releaseLine, waveOff]

/-- A register stands at its own offset only. -/
theorem targetAt_reg {n : Nat} {r : Reg} (h : targetAt n = .reg r) : n = r.offset := by
  have key : ∀ n < 0x70, (regAt? n).all (fun r => r.offset == n) = true := by decide
  unfold targetAt at h
  split at h
  · rename_i hn
    have := key n hn
    split at h
    · rename_i hx
      cases h
      rw [hx] at this
      exact (beq_iff_eq.1 this).symm
    · cases h
  · repeat' split at h
    all_goals cases h

/-- The offset of `CMD` is the only one whose write runs a command. -/
theorem targetAt_cmd (n : Nat) : targetAt n = .reg .cmd ↔ n = 0x00C :=
  ⟨targetAt_reg, fun h => by subst h; rfl⟩

/-- What no host access changes: the configuration, the clock, and the environment but for the value returned. -/
theorem hostAccess_frame (a : HostAccess) (s : State) :
    ∃ t, hostAccess a s = .next t ∧ t.cfg = s.cfg ∧ t.nowUs = s.nowUs ∧
      t.env = { s.env with rdata := t.env.rdata } := by
  cases a with
  | read off sz => simp only [hostAccess]; split <;> exact ⟨_, rfl, rfl, rfl, rfl⟩
  | write off sz w =>
    simp only [hostAccess]
    split
    · unfold writeTarget
      split
      · unfold writeReg
        split
        · obtain ⟨t, h, h1, h2, h3⟩ := runCommand_frame w s
          exact ⟨t, h, h1, h2, by rw [h3]⟩
        all_goals exact ⟨_, rfl, rfl, rfl, rfl⟩
      all_goals exact ⟨_, rfl, rfl, rfl, rfl⟩
    · exact ⟨_, rfl, rfl, rfl, rfl⟩

/-- What each command does to the reports. -/
theorem exec_reports (i : Instr) (s t : State) (h : exec i s = .next t) :
    (i = .txAbort ∧ Reports.Grows 8 8 s.irq t.irq) ∨ (i = .evtPop ∧ t.irq = { s.irq with evq := s.irq.evq.tail }) ∨
      (i = .softReset ∧ t.irq = Reports.reset) ∨ t.irq = s.irq := by
  cases i with
  | txAbort =>
    simp only [exec, execTxAbort] at h
    split at h <;> cases h
    · exact .inl ⟨rfl, Reports.emit_grows .txAborted _ _ (by decide) (by decide)⟩
    · exact .inr (.inr (.inr rfl))
  | evtPop =>
    simp only [exec, execEvtPop] at h
    split at h <;> cases h
    · exact .inr (.inr (.inr rfl))
    · exact .inr (.inl ⟨rfl, by simp [*]⟩)
  | softReset => cases h; exact .inr (.inr (.inl ⟨rfl, rfl⟩))
  | txFrame l =>
    simp only [exec, execTxFrame, itemsFrame, toneOf, List.cons_append, List.nil_append, beginTransmission_tone] at h
    repeat' split at h
    all_goals cases h; exact .inr (.inr (.inr rfl))
  | txBits l =>
    simp only [exec, execTxBits, itemsBits, toneOf, List.cons_append, List.nil_append, beginTransmission_tone] at h
    repeat' split at h
    all_goals cases h; exact .inr (.inr (.inr rfl))
  | _ =>
    simp only [exec, execNop, execEst, execS2f, execF2s, execB2bits, execBits2b, execRxStart, execRxStop] at h
    repeat' split at h
    all_goals cases h; exact .inr (.inr (.inr rfl))

/-- What a host access does to the engines and the reports: it runs a command; or it touches no engine, and clears bits
of `IRQ_STATUS`, or touches neither `IRQ_STATUS` nor the FIFO, or, as an illegal access, sets `BUS_ERR`. -/
theorem hostAccess_cases (a : HostAccess) (s t : State) (h : hostAccess a s = .next t) :
    (∃ w i, a = .write 0x00C .word w ∧ decode w = .ok i ∧ exec i s = .next t) ∨
    (t.rx = s.rx ∧ t.tx = s.tx ∧ t.frame = s.frame) ∧
    ((∃ w, a = .write 0x048 .word w ∧ t.irq = { s.irq with status := s.irq.status &&& ~~~(w.truncate 10) }) ∨
    (t.irq.evq = s.irq.evq ∧ t.irq.status = s.irq.status) ∨
    (t.irq = { s.irq with status := s.irq.status ||| busErrBit } ∧
      ∃ (off : BitVec 15) (sz : AccessSize), (sz ≠ .word ∨ off.toNat % 4 ≠ 0) ∧
        (a = .read off sz ∨ ∃ w, a = .write off sz w))) := by
  have hl : ∀ (off : BitVec 15) (sz : AccessSize), legalAccess off sz = false → sz ≠ .word ∨ off.toNat % 4 ≠ 0 := by
    intro off sz h
    by_contra hn
    rw [not_or, not_not, not_not] at hn
    simp [legalAccess, hn.1, hn.2] at h
  have ho : ∀ (off : BitVec 15) (n : Nat), n < 2 ^ 15 → off.toNat = n → off = BitVec.ofNat 15 n := by
    intro off n _ h
    rw [← h, BitVec.ofNat_toNat, BitVec.setWidth_eq]
  cases a with
  | read off sz =>
    simp only [hostAccess] at h
    split at h <;> cases h
    · exact .inr ⟨⟨rfl, rfl, rfl⟩, .inr (.inl ⟨rfl, rfl⟩)⟩
    · exact .inr ⟨⟨rfl, rfl, rfl⟩, .inr (.inr ⟨rfl, off, sz, hl _ _ (by simp_all), .inl rfl⟩)⟩
  | write off sz w =>
    simp only [hostAccess] at h
    split at h
    · rename_i hleg
      obtain rfl : sz = .word := by simp [legalAccess] at hleg; exact hleg.1
      rcases hr : targetAt off.toNat with r | _ | _ | _ | _ | _ | _ <;> rw [hr] at h <;> simp only [writeTarget] at h
      · have hoff := targetAt_reg hr
        cases r <;> simp only [writeReg] at h
        case cmd =>
          obtain rfl := ho off _ (by decide) hoff
          unfold runCommand at h
          split at h
          · exact .inl ⟨w, _, rfl, ‹_›, h⟩
          · cases h; exact .inr ⟨⟨rfl, rfl, rfl⟩, .inr (.inl ⟨rfl, rfl⟩)⟩
        case irqStatus =>
          obtain rfl := ho off _ (by decide) hoff
          cases h
          exact .inr ⟨⟨rfl, rfl, rfl⟩, .inl ⟨w, rfl, rfl⟩⟩
        all_goals cases h; exact .inr ⟨⟨rfl, rfl, rfl⟩, .inr (.inl ⟨rfl, rfl⟩)⟩
      all_goals cases h; exact .inr ⟨⟨rfl, rfl, rfl⟩, .inr (.inl ⟨rfl, rfl⟩)⟩
    · cases h; exact .inr ⟨⟨rfl, rfl, rfl⟩, .inr (.inr ⟨rfl, off, sz, hl _ _ (by simp_all), .inr ⟨w, rfl⟩⟩)⟩

/-! ## Engine steps -/

/-- What a TX phase step does not touch. -/
theorem txPhaseStep_frame (s : State) :
    (txPhaseStep s).cfg = s.cfg ∧ (txPhaseStep s).nowUs = s.nowUs ∧ (txPhaseStep s).env = s.env ∧
      (txPhaseStep s).conf = s.conf ∧ (txPhaseStep s).regs = s.regs ∧ (txPhaseStep s).frame = s.frame ∧
      (txPhaseStep s).rx = s.rx ∧ (txPhaseStep s).mem = s.mem ∧ (txPhaseStep s).irq.enable = s.irq.enable := by
  unfold txPhaseStep
  split
  · simp [waveOff]
  · simp [startNext, startFrom_frame]

/-- What the timeout test does: nothing, or it abandons the session. -/
theorem timeoutTest_cases (s : State) : timeoutTest s = s ∨ timeoutTest s = abandonSession s := by
  unfold timeoutTest
  split
  · exact .inr rfl
  · exact .inl rfl

/-- What the decoder's part of a window step does not touch. -/
theorem decodeWindow_frame (k : WinClass) (v : Freq) (s : State) :
    (decodeWindow k v s).cfg = s.cfg ∧ (decodeWindow k v s).nowUs = s.nowUs ∧ (decodeWindow k v s).env = s.env ∧
      (decodeWindow k v s).conf = s.conf ∧ (decodeWindow k v s).regs = s.regs ∧ (decodeWindow k v s).tx = s.tx ∧
      (decodeWindow k v s).irq.enable = s.irq.enable := by
  have h : ∀ s : State, (framingAction k v s).cfg = s.cfg ∧ (framingAction k v s).nowUs = s.nowUs ∧
      (framingAction k v s).env = s.env ∧ (framingAction k v s).conf = s.conf ∧ (framingAction k v s).regs = s.regs ∧
      (framingAction k v s).tx = s.tx ∧ (framingAction k v s).irq.enable = s.irq.enable := by
    intro s
    unfold framingAction
    split <;> simp [completeFrame, appendBit, sessionOverflow] <;> split <;> simp
  unfold decodeWindow
  split
  · split <;> simp
  · rcases timeoutTest_cases (framingAction k v s) with ht | ht <;> rw [ht]
    · exact h s
    · simpa [abandonSession] using h s

/-- What an RX window step does not touch. -/
theorem rxWindowStep_frame (s : State) :
    (rxWindowStep s).cfg = s.cfg ∧ (rxWindowStep s).nowUs = s.nowUs ∧ (rxWindowStep s).env = s.env ∧
      (rxWindowStep s).conf = s.conf ∧ (rxWindowStep s).regs = s.regs ∧ (rxWindowStep s).tx = s.tx ∧
      (rxWindowStep s).irq.enable = s.irq.enable := by
  have := decodeWindow_frame (classify s.cfg.toConfig s.rx.latTol s.rx.winEst) s.rx.winEst s
  simpa [rxWindowStep, openWindow] using this

/-- A TX phase step adds only TX_DONE and TX_SKIP to the reports (R186, R187). -/
theorem txPhaseStep_grows (s : State) : Reports.Grows 6 7 s.irq (txPhaseStep s).irq := by
  unfold txPhaseStep
  split
  · exact Reports.Grows.refl _ _ _
  · exact startFrom_grows _ _

/-- An RX window step adds only receive events to the reports (R156). -/
theorem rxWindowStep_grows (s : State) : Reports.Grows 1 5 s.irq (rxWindowStep s).irq := by
  have hf : ∀ (k : WinClass) (v : Freq) (s : State), Reports.Grows 1 5 s.irq (framingAction k v s).irq := by
    intro k v s
    unfold framingAction
    split
    · simp only [completeFrame, State.closeSession, State.emit]
      refine Reports.emit_grows _ _ _ ?_ ?_ <;> split <;> decide
    · unfold appendBit; split
      · exact Reports.emit_grows .rxOverflow _ _ (by decide) (by decide)
      · exact Reports.Grows.refl _ _ _
    · unfold appendBit; split
      · exact Reports.emit_grows .rxOverflow _ _ (by decide) (by decide)
      · exact Reports.Grows.refl _ _ _
    · exact Reports.emit_grows .rxWarn _ _ (by decide) (by decide)
    · exact Reports.emit_grows .rxWarn _ _ (by decide) (by decide)
    · exact Reports.Grows.refl _ _ _
  have hd : ∀ (k : WinClass) (v : Freq) (s : State), Reports.Grows 1 5 s.irq (decodeWindow k v s).irq := by
    intro k v s
    unfold decodeWindow
    split
    · split <;> exact Reports.Grows.refl _ _ _
    · refine (hf k v s).trans ?_
      rcases timeoutTest_cases (framingAction k v s) with h | h <;> rw [h]
      · exact Reports.Grows.refl _ _ _
      · exact Reports.emit_grows .rxTimeout _ _ (by decide) (by decide)
  exact hd _ _ s

/-- An edge capture touches only the accumulators of the RX engine. -/
theorem edgeCapture_frame (s : State) :
    ∃ n sat last span, edgeCapture s =
      { s with rx := { s.rx with accN := n, accSat := sat, accLast := last, accSpan := span } } := by
  unfold edgeCapture
  split
  · unfold RxEngine.capture
    split <;> exact ⟨_, _, _, _, rfl⟩
  · exact ⟨s.rx.accN, s.rx.accSat, s.rx.accLast, s.rx.accSpan, rfl⟩

/-! ## Steps -/

/-- Everything a step can be, each kind with the conditions under which it comes (R20, R72). -/
theorem step_cases {s t : State} (h : step s = .next t) :
    (txTurn s = true ∧ t = txPhaseStep (s.setTurn .rx)) ∨
    (txTurn s = false ∧ rxTurn s = true ∧ t = rxWindowStep (s.setTurn .edge)) ∨
    (txTurn s = false ∧ rxTurn s = false ∧ edgeTurn s = true ∧ t = nextEdge s) ∨
    (txTurn s = false ∧ rxTurn s = false ∧ edgeTurn s = false ∧ s.env.dueAccesses = [] ∧ t = tick s) ∨
    (txTurn s = false ∧ rxTurn s = false ∧ edgeTurn s = false ∧ ∃ a rest, s.env.dueAccesses = a :: rest ∧
      hostAccess a { s with env := { s.env with turn := .host, dueAccesses := rest } } = .next t) := by
  unfold step agentStep at h
  split at h
  · cases h; exact .inl ⟨‹_›, rfl⟩
  rename_i h1
  split at h
  · cases h; exact .inr (.inl ⟨by simpa using h1, ‹_›, rfl⟩)
  rename_i h2
  split at h
  · cases h; exact .inr (.inr (.inl ⟨by simpa using h1, by simpa using h2, ‹_›, rfl⟩))
  rename_i h3
  simp only [Bool.not_eq_true] at h1 h2 h3
  unfold nextAccess at h
  split at h
  · cases h; exact .inr (.inr (.inr (.inl ⟨h1, h2, h3, ‹_›, rfl⟩)))
  · exact .inr (.inr (.inr (.inr ⟨h1, h2, h3, _, _, ‹_›, h⟩)))

end Sys2Proof.Machine
end

