-- ==== Sys2Proof/Machine/Program.lean ====
section
/-! DEFINITION. The host program notation (30_encoding.md R103, R104): statements, pseudo-instructions, and a program
loaded into the environment queue. -/

namespace Sys2Proof.Machine

/-- A statement of R103. -/
inductive Stmt where
  /-- `wr <target>, <value>`: one legal 32-bit write. -/
  | wr (t : Target) (v : Word)
  /-- `rd <target>`: one legal 32-bit read. -/
  | rd (t : Target)
  /-- `tick <n>`: `n` ticks. -/
  | tick (n : Nat)
  /-- `edge`: one edge capture at the current `NOW_US`. -/
  | edge
deriving DecidableEq, Repr

/-- A command mnemonic: one `wr CMD, <word>` (R104). -/
def Stmt.command (i : Instr) : Stmt := .wr (.reg .cmd) (encode i)

/-- `wr64 OPA, v` (R104). -/
def Stmt.wr64Opa (v : Nat) : List Stmt := [.wr (.reg .opaLo) (lowHalf v), .wr (.reg .opaHi) (highHalf v)]

/-- `wr64 OPB, v` (R104). -/
def Stmt.wr64Opb (v : Nat) : List Stmt := [.wr (.reg .opbLo) (lowHalf v), .wr (.reg .opbHi) (highHalf v)]

/-- A program as what the environment does at the present time value and later. None where an `edge` follows an access
at one time value, which R72 excludes. -/
def assemble : List Stmt → Option (EnvSlot × List EnvSlot)
  | [] => some ({ wait := 0, edges := 0, accesses := [] }, [])
  | .wr t v :: r =>
    match assemble r with
    | some (now, later) =>
      if now.edges = 0 then some ({ now with accesses := wordWrite t v :: now.accesses }, later) else none
    | none => none
  | .rd t :: r =>
    match assemble r with
    | some (now, later) =>
      if now.edges = 0 then some ({ now with accesses := wordRead t :: now.accesses }, later) else none
    | none => none
  | .edge :: r =>
    match assemble r with
    | some (now, later) => some ({ now with edges := now.edges + 1 }, later)
    | none => none
  | .tick n :: r =>
    match assemble r, n with
    | some (now, later), 0 => some (now, later)
    | some (now, later), k + 1 => some ({ wait := 0, edges := 0, accesses := [] }, { now with wait := k } :: later)
    | none, _ => none

/-- A state in which the environment is about to run a program, from the present time value on. -/
def State.load (p : List Stmt) (s : State) : Option State :=
  match assemble p with
  | some (now, later) =>
    some { s with env := { s.env with
      turn := .edge, dueEdges := now.edges, dueAccesses := now.accesses, schedule := later } }
  | none => none

end Sys2Proof.Machine
end

