-- ==== Sys2Proof/Tests/Slice0.lean ====
section
/-! SUPPORT. Tests: what the checks refuse, words written out from the spec's encodings, one step of each command with
the results of spec/95_test_vectors.md, and for every statement with hypotheses a state that meets them. -/

namespace Sys2Proof.Tests

open Sys2Proof Sys2Proof.Machine

-- The small tests below are elaborated one after another, so that the file needs few threads and little memory.
set_option Elab.async false

/-! ## Helpers -/

/-- The next state, or the reset state where there is none. -/
def after : Answer → State
  | .next t => t
  | .fault _ => State.reset
  | .refused _ => State.reset

/-- The state in which bytes stand in the buffers from an offset on. -/
def holding (a : Nat) (bs : List Byte) : State := State.reset.writeMem a bs

/-- The state in which 32-bit words stand in `EDGEBUF`. -/
def withEdges (ts : List Word) : State := holding 0x1000 (ts.flatMap wordBytes)

/-- The state with `OPA`, `OPB` and `TOL_HZ` as given. -/
def withOperands (a b : Nat) (tol : Word) : State :=
  { State.reset with
    regs := { State.reset.regs with opaLo := lowHalf a, opaHi := highHalf a, opbLo := lowHalf b, opbHi := highHalf b }
    conf := { State.reset.conf with tolHz := tol } }

/-- A running RX engine at the end of its window, with `n` edges over `span` µs in the accumulators, the decoder in a
given state with given bits, and a timeout. The session began at 0. -/
def windowEnd (n : Word) (span : BitVec 64) (fd : FdState) (bits : List Bool) (timeout : Word) : State :=
  { State.reset with
    nowUs := 100000
    rx := { State.reset.rx with
      rxEn := true, latTol := 20, latGateLo := 980, latGateHi := 4320, latBitDur := 50000, latTimeout := timeout
      accN := n, accSpan := span, fdState := fd, sessBits := bits }
    env := { State.reset.env with turn := .tx } }

/-- An active TX engine at a phase end, before the last items of a list. -/
def phaseEnd (phase : TxPhase) (items : List TxItem) : State :=
  { State.reset with
    nowUs := 7
    tx := { State.reset.tx with
      txActive := true, txItems := items, txPhase := phase, txPhaseEnd := 7, txBitDur := 5
      waveOn := phase == .tone, waveFreq := if phase = .tone then 4150 else 0 }
    env := { State.reset.env with turn := .tx } }

/-- The state in which the host's next access is given and comes next. -/
def dueNow (a : HostAccess) (s : State) : State :=
  { s with env := { s.env with turn := .host, dueAccesses := [a] } }

/-- The state in which one edge is due. -/
def dueEdge : State := { State.reset with env := { State.reset.env with dueEdges := 1 } }

/-- 32 events in the FIFO. -/
def fullFifo : State := { State.reset with irq := { State.reset.irq with evq := List.replicate 32 0x00001206 } }

/-! ## What the checks refuse -/

theorem test_wf_est : (Instr.est true 65536).wf = false := by decide
theorem test_wf_b2bits : (Instr.b2bits 65536).wf = false := by decide
theorem test_wf_bits2b : (Instr.bits2b 65536).wf = false := by decide
theorem test_wf_txFrame : (Instr.txFrame 65536).wf = false := by decide
theorem test_wf_txBits : (Instr.txBits 65536).wf = false := by decide

theorem test_cfg_short_table : ({ exampleCfg with freq := [1000] } : Config).freqTotal = false := by decide
theorem test_cfg_zero_frequency : ({ exampleCfg with freq := 0 :: exampleCfg.freq.tail } : Config).freqInRange = false := by
  decide
theorem test_cfg_equal_frequencies :
    ({ exampleCfg with freq := 1050 :: exampleCfg.freq.tail } : Config).freqDistinct = false := by decide +kernel
theorem test_cfg_tolerance : ({ exampleCfg with tolReset := 26 } : Config).tolInRange = false := by decide +kernel
theorem test_cfg_bit_duration_zero : ({ exampleCfg with bitDurReset := 0 } : Config).bitDurInRange = false := by decide
theorem test_cfg_bit_duration_large :
    ({ exampleCfg with bitDurReset := 2 ^ 30 + 1 } : Config).bitDurInRange = false := by decide
theorem test_cfg_base : ({ exampleCfg with coreBase := 0x4000 } : Config).baseAligned = false := by decide
theorem test_cfg_refused :
    State.powerOn? { exampleCfg with tolReset := 26 } = .refused .illFormedConfig := by
  unfold State.powerOn?
  rw [dif_neg (by decide +kernel)]

/-! ## Words written out from the encodings (R92, R93, R104; the words of 95_test_vectors.md) -/

theorem test_decode_nop : decode 0x00000000 = .ok .nop := by decide
theorem test_decode_est : decode 0b0000000000000101_0000000_1_00000001 = .ok (.est true 5) := by decide
theorem test_decode_est_ungated : decode 0b0000000000000010_0000000_0_00000001 = .ok (.est false 2) := by decide
theorem test_decode_s2f : decode 0b0000000000000000_01000001_00000010 = .ok (.s2f 0x41) := by decide
theorem test_decode_f2s : decode 0x00000003 = .ok .f2s := by decide
theorem test_decode_b2bits : decode 0b0000000000000010_00000000_00000100 = .ok (.b2bits 2) := by decide
theorem test_decode_bits2b : decode 0b0000000000001000_00000000_00000101 = .ok (.bits2b 8) := by decide
theorem test_decode_txFrame : decode 0b0000000000000010_00000000_00000110 = .ok (.txFrame 2) := by decide
theorem test_decode_txBits : decode 0b0000000000000011_00000000_00000111 = .ok (.txBits 3) := by decide
theorem test_decode_txAbort : decode 0x00000008 = .ok .txAbort := by decide
theorem test_decode_rxStart : decode 0x00000009 = .ok .rxStart := by decide
theorem test_decode_rxStop : decode 0x0000000A = .ok .rxStop := by decide
theorem test_decode_evtPop : decode 0x0000000B = .ok .evtPop := by decide
theorem test_decode_softReset : decode 0x0000000C = .ok .softReset := by decide
theorem test_decode_opcode_first : decode 0xFFFFFFFF = .error .illegalOpcode := by decide
theorem test_decode_field_second : decode 0x00050201 = .error .illegalOperand := by decide
theorem test_decodeTableWord : decodeTableWord 32 0x04010006 = some (.txFrame 1025) := by decide

/-- The first step after reset runs the placed word (V-S2F-1). -/
theorem test_withFetchWord : (after (step (State.reset.withFetchWord 32 0x4102))).regs.resLo = 1000 := by decide

/-! ## One step of each command (spec/95_test_vectors.md; the vector's name in each comment) -/

/-- V-C-2: NOP with `LEN16 = 1`. -/
theorem test_nop_field : (after (runCommand 0x00010000 State.reset)).regs.result = 3 := by decide
/-- V-EST-5: the interval wraps. -/
theorem test_est_wrap : let t := after (exec (.est false 2) (withEdges [0xFFFFFF00, 0])); (t.res, t.res2) = (1000000, 256) := by
  decide +kernel
/-- V-EST-14: below the reset gate. -/
theorem test_est_gated : let t := after (exec (.est true 2) (withEdges [0, 1021])); (t.res, t.res2) = (0, 1) := by
  decide +kernel
/-- V-S2F-4: BIT0 is not '0'. -/
theorem test_s2f_bit0 : (after (exec (.s2f 0x83) State.reset)).res = 4250 := by decide
/-- V-S2F-9: no symbol has the code 0x85. -/
theorem test_s2f_notFound : (after (exec (.s2f 0x85) State.reset)).regs.result = 1 := by decide
/-- V-F2S-12: a rational frequency. -/
theorem test_f2s_rational :
    let t := after (exec .f2s (withOperands 4149377593 1000000 20)); (t.res, t.res2) = (0x81, 63) := by decide +kernel
/-- V-F2S-13: a tie goes to the first symbol. -/
theorem test_f2s_tie : let t := after (exec .f2s (withOperands 1025 1 25)); (t.res, t.res2) = (0x41, 0) := by
  decide +kernel
/-- V-B2B-1: the first word of `CVTBUF`. -/
theorem test_b2bits : readTarget (.cvtbuf 0) (after (exec (.b2bits 2) (holding 0x2000 [0x41, 0x42]))) = 0x30303130 := by
  decide
/-- V-BB-1. -/
theorem test_bits2b :
    readTarget (.cvtbuf 0) (after (exec (.bits2b 8) (holding 0x2000 [0x30, 0x31, 0x30, 0x30, 0x30, 0x30, 0x30, 0x31]))) =
      0x41 := by decide
/-- V-BB-5: the length is checked before the characters. -/
theorem test_bits2b_length_first : (after (exec (.bits2b 10) State.reset)).regs.result = 2 := by decide
/-- V-TX-1: the tones in order. -/
theorem test_txFrame_tones : (after (exec (.txFrame 1) (holding 0x2000 [0x41]))).tx.txItems =
    [.tone 4150, .tone 4250, .tone 4300, .tone 4250, .tone 4250, .tone 4250, .tone 4250, .tone 4250, .tone 4300,
      .tone 4200] := by decide +kernel
/-- V-TX-5: an empty payload. -/
theorem test_txFrame_empty : (after (exec (.txFrame 0) State.reset)).res = 2 := by decide
/-- V-TX-6: an invalid character is a skip. -/
theorem test_txBits_items : (after (exec (.txBits 3) (holding 0x2000 [0x31, 0x78, 0x30]))).tx.txItems =
    [.tone 4150, .tone 4300, .skip 1, .tone 4250, .tone 4200] := by decide +kernel
/-- V-TX-9: no transmission to abort. -/
theorem test_txAbort_idle : (after (exec .txAbort State.reset)).irq.evq = [] := by decide
/-- V-FD-11: RX_START on a running engine. -/
theorem test_rxStart_busy : (after (exec .rxStart (windowEnd 0 0 .idle [] 0))).regs.result = 4 := by decide
/-- V-FD-9: RX_STOP drops the session. -/
theorem test_rxStop : (after (exec .rxStop (windowEnd 0 0 .framing [true, true] 0))).statusWord = 0 := by decide
/-- V-C-5: an empty FIFO. -/
theorem test_evtPop_empty : (after (exec .evtPop State.reset)).res = 0 := by decide
/-- V-C-7: the clock survives SOFT_RESET. -/
theorem test_softReset : (after (exec .softReset { State.reset with nowUs := 60000 })).nowUs = 60000 := by decide
/-- V-FD-2: the frame "101". -/
theorem test_frame : readTarget (.rxbuf 0) (rxWindowStep (windowEnd 2 238 .framing [true, false, true] 500000)) = 0xA0 := by
  decide +kernel
/-- V-FD-13: a ninth thousand bit is an overflow, reported with 8192. -/
theorem test_overflow_word : eventWord .rxOverflow 8192 = 0x00200005 := by decide
/-- R103, R104: a program placed in the environment. -/
theorem test_program : assemble [.command .nop, .tick 2, .edge, .rd (.reg .nowUs)] =
    some ({ wait := 0, edges := 0, accesses := [commandWrite 0] },
      [{ wait := 1, edges := 1, accesses := [wordRead (.reg .nowUs)] }]) := by decide

/-! ## Witnesses: every statement's hypotheses are met -/

theorem witness_EncodedCommandDecodesToItself : (Instr.est true 65535).wf = true := by decide
theorem witness_DecodedWordEncodesBack : decode 0xFFFF0101 = .ok (.est true 65535) := by decide
theorem witness_CommandChecksComeInOrder :
    (((0x0000000D : Word).extractLsb' 0 8).toNat > 0x0C ∧ ((0xFFFFFFFF : Word).extractLsb' 0 8).toNat > 0x0C) ∧
    (((0x0000010C : Word).extractLsb' 0 8).toNat ≤ 0x0C ∧ ∀ r ∈ opcodeTable, (0x0000010C : Word) &&& r.2 ≠ r.1) ∧
    decode 0x0000000C = .ok .softReset ∧
    ∃ t, runCommand 0x0000000D State.reset = .next t ∧ t.regs.result ≠ 0 :=
  ⟨by decide, ⟨by decide, by unfold opcodeTable; simp⟩, by decide, _, rfl, by decide⟩

/-- A command write is due and nothing comes before it. -/
theorem witness_StepRunsWrittenCommand :
    let s := dueNow (.write 0x00C .word 0x4102) State.reset
    txTurn s = false ∧ rxTurn s = false ∧ edgeTurn s = false ∧
      s.env.dueAccesses = .write 0x00C .word 0x4102 :: [] ∧ decode 0x4102 = .ok (.s2f 0x41) :=
  ⟨rfl, rfl, rfl, rfl, by decide⟩
/-- An access that is no command, and no aligned 32-bit access, is due and nothing comes before it. -/
theorem witness_StepRunsWrittenCommand_access :
    let s := dueNow (.read 0x7FFF .byte) State.reset
    txTurn s = false ∧ rxTurn s = false ∧ edgeTurn s = false ∧ s.env.dueAccesses = .read 0x7FFF .byte :: [] :=
  ⟨rfl, rfl, rfl, rfl⟩
theorem witness_StepsAnswerAndCommandsCompleteAtOnce :
    let s := dueNow (.write 0x00C .word 0) State.reset
    txTurn s = false ∧ rxTurn s = false ∧ edgeTurn s = false ∧ s.env.dueAccesses = .write 0x00C .word 0 :: [] ∧
      ∃ t, step s = .next t := ⟨rfl, rfl, rfl, rfl, _, rfl⟩
/-- The first step after reset is a tick. Also for StepsKeepConfiguration and FreqTblReadsFrequencies. -/
theorem witness_OnlyTicksMoveTheClock : step State.reset = .next (tick State.reset) := rfl
theorem witness_StepsAtOneTimeComeInOrder :
    ((phaseEnd .tone [.tone 4150]).env.turn = .tx ∧ txDue (phaseEnd .tone [.tone 4150]) = true ∧
      ∃ t, step (phaseEnd .tone [.tone 4150]) = .next t) ∧
    ((windowEnd 0 0 .idle [] 0).env.turn = .tx ∧ txDue (windowEnd 0 0 .idle [] 0) = false ∧
      rxDue (windowEnd 0 0 .idle [] 0) = true) ∧
    (((windowEnd 0 0 .idle [] 0).setTurn .rx).env.turn = .rx ∧ rxDue ((windowEnd 0 0 .idle [] 0).setTurn .rx) = true) ∧
    (txTurn dueEdge = false ∧ rxTurn dueEdge = false ∧ dueEdge.env.turn ≠ .host ∧ dueEdge.env.dueEdges ≠ 0) ∧
    ((State.reset.setTurn .host).env.turn = .host ∧ (State.reset.setTurn .host).env.dueAccesses = []) ∧
    ((dueNow (.read 0 .word) State.reset).env.turn = .host ∧
      (dueNow (.read 0 .word) State.reset).env.dueAccesses ≠ []) ∧
    State.reset.TurnOk :=
  ⟨⟨rfl, by decide, _, rfl⟩, by decide, by decide, by decide, by decide, by decide, by intro h; cases h⟩

theorem witness_IllegalAccessOnlySetsBusErr :
    (AccessSize.byte ≠ .word ∨ (0x7FFF : BitVec 15).toNat % 4 ≠ 0) ∧ (AccessSize.half ≠ .word) ∧
      (0x0001 : BitVec 15).toNat % 4 ≠ 0 := by decide
theorem witness_ReservedOffsetsReadZero :
    ∀ off ∈ ([0x0070, 0x03FC, 0x0800, 0x0FFC, 0x2800, 0x3FFC, 0x6000, 0x7FFC] : List (BitVec 15)),
      off.toNat % 4 = 0 ∧ ((0x0070 ≤ off.toNat ∧ off.toNat ≤ 0x03FF) ∨ (0x0800 ≤ off.toNat ∧ off.toNat ≤ 0x0FFF) ∨
        (0x2800 ≤ off.toNat ∧ off.toNat ≤ 0x3FFF) ∨ 0x6000 ≤ off.toNat) := by
  intro off h
  simp only [List.mem_cons, List.not_mem_nil, or_false] at h
  rcases h with rfl | rfl | rfl | rfl | rfl | rfl | rfl | rfl <;> decide
theorem witness_ReadsHaveNoSideEffect : (0x7FFC : BitVec 15).toNat % 4 = 0 := by decide
/-- The last words of `TXBUF` and `EDGEBUF` (V-C-20 for the byte order). -/
theorem witness_BufferWordsReadBack : 255 < 256 ∧ 1023 < 1024 ∧
    txAt (after (hostAccess (.write 0x23FC .word 0x00004241) State.reset)) 1021 = 0x42 := by decide
theorem witness_ByteBuffersReadLittleEndian :
    (0x2000 : BitVec 15).toNat % 4 = 0 ∧ (0x2000 ≤ (0x27FC : BitVec 15).toNat ∧ (0x27FC : BitVec 15).toNat < 0x2800) ∧
      (0x5FFC : BitVec 15).toNat % 4 = 0 ∧ (0x5FFC : BitVec 15).toNat < 0x6000 := by decide
theorem witness_WritesFollowAccessTypes :
    ∀ off ∈ ([0x0400, 0x07FC, 0x2400, 0x27FC, 0x4000, 0x5FFC] : List (BitVec 15)), off.toNat % 4 = 0 ∧
      ((0x0400 ≤ off.toNat ∧ off.toNat < 0x0800) ∨ (0x2400 ≤ off.toNat ∧ off.toNat < 0x2800) ∨
        (0x4000 ≤ off.toNat ∧ off.toNat < 0x6000)) := by
  intro off h
  simp only [List.mem_cons, List.not_mem_nil, or_false] at h
  rcases h with rfl | rfl | rfl | rfl | rfl | rfl <;> decide
/-- V-TOL-2: 100 is clamped to 25. -/
theorem witness_ToleranceIsClamped : (0 < 67 ∧ 66 < 67 ∧ 0 ≠ 66) ∧
    (after (hostAccess (.write 0x034 .word 100) State.reset)).conf.tolHz = 25 := by decide +kernel
/-- V-TX-10, V-TX-11. -/
theorem witness_BitDurationIsClamped :
    ((0 : Word) = 0 ∧ (0x40000001 : Word).toNat > 2 ^ 30 ∧ (0x40000000 : Word) ≠ 0 ∧ (0x40000000 : Word).toNat ≤ 2 ^ 30) ∧
    (after (hostAccess (.write 0x040 .word 0xFFFFFFFF) State.reset)).conf.bitDurUs = 0x40000000 := by decide
/-- V-C-16. -/
theorem witness_IrqStatusIsWriteOneToClear : 9 < 10 ∧
    (after (hostAccess (.write 0x048 .word 0x002) { State.reset with irq := { State.reset.irq with status := 0x022 } })
      ).irq.status = 0x020 := by decide
/-- A step in which the host clears bit 1, and one in which SOFT_RESET does. -/
theorem witness_IrqStatusIsWriteOneToClear_step :
    let s : State := { State.reset with irq := { State.reset.irq with status := 0x022 } }
    s.irq.status.getLsbD 1 = true ∧
    (∃ t, step (dueNow (.write 0x048 .word 0x002) s) = .next t ∧ t.irq.status.getLsbD 1 = false) ∧
    ∃ t, step (dueNow (commandWrite 0xC) s) = .next t ∧ t.irq.status.getLsbD 1 = false :=
  ⟨by decide, ⟨_, rfl, by decide⟩, _, rfl, by decide⟩
theorem witness_StatusFieldsFollowState : fullFifo.irq.evq.length = 32 ∧ State.reset.irq.evq.length ≤ 32 := by decide
theorem witness_FreqTblReadsFrequencies :
    SymbolAt 0 0x41 ∧ SymbolAt 25 0x5A ∧ SymbolAt 26 0x61 ∧ SymbolAt 51 0x7A ∧ SymbolAt 52 0x30 ∧ SymbolAt 61 0x39 ∧
      SymbolAt 62 0x80 ∧ SymbolAt 66 0x84 ∧ (∀ i, ¬ SymbolAt i 0x00) ∧ (∀ i, ¬ SymbolAt i 0x5B) ∧
      ∀ i, ¬ SymbolAt i 0x85 := by
  unfold SymbolAt
  refine ⟨by decide, by decide, by decide, by decide, by decide, by decide, by decide, by decide, ?_, ?_, ?_⟩ <;>
    (intro i; simp; omega)
/-- A configuration that is refused, and one that is not. -/
theorem witness_IllFormedConfigurationsAreRefused :
    (¬ ∃ s, State.powerOn? { exampleCfg with tolReset := 26 } = .next s) ∧
      ∃ s, State.powerOn? exampleWf.toConfig = .next s :=
  ⟨by rw [test_cfg_refused]; simp, State.reset, by unfold State.powerOn?; rw [dif_pos exampleWf.isWf]; rfl⟩

/-- For every command a word with its must-be-zero fields 0 and one with them not 0. -/
theorem witness_WordRuns :
    ∀ r ∈ ([(0x00, 0xFFFFFF00, 0x00000000, 0x00010000), (0x01, 0x0000FE00, 0xFFFF0101, 0x00000201),
        (0x02, 0xFFFF0000, 0x0000FF02, 0x00010002), (0x03, 0xFFFFFF00, 0x00000003, 0x00000103),
        (0x04, 0x0000FF00, 0xFFFF0004, 0x00000104), (0x05, 0x0000FF00, 0xFFFF0005, 0x00008005),
        (0x06, 0x0000FF00, 0xFFFF0006, 0x00000106), (0x07, 0x0000FF00, 0xFFFF0007, 0x00000107),
        (0x08, 0xFFFFFF00, 0x00000008, 0x80000008), (0x09, 0xFFFFFF00, 0x00000009, 0x00000109),
        (0x0A, 0xFFFFFF00, 0x0000000A, 0x0000010A), (0x0B, 0xFFFFFF00, 0x0000000B, 0x0000010B),
        (0x0C, 0xFFFFFF00, 0x0000000C, 0x0000010C)] : List (Nat × Word × Word × Word)),
      (r.2.2.1.extractLsb' 0 8).toNat = r.1 ∧ r.2.2.1 &&& r.2.1 = 0 ∧ (r.2.2.2.extractLsb' 0 8).toNat = r.1 ∧
        r.2.2.2 &&& r.2.1 ≠ 0 := by decide
theorem witness_EstDeliversExactEstimate : 0 ≤ 1024 ∧ 1024 ≤ 1024 ∧ 1025 > 1024 := by decide
/-- The symbols of S2fGivesTableFrequency and the codes that name none: as for FREQ_TBL. -/
theorem witness_S2fGivesTableFrequency : SymbolAt 63 0x81 ∧ ∀ i, ¬ SymbolAt i 0xFF :=
  ⟨by unfold SymbolAt; decide, by unfold SymbolAt; intro i; simp; omega⟩
/-- V-F2S-11, V-F2S-3, V-F2S-4. -/
theorem witness_F2sGivesFirstSymbolWithinTolerance :
    (withOperands 1000 0 20).opb = 0 ∧
    ((withOperands 1020 1 20).opb ≠ 0 ∧ SymbolAt 0 0x41 ∧ FirstMatch exampleCfg ⟨1020, 1⟩ 20 0) ∧
    ((withOperands 1021 1 20).opb ≠ 0 ∧ ∀ i < 67, ¬ Within exampleCfg ⟨1021, 1⟩ 20 i) := by
  unfold SymbolAt FirstMatch Within
  decide +kernel
theorem witness_B2bitsWritesBitCharacters : 0 ≤ 1024 ∧ 1024 ≤ 1024 ∧ 1025 > 1024 := by decide
/-- 1024 characters '0' fill `TXBUF`. -/
theorem witness_full_txbuf (j : Nat) (h : j < 1024) : txAt (holding 0x2000 (List.replicate 1024 0x30)) j = 0x30 := by
  unfold txAt holding
  rw [State.writeMem_mem, Memory.read_writeBytes_inside _ _ _ _ (by rw [List.length_replicate]; exact h)]
  exact List.getElem_replicate _
theorem witness_Bits2bPacksBitCharacters :
    (1024 ≤ 1024 ∧ 1024 % 8 = 0 ∧ ∀ j < 1024, txAt (holding 0x2000 (List.replicate 1024 0x30)) j = 0x30 ∨
      txAt (holding 0x2000 (List.replicate 1024 0x30)) j = 0x31) ∧ 1025 > 1024 ∧ (1023 ≤ 1024 ∧ 1023 % 8 ≠ 0) ∧
    (1024 ≤ 1024 ∧ 1024 % 8 = 0 ∧ ∃ j < 1024, txAt State.reset j ≠ 0x30 ∧ txAt State.reset j ≠ 0x31) :=
  ⟨⟨by decide, by decide, fun j h => .inl (witness_full_txbuf j h)⟩, by decide, by decide, by decide, by decide, 1023,
    by decide⟩
/-- Also for TxBitsStartsTransmission. -/
theorem witness_TxFrameStartsTransmission :
    (1024 ≤ 1024 ∧ State.reset.tx.txActive = false) ∧ (1024 ≤ 1024 ∧ (phaseEnd .tone []).tx.txActive = true) ∧
      1025 > 1024 := by decide
theorem witness_TxAbortReleasesTheLine :
    (phaseEnd .tone [.tone 4150]).tx.txActive = true ∧ State.reset.tx.txActive = false := by decide
theorem witness_RxStartLatchesConfiguration :
    State.reset.rx.rxEn = false ∧ (windowEnd 0 0 .idle [] 0).rx.rxEn = true := by decide
theorem witness_EvtPopTakesOldestEvent :
    State.reset.irq.evq = [] ∧ fullFifo.irq.evq = 0x00001206 :: List.replicate 31 0x00001206 := by decide
theorem witness_EmitAppendsOrOverflows : State.reset.irq.evq.length < 32 ∧ fullFifo.irq.evq.length ≥ 32 := by decide
/-- A command that adds an event, and one that is none of the three. -/
theorem witness_OnlyTransmitCommandsMakeEvents :
    (∃ t, exec .txAbort (phaseEnd .tone []) = .next t ∧ t.irq.evq.length > (phaseEnd .tone []).irq.evq.length) ∧
      ∃ t, exec .nop State.reset = .next t := ⟨⟨_, rfl, by decide⟩, _, rfl⟩
/-- Steps in which bits 0, 5, 7, 8 and 9 rise: a STOP window, the end of STOP's gap, TX_ABORT with and without room in the
FIFO, and a byte read. -/
theorem witness_OnlyTransmitCommandsMakeEvents_step :
    (∃ t, step (windowEnd 2 238 .framing [] 0) = .next t ∧ t.irq.status.getLsbD 0 = true ∧ t.irq.evq.length = 1) ∧
    (∃ t, step (phaseEnd .gap [.tone 4200]) = .next t ∧ t.irq.status.getLsbD 5 = true ∧ t.irq.evq.length = 1) ∧
    (∃ t, step (dueNow (commandWrite 0x8) (phaseEnd .tone [.tone 4150])) = .next t ∧
      t.irq.status.getLsbD 7 = true ∧ t.irq.evq.length = 1) ∧
    (∃ t, step (dueNow (commandWrite 0x8) { phaseEnd .tone [.tone 4150] with irq := fullFifo.irq }) = .next t ∧
      t.irq.status.getLsbD 8 = true ∧ t.irq.evq.length = 32) ∧
    ∃ t, step (dueNow (.read 0x000 .byte) State.reset) = .next t ∧ t.irq.status.getLsbD 9 = true := by
  refine ⟨⟨_, rfl, by decide +kernel⟩, ⟨_, rfl, by decide⟩, ⟨_, rfl, by decide⟩, ⟨_, rfl, by decide⟩, _, rfl, by decide⟩
/-- Good accumulators with an edge in them. -/
theorem witness_EdgeCaptureAccumulates_accOk :
    let s := windowEnd 2 241 .framing [] 0
    let s' : State := { s with rx := { s.rx with accLast := 300 } }
    s'.rx.rxEn = true ∧ s'.rx.accN ≠ 0 ∧ s'.AccOk :=
  ⟨rfl, by decide, fun h => absurd h (by decide), fun h => absurd h (by decide), fun _ _ => by decide⟩
theorem witness_EdgeCaptureAccumulates :
    State.reset.rx.rxEn = false ∧
    ((windowEnd 0 0 .idle [] 0).rx.rxEn = true ∧ (windowEnd 0 0 .idle [] 0).rx.accN = 0) ∧
    ((windowEnd 0xFFFFFFFE 0 .idle [] 0).rx.accN ≠ 0 ∧ (windowEnd 0xFFFFFFFE 0 .idle [] 0).rx.accN.toNat < 2 ^ 32 - 1) ∧
    ((windowEnd 0xFFFFFFFF 0 .idle [] 0).rx.accN ≠ 0 ∧ (windowEnd 0xFFFFFFFF 0 .idle [] 0).rx.accN.toNat = 2 ^ 32 - 1) := by
  decide
theorem witness_AccumulatorsComputeTheEstimate :
    RxEngine.reset.accN = 0 ∧ RxEngine.reset.accSpan = 0 ∧ RxEngine.reset.accSat = false ∧
      ([5, 246] : List Word).length < 2 ^ 32 ∧ 2 ≤ ([5, 246] : List Word).length := by decide
/-- An overflowed edge count, with accumulators that would otherwise give START. -/
theorem witness_AccumulatorsComputeTheEstimate_sat :
    let r := { (windowEnd 2 241 .framing [] 0).rx with accSat := true }
    r.accSat = true ∧ r.winEst = ⟨0, 1⟩ ∧ (windowEnd 2 241 .framing [] 0).rx.winEst ≠ ⟨0, 1⟩ := by decide +kernel
theorem witness_ConstantIntervalGivesExactFrequency : 2 ≤ 2 ∧ (0xFFFFFFFF : Word) ≠ 0 := by decide
/-- The classes of section 1's table of windows, by first match. -/
theorem witness_WindowClassIsTheFirstMatch :
    (Freq.mk 0 1).num = 0 ∧ ((Freq.mk 1000000 241).num ≠ 0 ∧ FirstMatch exampleCfg ⟨1000000, 241⟩ 20 63) ∧
    FirstMatch exampleCfg ⟨1000000, 238⟩ 20 64 ∧ FirstMatch exampleCfg ⟨1000000, 235⟩ 20 65 ∧
    FirstMatch exampleCfg ⟨1000000, 233⟩ 20 66 ∧ FirstMatch exampleCfg ⟨1000000, 1000⟩ 20 0 ∧
    ((Freq.mk 1000000 976).num ≠ 0 ∧ ∀ i < 67, ¬ Within exampleCfg ⟨1000000, 976⟩ 20 i) := by
  unfold FirstMatch Within
  decide +kernel
theorem witness_IdleWindowOpensOnlyOnStart :
    ((windowEnd 2 241 .idle [] 0).rx.fdState = .idle ∧ windowClass (windowEnd 2 241 .idle [] 0) = .start) ∧
      windowClass (windowEnd 2 238 .idle [] 0) ≠ .start := by decide +kernel
theorem witness_BitWindowAppendsOrAbandons :
    ((windowEnd 2 233 .framing [true] 100000).rx.fdState = .framing ∧
      windowClass (windowEnd 2 233 .framing [true] 100000) = (if true then .bit1 else .bit0) ∧
      (windowEnd 2 233 .framing [true] 100000).rx.sessBits.length ≠ 8192 ∧
      ¬ TimedOut (windowEnd 2 233 .framing [true] 100000)) ∧
    (windowClass (windowEnd 2 235 .framing [true] 99999) = (if false then .bit1 else .bit0) ∧
      (windowEnd 2 235 .framing [true] 99999).rx.sessBits.length ≠ 8192 ∧
      TimedOut (windowEnd 2 235 .framing [true] 99999)) ∧
    (windowEnd 2 235 .framing (List.replicate 8192 true) 0).rx.sessBits.length = 8192 ∧
    windowClass (windowEnd 2 235 .framing (List.replicate 8192 true) 0) = (if false then .bit1 else .bit0) := by
  unfold TimedOut
  refine ⟨by decide +kernel, by decide +kernel, ?_, by decide +kernel⟩
  exact List.length_replicate
theorem witness_StopWindowCompletesFrame :
    (windowEnd 2 238 .framing (List.replicate 8192 true) 0).rx.fdState = .framing ∧
    windowClass (windowEnd 2 238 .framing (List.replicate 8192 true) 0) = .stop ∧
    (windowEnd 2 238 .framing (List.replicate 8192 true) 0).rx.sessBits.length ≤ 8192 :=
  ⟨rfl, by decide +kernel, Nat.le_of_eq List.length_replicate⟩
theorem witness_OtherWindowsWarnAndTimeOut :
    ((windowEnd 2 976 .framing [] 0).rx.fdState = .framing ∧ windowClass (windowEnd 2 976 .framing [] 0) = .other ∧
      TimedOut (windowEnd 2 976 .framing [] 0)) ∧
    (windowClass (windowEnd 2 241 .framing [] 100000) = .start ∧ ¬ TimedOut (windowEnd 2 241 .framing [] 100000)) ∧
    (windowClass (windowEnd 2 1429 .framing [] 99999) = .none ∧ TimedOut (windowEnd 2 1429 .framing [] 99999)) ∧
    windowClass (windowEnd 0 0 .framing [] 100000) = .none ∧ ¬ TimedOut (windowEnd 0 0 .framing [] 100000) := by
  unfold TimedOut
  decide +kernel
theorem witness_PhaseStepAlternatesToneAndGap :
    (phaseEnd .tone [.tone 4150]).tx.txPhase = .tone ∧
    ((phaseEnd .gap [.tone 4150, .skip 0, .skip 1, .tone 4200]).tx.txPhase = .gap ∧
      (phaseEnd .gap [.tone 4150, .skip 0, .skip 1, .tone 4200]).tx.txItems.drop 1 =
        [0, 1].map TxItem.skip ++ TxItem.tone 4200 :: []) ∧
    ((phaseEnd .gap [.tone 4200, .skip 5]).tx.txItems.drop 1 = [5].map TxItem.skip ∧
      (phaseEnd .gap [.tone 4200]).tx.txItems.drop 1 = [].map TxItem.skip) := by decide
theorem witness_TxFrameRunsToDone :
    1024 ≤ 1024 ∧ State.reset.tx.txActive = false ∧ State.reset.rx.rxEn = false ∧
      1 ≤ State.reset.conf.bitDurUs.toNat ∧ State.reset.conf.bitDurUs.toNat ≤ 2 ^ 30 ∧ State.reset.env.dueEdges = 0 ∧
      State.reset.env.dueAccesses = [] ∧ State.reset.env.schedule = [] := by decide
/-- RX_START changes the RX engine. -/
theorem witness_OnlyReceiverStepsWriteReceiver :
    ∃ t, step (dueNow (commandWrite 0x9) State.reset) = .next t ∧
      t.rx ≠ (dueNow (commandWrite 0x9) State.reset).rx := ⟨_, rfl, by decide⟩
/-- A tone's end turns the waveform off. -/
theorem witness_OnlyTransmitStepsWriteWaveform :
    ∃ t, step (phaseEnd .tone [.tone 4150]) = .next t ∧ t.tx.waveOn ≠ (phaseEnd .tone [.tone 4150]).tx.waveOn :=
  ⟨_, rfl, by decide⟩
/-- A STOP window changes the frame registers. -/
theorem witness_FrameRegistersChangeOnlyAtCompletion :
    ∃ t, step (windowEnd 2 238 .framing [] 0) = .next t ∧ t.frame ≠ (windowEnd 2 238 .framing [] 0).frame :=
  ⟨_, rfl, by decide +kernel⟩
/-- The invariants' hypotheses, met by the reset state, whose step is a tick. -/
theorem witness_invariants :
    (State.reset.MemOk ∧ State.reset.ReportsOk ∧ State.reset.SessionOk) ∧ State.reset.ConfOk ∧
      (State.reset.WindowOk ∧ State.reset.AccOk) ∧ (State.reset.LineOk ∧ State.reset.PhaseOk) ∧
      step State.reset = .next (tick State.reset) := by
  refine ⟨⟨?_, ?_, ?_⟩, ?_, ⟨?_, ?_⟩, ⟨?_, ?_⟩, rfl⟩
  · exact ⟨⟨List.Pairwise.nil, fun c h => by cases h⟩, fun c h => by cases h⟩
  · exact ⟨by decide, by decide, fun w h => by cases h⟩
  · exact ⟨by decide, fun _ => rfl, fun _ => rfl, by decide⟩
  · unfold State.ConfOk; decide +kernel
  · intro h; cases h
  · exact ⟨fun _ => ⟨rfl, rfl⟩, fun _ => rfl, fun h => by cases h⟩
  · exact ⟨fun h => (by cases h), fun _ => ⟨rfl, rfl, rfl, rfl, rfl⟩⟩
  · intro h; cases h
/-- A running window and an active transmission meet the invariants as well, so that they say something. -/
theorem witness_invariants_running :
    (windowEnd 2 241 .framing [] 0).WindowOk ∧ (phaseEnd .tone [.tone 4150]).LineOk ∧
      (phaseEnd .tone [.tone 4150]).PhaseOk :=
  ⟨fun _ => by decide, ⟨fun _ => ⟨4150, by decide, by decide, by decide⟩, fun h => absurd h (by decide)⟩,
    fun _ => by decide⟩
/-- The window step is due at `W` and at no other time, and the phase step at its end and at no other time. -/
theorem witness_due :
    rxDue (windowEnd 0 0 .idle [] 0) = true ∧ rxDue { windowEnd 0 0 .idle [] 0 with nowUs := 99999 } = false ∧
      rxDue { windowEnd 0 0 .idle [] 0 with nowUs := 100001 } = false ∧ txDue (phaseEnd .gap []) = true ∧
      txDue { phaseEnd .gap [] with nowUs := 6 } = false ∧ txDue { phaseEnd .gap [] with nowUs := 8 } = false := by decide
/-- TX_FRAME of 129 bytes makes a list of more than 1026 items, and State.reset meets `ItemsOk`. -/
theorem witness_TransmitterMissesNoPhaseEnd_items :
    State.reset.ItemsOk ∧
    ∃ t, step (dueNow (commandWrite 0x00810006) State.reset) = .next t ∧ t.tx.txItems.length > 1024 + 2 :=
  ⟨by unfold State.ItemsOk; decide, _, rfl, by decide +kernel⟩
theorem witness_SymbolFrequencyRoundTrip :
    SymbolAt 66 0x84 ∧ (withOperands 0 0 25).conf.tolHz.toNat ≤ (withOperands 0 0 25).cfg.minSep / 2 := by
  unfold SymbolAt
  decide +kernel
/-- The host's copy of the characters exists: 128 bytes of `TXBUF` converted and their 1024 characters copied. -/
theorem witness_BytesToBitsRoundTrip :
    ∃ t t', 128 ≤ 128 ∧ exec (.b2bits 128) State.reset = .next t ∧
      ∀ j < 8 * 128, txAt t' j = Memory.read t.mem (0x4000 + j) := by
  refine ⟨after (exec (.b2bits 128) State.reset), (after (exec (.b2bits 128) State.reset)).writeMem 0x2000
    (Memory.readBytes (after (exec (.b2bits 128) State.reset)).mem 0x4000 1024), by decide, rfl, fun j h => ?_⟩
  unfold txAt
  rw [State.writeMem_mem, Memory.read_writeBytes_inside _ _ _ _ (by simpa using h)]
  simp

end Sys2Proof.Tests
end

