-- ==== Sys2Proof/Proofs/Configurations.lean ====
section
/-! PROOFS. Which configurations power-on accepts (00_scope.md R10, R11, 20_memory.md R60). The laws about `WfConfig` say
what the check `Config.wf` gives; the lemmas here say what is enough for it. -/

namespace Sys2Proof

/-- The base of a checked configuration is aligned to 32 KiB (R60). -/
theorem WfConfig.coreBase_aligned (c : WfConfig) : c.coreBase % 32768 = 0 := by
  have h := c.isWf
  simp only [Config.wf, Bool.and_eq_true] at h
  obtain ⟨-, haligned⟩ := h
  simpa [Config.baseAligned] using haligned

/-- The range check of R10 on the list of frequencies, from the range of each table entry. -/
theorem Config.freqInRange_of_freqAt {c : Config} (hl : c.freq.length = 67)
    (h : ∀ i < 67, 1 ≤ c.freqAt i ∧ c.freqAt i ≤ 2 ^ 32 - 1) : c.freqInRange = true := by
  simp only [Config.freqInRange, List.all_eq_true, decide_eq_true_eq]
  intro f hf
  obtain ⟨i, hi, rfl⟩ := List.getElem_of_mem hf
  rw [← c.freqAt_eq_getElem i hi]
  exact h i (hl ▸ hi)

/-- The distinctness check of R10 on the list of frequencies, from the distinctness of any two table entries. -/
theorem Config.freqDistinct_of_freqAt_ne {c : Config} (hl : c.freq.length = 67)
    (h : ∀ i j, i < 67 → j < 67 → i ≠ j → c.freqAt i ≠ c.freqAt j) : c.freqDistinct = true := by
  rw [Config.freqDistinct, decide_eq_true_eq, List.pairwise_iff_getElem]
  intro i j hi hj hij
  rw [← c.freqAt_eq_getElem i hi, ← c.freqAt_eq_getElem j hj]
  exact h i j (hl ▸ hi) (hl ▸ hj) hij.ne

/-- The check of a configuration is R10 and R11 read over table indices, with the alignment of R60. -/
theorem Config.wf_iff (c : Config) :
    c.wf = true ↔
      c.freq.length = 67 ∧ (∀ i < 67, 1 ≤ c.freqAt i ∧ c.freqAt i ≤ 2 ^ 32 - 1) ∧
        (∀ i j, i < 67 → j < 67 → i ≠ j → c.freqAt i ≠ c.freqAt j) ∧ c.tolReset ≤ c.minSep / 2 ∧
        1 ≤ c.bitDurReset ∧ c.bitDurReset ≤ 2 ^ 30 ∧ c.coreBase % 32768 = 0 := by
  constructor
  · intro hwf
    let w : WfConfig := { c with isWf := hwf }
    obtain ⟨hpos, hmax⟩ := w.bitDur_range
    exact ⟨w.length_freq, w.freqAt_range, fun _ _ => w.freqAt_ne, w.tolReset_le, hpos, hmax, w.coreBase_aligned⟩
  · rintro ⟨hl, hrange, hne, htol, hpos, hmax, haligned⟩
    simp only [Config.wf, Bool.and_eq_true]
    refine ⟨⟨⟨⟨⟨?total, freqInRange_of_freqAt hl hrange⟩, freqDistinct_of_freqAt_ne hl hne⟩, ?tol⟩, ?bitDur⟩, ?aligned⟩
    case total => exact beq_iff_eq.2 hl
    case tol => exact decide_eq_true htol
    case bitDur => exact decide_eq_true ⟨hpos, hmax⟩
    case aligned => exact beq_iff_eq.2 haligned

end Sys2Proof

namespace Sys2Proof.Machine

theorem State.powerOn?_of_wf {c : Config} (h : c.wf = true) :
    State.powerOn? c = .next (State.powerOn { c with isWf := h }) :=
  dif_pos h

theorem State.powerOn?_of_not_wf {c : Config} (h : ¬ c.wf = true) : State.powerOn? c = .refused .illFormedConfig :=
  dif_neg h

/-- Power-on answers with a state exactly when the check of the configuration passes. -/
theorem State.exists_powerOn?_eq_next_iff (c : Config) : (∃ s, State.powerOn? c = .next s) ↔ c.wf = true := by
  constructor
  · rintro ⟨s, hs⟩
    by_contra hwf
    rw [State.powerOn?_of_not_wf hwf] at hs
    cases hs
  · exact fun hwf => ⟨_, State.powerOn?_of_wf hwf⟩

/-- Settles O24: power-on succeeds exactly when `Config.wf` holds (`State.exists_powerOn?_eq_next_iff`), and that check
is R10, R11 and the alignment of R60 (`Config.wf_iff`). -/
theorem illFormedConfigurationsAreRefused : Obligations.IllFormedConfigurationsAreRefused := by
  intro c
  have hnext := State.exists_powerOn?_eq_next_iff c
  exact ⟨hnext.trans c.wf_iff, fun h => State.powerOn?_of_not_wf (mt hnext.2 h)⟩

end Sys2Proof.Machine
end

section
/-! PROOFS. What a command, a window, a bus write and a step of the host can do, each said once, where the laws do
not say it already (10_state.md, 20_memory.md, 41_codec.md to 44_control.md). -/

namespace Sys2Proof.Machine

/-! ## What a command can do -/

/-- Everything a command can leave behind, by what it is. -/
inductive CommandEffect (s : State) : Instr → State → Prop where
  /-- Only `RESULT` is written: a refused command, or one that has nothing else to do. -/
  | code (i : Instr) (c : ResultCode) : CommandEffect s i (s.setResult c)
  /-- EST, S2F and F2S deliver results (R115, R133, R136). -/
  | deliver (i : Instr) (r : CmdRegs) : CommandEffect s i (({ s with regs := r } : State).setResult .ok)
  /-- B2BITS and BITS2B write into `CVTBUF` (R137, R138). -/
  | convert (i : Instr) (bs : List Byte) (v : Nat) (hsize : bs.length ≤ cvtbufSize) :
      CommandEffect s i (((s.writeMem cvtbufBase bs).setRes v).setResult .ok)
  /-- TX_FRAME and TX_BITS take a free line and start their first tone (R183, R185). -/
  | transmit (i : Instr) (f : Word) (rest : List TxItem) (v : Nat) (hfree : s.tx.txActive = false)
      (hitems : (∃ l, i = .txFrame l ∧ l ≤ txbufSize ∧ (TxItem.tone f :: rest).length = 2 + 8 * l) ∨
        ∃ n, i = .txBits n ∧ n ≤ txbufSize ∧ (TxItem.tone f :: rest).length = 2 + n) :
      CommandEffect s i (((beginTransmission (.tone f :: rest) s).setRes v).setResult .ok)
  /-- TX_ABORT releases a locked line (R190). -/
  | abort (hlocked : s.tx.txActive = true) :
      CommandEffect s .txAbort (((releaseLine (waveOff s)).emit .txAborted s.tx.txDoneN.toNat).setResult .ok)
  /-- RX_START starts a stopped engine with the live configuration (R150). -/
  | rxStart (hstopped : s.rx.rxEn = false) :
      CommandEffect s .rxStart (({ s with
        rx := { rxEn := true, latTol := s.conf.tolHz, latGateLo := s.conf.gateLoHz, latGateHi := s.conf.gateHiHz
                latBitDur := s.conf.bitDurUs, latTimeout := s.conf.timeoutUs, winStart := s.nowUs
                accN := 0, accSat := false, accLast := 0, accSpan := 0
                fdState := .idle, sessBits := [], sessStart := 0 } } : State).setResult .ok)
  /-- RX_STOP stops the engine and discards the session and the accumulators (R151). -/
  | rxStop :
      CommandEffect s .rxStop (({ s with
        rx := { s.rx with
          rxEn := false, fdState := .idle, sessBits := [], sessStart := 0
          accN := 0, accSat := false, accLast := 0, accSpan := 0 } } : State).setResult .ok)
  /-- EVT_POP takes the oldest event away (R202). -/
  | evtPop (r : CmdRegs) :
      CommandEffect s .evtPop
        (({ s with regs := r, irq := { s.irq with evq := s.irq.evq.tail } } : State).setResult .ok)
  /-- SOFT_RESET resets everything but the clock (R203). -/
  | softReset :
      CommandEffect s .softReset (({ State.powerOn s.cfg with nowUs := s.nowUs, env := s.env } : State).setResult .ok)

theorem execB2bits_effect (l : Nat) {s t : State} (h : execB2bits l s = .next t) : CommandEffect s (.b2bits l) t := by
  unfold execB2bits at h
  split at h
  · cases h; exact .code _ _
  · rename_i hl
    cases h
    refine .convert _ _ _ ?_
    rw [length_bytesToChars, length_txBytes]
    simp only [cvtbufSize, txbufSize] at *
    omega

theorem execBits2b_effect (n : Nat) {s t : State} (h : execBits2b n s = .next t) : CommandEffect s (.bits2b n) t := by
  unfold execBits2b at h
  split at h
  · cases h; exact .code _ _
  rename_i hn
  split at h
  · cases h; exact .code _ _
  split at h
  · cases h; exact .code _ _
  · cases h
    refine .convert _ _ _ ?_
    rw [length_packBytes]
    simp only [cvtbufSize, txbufSize] at *
    omega

theorem execTxFrame_effect (l : Nat) {s t : State} (h : execTxFrame l s = .next t) :
    CommandEffect s (.txFrame l) t := by
  unfold execTxFrame at h
  split at h
  · cases h; exact .code _ _
  rename_i hl
  split at h
  · cases h; exact .code _ _
  rename_i hfree
  cases h
  have hlen := length_itemsFrame s.cfg.toConfig (s.txBytes l)
  rw [length_txBytes] at hlen
  exact .transmit _ _ _ _ (by simpa using hfree) (.inl ⟨l, rfl, Nat.le_of_not_gt hl, hlen⟩)

theorem execTxBits_effect (n : Nat) {s t : State} (h : execTxBits n s = .next t) : CommandEffect s (.txBits n) t := by
  unfold execTxBits at h
  split at h
  · cases h; exact .code _ _
  rename_i hn
  split at h
  · cases h; exact .code _ _
  rename_i hfree
  cases h
  have hlen := length_itemsBits s.cfg.toConfig (s.txBytes n)
  rw [length_txBytes] at hlen
  exact .transmit _ _ _ _ (by simpa using hfree) (.inr ⟨n, rfl, Nat.le_of_not_gt hn, hlen⟩)

theorem execEvtPop_effect {s t : State} (h : execEvtPop s = .next t) : CommandEffect s .evtPop t := by
  unfold execEvtPop at h
  split at h
  · cases h; exact .deliver _ _
  · rename_i e rest hq
    cases h
    have := CommandEffect.evtPop (s := s) { s.regs with resLo := e, resHi := BitVec.ofNat 32 rest.length }
    rwa [hq] at this

/-- What a command can do, said once for all thirteen. -/
theorem exec_effect {i : Instr} {s t : State} (h : exec i s = .next t) : CommandEffect s i t := by
  cases i with
  | nop => cases h; exact .code _ _
  | est g n =>
    simp only [exec, execEst] at h
    split at h <;> cases h
    · exact .code _ _
    · exact .deliver _ _
  | s2f c =>
    simp only [exec, execS2f] at h
    split at h <;> cases h
    · exact .code _ _
    · exact .deliver _ _
  | f2s =>
    simp only [exec, execF2s] at h
    split at h
    · cases h; exact .code _ _
    split at h <;> cases h
    · exact .code _ _
    · exact .deliver _ _
  | b2bits l => exact execB2bits_effect l h
  | bits2b n => exact execBits2b_effect n h
  | txFrame l => exact execTxFrame_effect l h
  | txBits n => exact execTxBits_effect n h
  | txAbort =>
    simp only [exec, execTxAbort] at h
    split at h <;> cases h
    · exact .abort ‹_›
    · exact .code _ _
  | rxStart =>
    simp only [exec, execRxStart] at h
    split at h
    · cases h; exact .code _ _
    · rename_i hen
      cases h
      exact .rxStart (by simpa using hen)
  | rxStop => cases h; exact .rxStop
  | evtPop => exact execEvtPop_effect h
  | softReset => cases h; exact .softReset

/-! ## What a window can do to the session, the frame registers and the buffers -/

/-- Everything a window can do to the decode session: nothing, an end, one bit more, or a new session (R158 to R163). -/
inductive SessionStep (r : RxEngine) : RxEngine → Prop where
  | keep : SessionStep r r
  | close : SessionStep r { r with fdState := .idle, sessBits := [] }
  | append (b : Bool) (hframing : r.fdState = .framing) (hroom : r.sessBits.length ≠ bitbufMax) :
      SessionStep r { r with sessBits := r.sessBits ++ [b] }
  | start (now : Word) : SessionStep r { r with fdState := .framing, sessBits := [], sessStart := now }

/-- The frame registers and the buffers that a completed frame leaves (R160). -/
def FrameStored (s t : State) : Prop :=
  t.mem = Memory.writeBytes s.mem rxbufBase (rxbufImage (pack s.rx.sessBits)) ∧
    t.frame = { frameBits := BitVec.ofNat 32 s.rx.sessBits.length, frameSeq := s.frame.frameSeq + 1 }

theorem appendBit_session (b : Bool) {s : State} (h : s.rx.fdState = .framing) :
    SessionStep s.rx (appendBit b s).rx := by
  unfold appendBit
  split
  · exact .close
  · exact .append b h ‹_›

/-- A session ended after an action that started none is a session ended. -/
theorem timeoutTest_session {r : RxEngine} {s : State} (h : SessionStep r s.rx)
    (hstart : s.rx.sessStart = r.sessStart) : SessionStep r (timeoutTest s).rx := by
  rcases timeoutTest_cases s with ht | ht <;> rw [ht]
  · exact h
  · have hclosed : (abandonSession s).rx = { r with fdState := .idle, sessBits := [] } := by
      generalize hq : s.rx = q at h hstart
      show { s.rx with fdState := FdState.idle, sessBits := [] } = _
      rw [hq]
      cases h with
      | start now => cases hstart; rfl
      | _ => rfl
    rw [hclosed]
    exact .close

/-- What a window of a Framing session does before the timeout test (R159 to R162, R164). -/
theorem framingAction_session (k : WinClass) (v : Freq) {s : State} (h : s.rx.fdState = .framing) :
    SessionStep s.rx (framingAction k v s).rx ∧ (framingAction k v s).rx.sessStart = s.rx.sessStart := by
  have happend : ∀ b, (appendBit b s).rx.sessStart = s.rx.sessStart := by
    intro b
    unfold appendBit
    split <;> rfl
  cases k with
  | stop => exact ⟨.close, rfl⟩
  | bit1 => exact ⟨appendBit_session true h, happend true⟩
  | bit0 => exact ⟨appendBit_session false h, happend false⟩
  | other => exact ⟨.keep, rfl⟩
  | start => exact ⟨.keep, rfl⟩
  | none => exact ⟨.keep, rfl⟩

/-- What a window can do to the session. -/
theorem decodeWindow_session (k : WinClass) (v : Freq) (s : State) : SessionStep s.rx (decodeWindow k v s).rx := by
  unfold decodeWindow
  split
  · split
    · exact .start _
    all_goals exact .keep
  · rename_i hframing
    obtain ⟨hsession, hstart⟩ := framingAction_session k v hframing
    exact timeoutTest_session hsession hstart

theorem timeoutTest_store (s : State) : (timeoutTest s).mem = s.mem ∧ (timeoutTest s).frame = s.frame := by
  rcases timeoutTest_cases s with h | h <;> rw [h] <;> exact ⟨rfl, rfl⟩

/-- Only the STOP window of a Framing session writes the frame registers and `RXBUF` (R160). -/
theorem decodeWindow_store (k : WinClass) (v : Freq) (s : State) :
    ((decodeWindow k v s).mem = s.mem ∧ (decodeWindow k v s).frame = s.frame) ∨
      (s.rx.fdState = .framing ∧ k = .stop ∧ FrameStored s (decodeWindow k v s)) := by
  have happend : ∀ b, (appendBit b s).mem = s.mem ∧ (appendBit b s).frame = s.frame := by
    intro b
    unfold appendBit
    split <;> exact ⟨rfl, rfl⟩
  unfold decodeWindow
  split
  · left
    split <;> exact ⟨rfl, rfl⟩
  · rename_i hframing
    unfold FrameStored
    rw [(timeoutTest_store _).1, (timeoutTest_store _).2]
    cases k with
    | stop => exact .inr ⟨hframing, rfl, rfl, rfl⟩
    | bit1 => exact .inl (happend true)
    | bit0 => exact .inl (happend false)
    | other => exact .inl ⟨rfl, rfl⟩
    | start => exact .inl ⟨rfl, rfl⟩
    | none => exact .inl ⟨rfl, rfl⟩

/-- The RX engine after a window step: the session as decoded, and the next window open (R156). -/
theorem rxWindowStep_session (s : State) :
    ∃ r, SessionStep s.rx r ∧ (rxWindowStep s).rx = { r.clearAcc with winStart := s.nowUs } := by
  refine ⟨_, decodeWindow_session (windowClass s) s.rx.winEst s, ?_⟩
  rw [rxWindowStep, openWindow_rx, (decodeWindow_frame _ _ s).2.1]
  rfl

/-- The frame registers and the buffers after a window step. -/
theorem rxWindowStep_store (s : State) :
    ((rxWindowStep s).mem = s.mem ∧ (rxWindowStep s).frame = s.frame) ∨
      (s.rx.fdState = .framing ∧ windowClass s = .stop ∧ FrameStored s (rxWindowStep s)) :=
  decodeWindow_store (windowClass s) s.rx.winEst s

/-! ## What a host access can do to what the host writes -/

theorem targetAt_edgebuf_lt {n k : Nat} (h : targetAt n = .edgebuf k) : k < edgeMax := by
  unfold targetAt at h
  simp only [edgeMax]
  repeat' split at h
  all_goals cases h
  omega

theorem targetAt_txbuf_lt {n k : Nat} (h : targetAt n = .txbuf k) : 4 * k < txbufSize := by
  unfold targetAt at h
  simp only [txbufSize]
  repeat' split at h
  all_goals cases h
  omega

/-- What a host access that runs no command can do to the registers with rules of their own and to the buffers
(R31, R33, R63, R67, R94): it stores a clamped value, a result code, or a block inside the buffers. -/
structure HostWrites (s t : State) : Prop where
  cfg : t.cfg = s.cfg
  result : t.regs.result = s.regs.result ∨ ∃ c : ResultCode, t.regs.result = c.code
  tolHz : t.conf.tolHz = s.conf.tolHz ∨ ∃ w, t.conf.tolHz = tolStore s.cfg.toConfig w
  bitDurUs : t.conf.bitDurUs = s.conf.bitDurUs ∨ ∃ w, t.conf.bitDurUs = bitDurStore w
  mem : t.mem = s.mem ∨ ∃ a bs, (∀ b, a ≤ b → b < a + bs.length → inBuffers b = true) ∧
    t.mem = Memory.writeBytes s.mem a bs

/-- Where the access writes none of the four, it leaves them. -/
theorem HostWrites.of_same {s t : State} (hcfg : t.cfg = s.cfg) (hresult : t.regs.result = s.regs.result)
    (hconf : t.conf = s.conf) (hmem : t.mem = s.mem) : HostWrites s t :=
  ⟨hcfg, .inl hresult, .inl (by rw [hconf]), .inl (by rw [hconf]), .inl hmem⟩

/-- The word of an access into `EDGEBUF` or `TXBUF` lies in the buffers (R63). -/
theorem HostWrites.writeMem (s : State) (w : Word) {a : Nat}
    (h : (edgebufBase ≤ a ∧ a + 4 ≤ edgebufBase + 4 * edgeMax) ∨ (txbufBase ≤ a ∧ a + 4 ≤ txbufBase + txbufSize)) :
    HostWrites s (s.writeMem a (wordBytes w)) := by
  refine ⟨rfl, .inl rfl, .inl rfl, .inl rfl, .inr ⟨a, wordBytes w, fun b hb hb' => ?_, rfl⟩⟩
  rw [length_wordBytes] at hb'
  simp only [inBuffers, Bool.or_eq_true, decide_eq_true_eq]
  omega

theorem writeReg_hostWrites {r : Reg} {w : Word} {s t : State} (h : writeReg r w s = .next t) (hr : r ≠ .cmd) :
    HostWrites s t := by
  cases r with
  | cmd => exact absurd rfl hr
  | tolHz => cases h; exact ⟨rfl, .inl rfl, .inr ⟨w, rfl⟩, .inl rfl, .inl rfl⟩
  | bitDurUs => cases h; exact ⟨rfl, .inl rfl, .inl rfl, .inr ⟨w, rfl⟩, .inl rfl⟩
  | gateLoHz => cases h; exact ⟨rfl, .inl rfl, .inl rfl, .inl rfl, .inl rfl⟩
  | gateHiHz => cases h; exact ⟨rfl, .inl rfl, .inl rfl, .inl rfl, .inl rfl⟩
  | timeoutUs => cases h; exact ⟨rfl, .inl rfl, .inl rfl, .inl rfl, .inl rfl⟩
  | _ => cases h; exact .of_same rfl rfl rfl rfl

/-- A host access runs a command, or it writes as `HostWrites` says. -/
theorem hostAccess_hostWrites {a : HostAccess} {s t : State} (h : hostAccess a s = .next t) :
    (∃ i, exec i s = .next t) ∨ HostWrites s t := by
  cases a with
  | read off sz =>
    simp only [hostAccess] at h
    split at h <;> cases h <;> exact .inr (.of_same rfl rfl rfl rfl)
  | write off sz w =>
    simp only [hostAccess] at h
    split at h
    · rcases htarget : targetAt off.toNat with r | _ | k | k | _ | _ | _ <;> rw [htarget] at h
      case reg =>
        by_cases hr : r = .cmd
        · subst hr
          simp only [writeTarget, writeReg, runCommand] at h
          split at h
          · exact .inl ⟨_, h⟩
          · cases h; exact .inr ⟨rfl, .inr ⟨_, rfl⟩, .inl rfl, .inl rfl, .inl rfl⟩
        · exact .inr (writeReg_hostWrites h hr)
      case edgebuf =>
        have := targetAt_edgebuf_lt htarget
        cases h
        exact .inr (.writeMem s w (.inl (by simp only [Target.offset]; omega)))
      case txbuf =>
        have := targetAt_txbuf_lt htarget
        cases h
        refine .inr (.writeMem s w (.inr ?_))
        simp only [Target.offset, txbufSize] at *
        omega
      all_goals cases h; exact .inr (.of_same rfl rfl rfl rfl)
    · cases h; exact .inr (.of_same rfl rfl rfl rfl)

/-! ## What an answer keeps -/

/-- `exec_frame`, said of the answer. -/
theorem exec_keeps {i : Instr} {s t : State} (h : exec i s = .next t) :
    t.cfg = s.cfg ∧ t.nowUs = s.nowUs ∧ t.env = s.env := by
  obtain ⟨t', ht', hframe⟩ := exec_frame i s
  rw [h] at ht'
  cases ht'
  exact hframe

/-- `hostAccess_frame`, said of the answer. -/
theorem hostAccess_keeps {a : HostAccess} {s t : State} (h : hostAccess a s = .next t) :
    t.cfg = s.cfg ∧ t.nowUs = s.nowUs ∧ t.env = { s.env with rdata := t.env.rdata } := by
  obtain ⟨t', ht', hframe⟩ := hostAccess_frame a s
  rw [h] at ht'
  cases ht'
  exact hframe

/-- An edge step touches only the accumulators and the environment's own fields. -/
theorem nextEdge_frame (s : State) :
    ∃ n sat last span, nextEdge s = { s with
      rx := { s.rx with accN := n, accSat := sat, accLast := last, accSpan := span }
      env := { s.env with turn := .edge, dueEdges := s.env.dueEdges - 1 } } := by
  obtain ⟨n, sat, last, span, h⟩ := edgeCapture_frame
    { s with env := { s.env with turn := .edge, dueEdges := s.env.dueEdges - 1 } }
  exact ⟨n, sat, last, span, h⟩

/-! ## Steps of the host -/

/-- The state in which a step makes the host's next access: that access off the queue, the turn the host's (R72). -/
def State.hostTurn (rest : List HostAccess) (s : State) : State :=
  { s with env := { s.env with turn := .host, dueAccesses := rest } }

theorem NextCommandIs.mono {p q : Instr → Prop} {s : State} (h : NextCommandIs p s) (hpq : ∀ i, p i → q i) :
    NextCommandIs q s := by
  obtain ⟨htx, hrx, hedge, w, rest, i, hdue, hdecode, hp⟩ := h
  exact ⟨htx, hrx, hedge, w, rest, i, hdue, hdecode, hpq i hp⟩

/-- What the step of a host access is, in the words of the statements: it runs the command that is next, or it leaves
both engines and the frame registers, and the interrupt registers change by a W1C write or an illegal access only. -/
theorem accessStep_cases {s t : State} {a : HostAccess} {rest : List HostAccess} (htx : txTurn s = false)
    (hrx : rxTurn s = false) (hedge : edgeTurn s = false) (hdue : s.env.dueAccesses = a :: rest)
    (ha : hostAccess a (s.hostTurn rest) = .next t) :
    (∃ i, (∀ p : Instr → Prop, p i → NextCommandIs p s) ∧ exec i (s.hostTurn rest) = .next t) ∨
    (t.rx = s.rx ∧ t.tx = s.tx ∧ t.frame = s.frame) ∧
      ((∃ w, NextAccessIs (.write 0x048 .word w) s ∧
          t.irq = { s.irq with status := s.irq.status &&& ~~~(w.truncate 10) }) ∨
        (t.irq.evq = s.irq.evq ∧ t.irq.status = s.irq.status) ∨
        (t.irq = { s.irq with status := s.irq.status ||| busErrBit } ∧ NextAccessIsIllegal s)) := by
  have hnext : NextAccessIs a s := ⟨htx, hrx, hedge, rest, hdue⟩
  rcases hostAccess_cases a _ t ha with ⟨w, i, rfl, hdecode, h⟩ | ⟨hframe, hirq⟩
  · exact .inl ⟨i, fun p hp => ⟨htx, hrx, hedge, w, rest, i, hdue, hdecode, hp⟩, h⟩
  · refine .inr ⟨hframe, ?_⟩
    rcases hirq with ⟨w, rfl, hirq⟩ | hsame | ⟨hirq, off, sz, hillegal, hwhich⟩
    · exact .inl ⟨w, hnext, hirq⟩
    · exact .inr (.inl hsame)
    · refine .inr (.inr ⟨hirq, off, sz, hillegal, ?_⟩)
      rcases hwhich with rfl | ⟨w, rfl⟩
      · exact .inl hnext
      · exact .inr ⟨w, hnext⟩

end Sys2Proof.Machine
end

section
/-! PROOFS. What every step keeps (10_state.md R31, R33, R37, R42, R46, R50, 20_memory.md R63, 30_encoding.md R98, R99):
the memory canonical and inside the buffers, the WARL registers legal, the reports and the session within their bounds. -/

namespace Sys2Proof.Machine

/-! ## Memory (R50, R63) -/

theorem State.MemOk.congr {s t : State} (h : s.MemOk) (hmem : t.mem = s.mem) : t.MemOk := by
  unfold State.MemOk
  rw [hmem]
  exact h

/-- A block inside the buffers keeps the memory canonical and inside them. -/
theorem State.MemOk.of_writeBytes {s t : State} (h : s.MemOk) {a : Nat} {bs : List Byte}
    (hin : ∀ b, a ≤ b → b < a + bs.length → inBuffers b = true) (hmem : t.mem = Memory.writeBytes s.mem a bs) :
    t.MemOk := by
  obtain ⟨hwf, hbuf⟩ := h
  unfold State.MemOk
  rw [hmem]
  refine ⟨Memory.wf_writeBytes _ _ _ hwf, fun c hc => ?_⟩
  rcases Memory.mem_writeBytes hc with hc | ⟨hlo, hhi⟩
  · exact hbuf c hc
  · exact hin c.1 hlo hhi

theorem State.MemOk.powerOn (cfg : WfConfig) : (State.powerOn cfg).MemOk :=
  ⟨⟨.nil, fun _ h => nomatch h⟩, fun _ h => nomatch h⟩

theorem exec_memOk {i : Instr} {s t : State} (hs : s.MemOk) (h : exec i s = .next t) : t.MemOk := by
  cases exec_effect h with
  | convert _ bs v hsize =>
    refine hs.of_writeBytes (a := cvtbufBase) (bs := bs) (fun b hlo hhi => ?_) rfl
    simp only [inBuffers, Bool.or_eq_true, decide_eq_true_eq]
    omega
  | softReset => exact (State.MemOk.powerOn s.cfg).congr rfl
  | _ => exact hs.congr rfl

theorem hostAccess_memOk {a : HostAccess} {s t : State} (hs : s.MemOk) (h : hostAccess a s = .next t) :
    t.MemOk := by
  rcases hostAccess_hostWrites h with ⟨i, h⟩ | hw
  · exact exec_memOk hs h
  · rcases hw.mem with hmem | ⟨a, bs, hin, hmem⟩
    · exact hs.congr hmem
    · exact hs.of_writeBytes hin hmem

/-- A completed frame fills `RXBUF` (R160). -/
theorem length_rxbufImage (p : List Byte) : (rxbufImage p).length = rxbufSize := by
  simp only [rxbufImage, List.length_append, List.length_take, List.length_replicate]
  omega

theorem rxWindowStep_memOk {s : State} (hs : s.MemOk) : (rxWindowStep s).MemOk := by
  rcases rxWindowStep_store s with ⟨hmem, -⟩ | ⟨-, -, hmem, -⟩
  · exact hs.congr hmem
  · refine hs.of_writeBytes (fun b hlo hhi => ?_) hmem
    rw [length_rxbufImage] at hhi
    simp only [inBuffers, Bool.or_eq_true, decide_eq_true_eq]
    omega

/-- Settles O55: of the five kinds of step (`step_cases`) only a window step and a host access write memory, and each
writes a block inside the buffers. -/
theorem stepsKeepMemoryCanonical : Obligations.StepsKeepMemoryCanonical := by
  intro s t hs h
  rcases step_cases h with ⟨-, rfl⟩ | ⟨-, -, rfl⟩ | ⟨-, -, -, rfl⟩ | ⟨-, -, -, -, rfl⟩ | ⟨-, -, -, a, rest, -, ha⟩
  · obtain ⟨-, -, -, -, -, -, -, hmem, -⟩ := txPhaseStep_frame (s.setTurn .rx)
    exact hs.congr hmem
  · exact rxWindowStep_memOk hs
  · obtain ⟨_, _, _, _, hedge⟩ := nextEdge_frame s
    exact hs.congr (by rw [hedge])
  · exact hs.congr rfl
  · exact hostAccess_memOk (s := s.hostTurn rest) hs ha

/-! ## The registers with a WARL rule (R31, R33) -/

/-- What `TOL_HZ` stores, as a number. -/
theorem toNat_tolStore (cfg : Config) (v : Word) : (tolStore cfg v).toNat = min v.toNat cfg.tolMax := by
  rw [tolStore, BitVec.toNat_ofNat, Nat.mod_eq_of_lt (Nat.lt_of_le_of_lt (Nat.min_le_left _ _) v.isLt)]

theorem bitDurStore_zero : bitDurStore 0 = 1 := rfl

theorem bitDurStore_above {v : Word} (h : v.toNat > bitDurMax) : bitDurStore v = BitVec.ofNat 32 bitDurMax := by
  have hv : v ≠ 0 := by rintro rfl; simp at h
  rw [bitDurStore, if_neg hv, if_pos h]

theorem bitDurStore_inRange {v : Word} (hv : v ≠ 0) (h : v.toNat ≤ bitDurMax) : bitDurStore v = v := by
  rw [bitDurStore, if_neg hv, if_neg (Nat.not_lt.2 h)]

/-- What `BIT_DUR_US` stores is legal. -/
theorem bitDurStore_range (v : Word) : 1 ≤ (bitDurStore v).toNat ∧ (bitDurStore v).toNat ≤ bitDurMax := by
  by_cases hv : v = 0
  · subst hv
    rw [bitDurStore_zero]
    decide
  · rcases Nat.lt_or_ge bitDurMax v.toNat with h | h
    · rw [bitDurStore_above h]
      decide
    · rw [bitDurStore_inRange hv h]
      exact ⟨Nat.one_le_iff_ne_zero.2 (mt (BitVec.toNat_inj (y := 0)).1 hv), h⟩

theorem State.ConfOk.congr {s t : State} (h : s.ConfOk) (hconf : t.conf = s.conf) (hcfg : t.cfg = s.cfg) :
    t.ConfOk := by
  unfold State.ConfOk
  rw [hconf, hcfg]
  exact h

/-- A bit duration of the configuration fits its register. -/
theorem toNat_bitDurReset (cfg : WfConfig) : (State.powerOn cfg).conf.bitDurUs.toNat = cfg.bitDurReset := by
  have := cfg.bitDur_range
  simp only [bitDurMax] at this
  show (BitVec.ofNat 32 cfg.bitDurReset).toNat = _
  rw [BitVec.toNat_ofNat]
  omega

theorem State.ConfOk.powerOn (cfg : WfConfig) : (State.powerOn cfg).ConfOk := by
  unfold State.ConfOk
  rw [toNat_bitDurReset]
  refine ⟨?_, cfg.bitDur_range⟩
  show (BitVec.ofNat 32 cfg.tolReset).toNat ≤ cfg.tolMax
  rw [BitVec.toNat_ofNat]
  exact Nat.le_trans (Nat.mod_le _ _) cfg.tolReset_le

/-- Only SOFT_RESET among the commands writes the configuration registers. -/
theorem exec_conf {i : Instr} {s t : State} (h : exec i s = .next t) : i = .softReset ∨ t.conf = s.conf := by
  cases exec_effect h with
  | softReset => exact .inl rfl
  | _ => exact .inr rfl

theorem exec_confOk {i : Instr} {s t : State} (hs : s.ConfOk) (h : exec i s = .next t) : t.ConfOk := by
  rcases exec_conf h with rfl | hconf
  · cases h
    exact (State.ConfOk.powerOn s.cfg).congr rfl rfl
  · exact hs.congr hconf (exec_keeps h).1

theorem hostAccess_confOk {a : HostAccess} {s t : State} (hs : s.ConfOk) (h : hostAccess a s = .next t) :
    t.ConfOk := by
  rcases hostAccess_hostWrites h with ⟨i, h⟩ | hw
  · exact exec_confOk hs h
  · obtain ⟨htol, hlo, hhi⟩ := hs
    unfold State.ConfOk
    rw [hw.cfg, ← and_assoc, and_assoc]
    constructor
    · rcases hw.tolHz with h | ⟨w, h⟩ <;> rw [h]
      · exact htol
      · rw [toNat_tolStore]
        exact Nat.min_le_right _ _
    · rcases hw.bitDurUs with h | ⟨w, h⟩ <;> rw [h]
      · exact ⟨hlo, hhi⟩
      · exact bitDurStore_range w

/-- Every step keeps the WARL registers legal. -/
theorem step_confOk {s t : State} (hs : s.ConfOk) (h : step s = .next t) : t.ConfOk := by
  rcases step_cases h with ⟨-, rfl⟩ | ⟨-, -, rfl⟩ | ⟨-, -, -, rfl⟩ | ⟨-, -, -, -, rfl⟩ | ⟨-, -, -, a, rest, -, ha⟩
  · obtain ⟨hcfg, -, -, hconf, -⟩ := txPhaseStep_frame (s.setTurn .rx)
    exact hs.congr hconf hcfg
  · obtain ⟨hcfg, -, -, hconf, -⟩ := rxWindowStep_frame (s.setTurn .edge)
    exact hs.congr hconf hcfg
  · obtain ⟨_, _, _, _, hedge⟩ := nextEdge_frame s
    rw [hedge]
    exact hs
  · exact hs
  · exact hostAccess_confOk (s := s.hostTurn rest) hs ha

/-! ## Result codes and events (R42, R98, R99) -/

/-- The FIFO is within its depth and holds only the codes 1..8: `State.ReportsOk` of the reports alone. -/
def Reports.Bounded (r : Reports) : Prop :=
  r.evq.length ≤ evtDepth ∧ ∀ w ∈ r.evq, 1 ≤ (w.extractLsb' 0 8).toNat ∧ (w.extractLsb' 0 8).toNat ≤ 8

theorem State.reportsOk_iff (s : State) : s.ReportsOk ↔ s.regs.result.toNat ≤ 5 ∧ s.irq.Bounded := Iff.rfl

theorem ResultCode.code_le (c : ResultCode) : c.code.toNat ≤ 5 := by cases c <;> decide

theorem Reports.Bounded.emit {r : Reports} (h : r.Bounded) (e : Event) (p : Nat) : (Reports.emit e p r).Bounded :=
  ⟨Reports.emit_length e p r h.1, Reports.emit_codes e p r h.2⟩

theorem Reports.Bounded.of_evq_sublist {r r' : Reports} (h : r.Bounded) (hq : r'.evq.Sublist r.evq) : r'.Bounded :=
  ⟨Nat.le_trans hq.length_le h.1, fun w hw => h.2 w (hq.subset hw)⟩

theorem Reports.bounded_reset : Reports.reset.Bounded := ⟨Nat.zero_le _, fun _ h => nomatch h⟩

theorem startFrom_bounded {s : State} (h : s.irq.Bounded) (items : List TxItem) :
    (startFrom items s).irq.Bounded := by
  induction items generalizing s with
  | nil => exact h.emit _ _
  | cons i items ih =>
    cases i with
    | tone f => exact h
    | skip j => exact ih (h.emit _ _)

theorem txPhaseStep_bounded {s : State} (h : s.irq.Bounded) : (txPhaseStep s).irq.Bounded := by
  unfold txPhaseStep
  split
  · exact h
  · exact startFrom_bounded (by exact h) _

theorem framingAction_bounded {s : State} (h : s.irq.Bounded) (k : WinClass) (v : Freq) :
    (framingAction k v s).irq.Bounded := by
  have happend : ∀ b, (appendBit b s).irq.Bounded := by
    intro b
    unfold appendBit
    split
    · exact h.emit _ _
    · exact h
  cases k with
  | stop => exact h.emit _ _
  | bit1 => exact happend true
  | bit0 => exact happend false
  | other => exact h.emit _ _
  | start => exact h.emit _ _
  | none => exact h

theorem decodeWindow_bounded {s : State} (h : s.irq.Bounded) (k : WinClass) (v : Freq) :
    (decodeWindow k v s).irq.Bounded := by
  unfold decodeWindow
  split
  · split <;> exact h
  · rcases timeoutTest_cases (framingAction k v s) with ht | ht <;> rw [ht]
    · exact framingAction_bounded h k v
    · exact (framingAction_bounded h k v).emit _ _

/-- Every command ends with a result code of R98. -/
theorem exec_result {i : Instr} {s t : State} (h : exec i s = .next t) : ∃ c : ResultCode, t.regs.result = c.code := by
  have hlast : ∃ c u, t = State.setResult c u := by cases exec_effect h <;> exact ⟨_, _, rfl⟩
  obtain ⟨c, u, rfl⟩ := hlast
  exact ⟨c, rfl⟩

theorem exec_bounded {i : Instr} {s t : State} (hs : s.irq.Bounded) (h : exec i s = .next t) :
    t.irq.Bounded := by
  cases exec_effect h with
  | abort => exact hs.emit _ _
  | evtPop => exact hs.of_evq_sublist (List.tail_sublist _)
  | softReset => exact Reports.bounded_reset
  | _ => exact hs

theorem hostAccess_reportsOk {a : HostAccess} {s t : State} (hs : s.ReportsOk)
    (h : hostAccess a s = .next t) : t.ReportsOk := by
  obtain ⟨hresult, hbounded⟩ := s.reportsOk_iff.1 hs
  rw [State.reportsOk_iff]
  constructor
  · have hcode : t.regs.result = s.regs.result ∨ ∃ c : ResultCode, t.regs.result = c.code := by
      rcases hostAccess_hostWrites h with ⟨i, h⟩ | hw
      · exact .inr (exec_result h)
      · exact hw.result
    rcases hcode with h | ⟨c, h⟩ <;> rw [h]
    · exact hresult
    · exact c.code_le
  · rcases hostAccess_cases a s t h with ⟨_, _, _, _, h⟩ | ⟨-, ⟨_, _, hirq⟩ | ⟨hevq, -⟩ | ⟨hirq, -⟩⟩
    · exact exec_bounded hbounded h
    · exact hbounded.of_evq_sublist (by rw [hirq])
    · exact hbounded.of_evq_sublist (by rw [hevq])
    · exact hbounded.of_evq_sublist (by rw [hirq])

/-- Every step keeps the result code and the FIFO in range. -/
theorem step_reportsOk {s t : State} (hs : s.ReportsOk) (h : step s = .next t) : t.ReportsOk := by
  obtain ⟨hresult, hbounded⟩ := s.reportsOk_iff.1 hs
  rcases step_cases h with ⟨-, rfl⟩ | ⟨-, -, rfl⟩ | ⟨-, -, -, rfl⟩ | ⟨-, -, -, -, rfl⟩ | ⟨-, -, -, a, rest, -, ha⟩
  · obtain ⟨-, -, -, -, hregs, -⟩ := txPhaseStep_frame (s.setTurn .rx)
    exact ⟨by rw [hregs]; exact hresult, txPhaseStep_bounded (s := s.setTurn .rx) hbounded⟩
  · obtain ⟨-, -, -, -, hregs, -⟩ := rxWindowStep_frame (s.setTurn .edge)
    exact ⟨by rw [hregs]; exact hresult, decodeWindow_bounded (s := s.setTurn .edge) hbounded _ _⟩
  · obtain ⟨_, _, _, _, hedge⟩ := nextEdge_frame s
    rw [hedge]
    exact hs
  · exact hs
  · exact hostAccess_reportsOk (s := s.hostTurn rest) hs ha

/-! ## The decode session (R37, R42, R45, R46) -/

theorem State.SessionOk.congr {s t : State} (h : s.SessionOk) (hrx : t.rx = s.rx) (hframe : t.frame = s.frame) :
    t.SessionOk := by
  unfold State.SessionOk
  rw [hrx, hframe]
  exact h

/-- A window keeps the session within its bound and empty while Idle. -/
theorem SessionStep.bounded {r r' : RxEngine} (h : SessionStep r r') (hlen : r.sessBits.length ≤ bitbufMax)
    (hidle : r.fdState = .idle → r.sessBits = []) :
    r'.sessBits.length ≤ bitbufMax ∧ (r'.fdState = .idle → r'.sessBits = []) := by
  cases h with
  | keep => exact ⟨hlen, hidle⟩
  | close => exact ⟨Nat.zero_le _, fun _ => rfl⟩
  | append b hframing hroom =>
    refine ⟨?_, fun h => by rw [hframing] at h; cases h⟩
    rw [List.length_append, List.length_singleton]
    omega
  | start now => exact ⟨Nat.zero_le _, fun _ => rfl⟩

theorem SessionStep.rxEn {r r' : RxEngine} (h : SessionStep r r') : r'.rxEn = r.rxEn := by
  cases h <;> rfl

theorem rxWindowStep_sessionOk {s : State} (hs : s.SessionOk) (hen : s.rx.rxEn = true) :
    (rxWindowStep s).SessionOk := by
  obtain ⟨hlen, hidle, -, hbits⟩ := hs
  obtain ⟨r, hstep, hrx⟩ := rxWindowStep_session s
  obtain ⟨hlen', hidle'⟩ := hstep.bounded hlen hidle
  unfold State.SessionOk
  rw [hrx]
  refine ⟨hlen', hidle', fun h => ?_, ?_⟩
  · have : r.rxEn = false := h
    rw [hstep.rxEn, hen] at this
    cases this
  · rcases rxWindowStep_store s with ⟨-, hframe⟩ | ⟨-, -, -, hframe⟩ <;> rw [hframe]
    · exact hbits
    · rw [BitVec.toNat_ofNat]
      exact Nat.le_trans (Nat.mod_le _ _) hlen

theorem State.SessionOk.powerOn (cfg : WfConfig) : (State.powerOn cfg).SessionOk :=
  ⟨Nat.zero_le _, fun _ => rfl, fun _ => rfl, Nat.zero_le _⟩

theorem exec_sessionOk {i : Instr} {s t : State} (hs : s.SessionOk) (h : exec i s = .next t) : t.SessionOk := by
  obtain ⟨-, -, -, hbits⟩ := id hs
  cases exec_effect h with
  | rxStart => exact ⟨Nat.zero_le _, fun _ => rfl, fun _ => rfl, hbits⟩
  | rxStop => exact ⟨Nat.zero_le _, fun _ => rfl, fun _ => rfl, hbits⟩
  | softReset => exact (State.SessionOk.powerOn s.cfg).congr rfl rfl
  | _ => exact hs.congr rfl rfl

/-- The window step comes only on a running engine (R152). -/
theorem rxEn_of_rxTurn {s : State} (h : rxTurn s = true) : s.rx.rxEn = true := by
  simp only [rxTurn, rxDue, Bool.and_eq_true] at h
  exact h.2.1

/-- Every step keeps the session within its bound. -/
theorem step_sessionOk {s t : State} (hs : s.SessionOk) (h : step s = .next t) : t.SessionOk := by
  rcases step_cases h with ⟨-, rfl⟩ | ⟨-, hturn, rfl⟩ | ⟨-, -, -, rfl⟩ | ⟨-, -, -, -, rfl⟩ | ⟨-, -, -, a, rest, -, ha⟩
  · obtain ⟨-, -, -, -, -, hframe, hrx, -⟩ := txPhaseStep_frame (s.setTurn .rx)
    exact hs.congr hrx hframe
  · exact rxWindowStep_sessionOk (s := s.setTurn .edge) hs (rxEn_of_rxTurn (s := s) hturn)
  · obtain ⟨_, _, _, _, hedge⟩ := nextEdge_frame s
    rw [hedge]
    exact hs
  · exact hs
  · rcases hostAccess_cases a _ t ha with ⟨_, _, _, _, h⟩ | ⟨⟨hrx, -, hframe⟩, -⟩
    · exact exec_sessionOk (s := s.hostTurn rest) hs h
    · exact hs.congr hrx hframe

/-- Settles O56: each of the three is kept by every step on its own. -/
theorem stepsKeepReportsAndSessionBounded : Obligations.StepsKeepReportsAndSessionBounded :=
  fun _ _ ⟨hconf, hreports, hsession⟩ h => ⟨step_confOk hconf h, step_reportsOk hreports h, step_sessionOk hsession h⟩

end Sys2Proof.Machine
end

section
/-! PROOFS. The receiver misses no window (10_state.md R45, 20_memory.md R72, 40_estimator.md R116, 42_frame_decoder.md
R152). Between two steps of other kinds a running engine is strictly inside its window (`State.WindowOpen`); only the
tick that ends the window leaves that, and then the window step is due and comes before anything else. -/

namespace Sys2Proof.Machine

theorem rxDue_iff (s : State) :
    rxDue s = true ↔ s.rx.rxEn = true ∧ (s.nowUs - s.rx.winStart).toNat = 2 * s.rx.latBitDur.toNat := by
  simp only [rxDue, elapsed, RxEngine.window, Bool.and_eq_true, beq_iff_eq]

/-- A running RX engine is inside its window, the end not yet reached: `State.WindowOk` without its last case. -/
def State.WindowOpen (s : State) : Prop :=
  s.rx.rxEn = true →
    1 ≤ s.rx.latBitDur.toNat ∧ s.rx.latBitDur.toNat ≤ bitDurMax ∧
      (elapsed s.nowUs s.rx.winStart).toNat < s.rx.window

theorem State.WindowOpen.windowOk {s : State} (h : s.WindowOpen) : s.WindowOk := fun hen =>
  let ⟨hlo, hhi, hlt⟩ := h hen
  ⟨hlo, hhi, .inl hlt⟩

/-- Where the window step does not come now, the window is still open (R72, R152). -/
theorem State.WindowOk.windowOpen {s : State} (h : s.WindowOk) (hturn : rxTurn s = false) : s.WindowOpen := by
  intro hen
  obtain ⟨hlo, hhi, hlt | ⟨heq, hfirst⟩⟩ := h hen
  · exact ⟨hlo, hhi, hlt⟩
  · have hdue : rxDue s = true := (rxDue_iff s).2 ⟨hen, heq⟩
    have : rxTurn s = true := by rcases hfirst with hf | hf <;> simp [rxTurn, hdue, hf]
    rw [hturn] at this
    cases this

/-- The window is open or not by the run bit, the latched duration, the start and the clock alone. -/
theorem State.WindowOpen.congr {s t : State} (h : s.WindowOpen) (hen : t.rx.rxEn = s.rx.rxEn)
    (hdur : t.rx.latBitDur = s.rx.latBitDur) (hstart : t.rx.winStart = s.rx.winStart) (hnow : t.nowUs = s.nowUs) :
    t.WindowOpen := by
  unfold State.WindowOpen RxEngine.window
  rw [hen, hdur, hstart, hnow]
  exact h

theorem elapsed_self (a : Word) : elapsed a a = 0 := BitVec.sub_self a

/-- A window that starts now is open. -/
theorem State.WindowOpen.of_start {s : State} (hstart : s.rx.winStart = s.nowUs)
    (hdur : 1 ≤ s.rx.latBitDur.toNat ∧ s.rx.latBitDur.toNat ≤ bitDurMax) : s.WindowOpen := by
  refine fun _ => ⟨hdur.1, hdur.2, ?_⟩
  rw [hstart, elapsed_self, RxEngine.window]
  exact Nat.mul_pos Nat.two_pos hdur.1

theorem State.WindowOpen.of_stopped {s : State} (h : s.rx.rxEn = false) : s.WindowOpen := fun hen =>
  absurd (h.symm.trans hen) (by decide)

/-- No command leaves an open window: RX_START opens one with a legal duration, RX_STOP and SOFT_RESET stop
the engine. -/
theorem exec_windowOpen {i : Instr} {s t : State} (hconf : s.ConfOk) (hs : s.WindowOpen) (h : exec i s = .next t) :
    t.WindowOpen := by
  cases exec_effect h with
  | rxStart => exact .of_start rfl hconf.2
  | rxStop => exact .of_stopped rfl
  | softReset => exact .of_stopped rfl
  | _ => exact hs.congr rfl rfl rfl rfl

theorem hostAccess_windowOpen {a : HostAccess} {s t : State} (hconf : s.ConfOk) (hs : s.WindowOpen)
    (h : hostAccess a s = .next t) : t.WindowOpen := by
  rcases hostAccess_cases a s t h with ⟨_, _, _, _, h⟩ | ⟨⟨hrx, -, -⟩, -⟩
  · exact exec_windowOpen hconf hs h
  · obtain ⟨-, hnow, -⟩ := hostAccess_keeps h
    exact hs.congr (by rw [hrx]) (by rw [hrx]) (by rw [hrx]) hnow

theorem SessionStep.latBitDur {r r' : RxEngine} (h : SessionStep r r') : r'.latBitDur = r.latBitDur := by
  cases h <;> rfl

/-- The window step of a running engine opens the next window at once. -/
theorem rxWindowStep_windowOpen {s : State} (hdur : 1 ≤ s.rx.latBitDur.toNat ∧ s.rx.latBitDur.toNat ≤ bitDurMax) :
    (rxWindowStep s).WindowOpen := by
  obtain ⟨r, hstep, hrx⟩ := rxWindowStep_session s
  obtain ⟨-, hnow, -⟩ := rxWindowStep_frame s
  refine .of_start (by rw [hrx, hnow]) ?_
  rw [hrx]
  show 1 ≤ r.latBitDur.toNat ∧ r.latBitDur.toNat ≤ bitDurMax
  rw [hstep.latBitDur]
  exact hdur

/-- One tick more has elapsed after a tick, as long as the time does not wrap. -/
theorem toNat_elapsed_succ (now start : Word) (h : (elapsed now start).toNat < 2 ^ 32 - 1) :
    (elapsed (now + 1) start).toNat = (elapsed now start).toNat + 1 := by
  unfold elapsed at *
  bv_omega

theorem window_le {r : RxEngine} (h : r.latBitDur.toNat ≤ bitDurMax) : r.window ≤ 2 ^ 31 := by
  unfold RxEngine.window
  simp only [bitDurMax] at h
  omega

/-- A tick reaches at most the end of an open window, and then the engines have their turn. -/
theorem tick_windowOk {s : State} (hs : s.WindowOpen) : (tick s).WindowOk := by
  intro hen
  obtain ⟨hlo, hhi, hlt⟩ := hs hen
  have hw := window_le hhi
  have hsucc := toNat_elapsed_succ s.nowUs s.rx.winStart (by omega)
  have hle : (elapsed (s.nowUs + 1) s.rx.winStart).toNat ≤ s.rx.window := by omega
  exact ⟨hlo, hhi, (Nat.lt_or_eq_of_le hle).imp id fun hend => ⟨hend, .inl (Env.advance_turn _)⟩⟩

theorem step_windowOk {s t : State} (hconf : s.ConfOk) (hs : s.WindowOk) (h : step s = .next t) : t.WindowOk := by
  rcases step_cases h with ⟨-, rfl⟩ | ⟨-, hturn, rfl⟩ | ⟨-, hturn, -, rfl⟩ | ⟨-, hturn, -, -, rfl⟩ |
    ⟨-, hturn, -, a, rest, -, ha⟩
  · obtain ⟨-, hnow, henv, -, -, -, hrx, -⟩ := txPhaseStep_frame (s.setTurn .rx)
    intro hen
    rw [hrx] at hen
    obtain ⟨hlo, hhi, hwin⟩ := hs hen
    rw [hrx, hnow, henv]
    exact ⟨hlo, hhi, hwin.imp id fun ⟨heq, _⟩ => ⟨heq, .inr rfl⟩⟩
  · obtain ⟨hlo, hhi, -⟩ := hs (rxEn_of_rxTurn hturn)
    exact (rxWindowStep_windowOpen (s := s.setTurn .edge) ⟨hlo, hhi⟩).windowOk
  · obtain ⟨_, _, _, _, hedge⟩ := nextEdge_frame s
    exact ((hs.windowOpen hturn).congr (by rw [hedge]) (by rw [hedge]) (by rw [hedge]) (by rw [hedge])).windowOk
  · exact tick_windowOk (hs.windowOpen hturn)
  · exact (hostAccess_windowOpen (s := s.hostTurn rest)
      hconf (hs.windowOpen hturn) ha).windowOk

/-! ## The accumulators (R116, R153) -/

/-- Accumulators without an edge are good ones. -/
theorem State.AccOk.of_cleared {s : State} (hn : s.rx.accN = 0) (hspan : s.rx.accSpan = 0)
    (hsat : s.rx.accSat = false) : s.AccOk :=
  ⟨fun _ => ⟨hspan, hsat⟩, fun _ => hn, fun _ h => absurd hn h⟩

theorem State.AccOk.congr {s t : State} (h : s.AccOk) (hrx : t.rx = s.rx) (hnow : t.nowUs = s.nowUs) : t.AccOk := by
  unfold State.AccOk
  rw [hrx, hnow]
  exact h

theorem exec_accOk {i : Instr} {s t : State} (hs : s.AccOk) (h : exec i s = .next t) : t.AccOk := by
  cases exec_effect h with
  | rxStart => exact .of_cleared rfl rfl rfl
  | rxStop => exact .of_cleared rfl rfl rfl
  | softReset => exact .of_cleared rfl rfl rfl
  | _ => exact hs.congr rfl rfl

theorem hostAccess_accOk {a : HostAccess} {s t : State} (hs : s.AccOk) (h : hostAccess a s = .next t) : t.AccOk := by
  rcases hostAccess_cases a s t h with ⟨_, _, _, _, h⟩ | ⟨⟨hrx, -, -⟩, -⟩
  · exact exec_accOk hs h
  · obtain ⟨-, hnow, -⟩ := hostAccess_keeps h
    exact hs.congr hrx hnow

/-- Adding the interval since the last edge keeps the span within the time since the window's start. -/
theorem capture_span_le {now last start : Word} {span : BitVec 64} (hspan : span.toNat ≤ (elapsed last start).toNat)
    (hlast : (elapsed last start).toNat ≤ (elapsed now start).toNat) :
    (span + (elapsed now last).zeroExtend 64).toNat ≤ (elapsed now start).toNat := by
  unfold elapsed at *
  have hinterval : (now - last).toNat = (now - start).toNat - (last - start).toNat := by bv_omega
  have hlt := (now - start).isLt
  rw [BitVec.toNat_add, BitVec.zeroExtend, BitVec.toNat_setWidth, hinterval]
  omega

/-- The edge count never comes back to 0: it is held at its greatest value (R116). -/
theorem capture_accN_ne_zero (t : Word) (r : RxEngine) : (r.capture t).accN ≠ 0 := by
  unfold RxEngine.capture
  split
  · exact (by decide : (1 : Word) ≠ 0)
  · show (if r.accN = BitVec.allOnes 32 then r.accN else r.accN + 1) ≠ 0
    split
    · rename_i h
      rw [h]
      decide
    · rename_i h
      exact fun h0 => h (by rw [BitVec.eq_sub_iff_add_eq.2 h0]; rfl)

theorem capture_rxEn (t : Word) (r : RxEngine) : (r.capture t).rxEn = r.rxEn := by
  unfold RxEngine.capture
  split <;> rfl

theorem edgeCapture_accOk {s : State} (hs : s.AccOk) : (edgeCapture s).AccOk := by
  obtain ⟨hzero, -, hbound⟩ := id hs
  unfold edgeCapture
  split
  · rename_i hen
    have hne := capture_accN_ne_zero s.nowUs s.rx
    refine ⟨fun h => absurd h hne, fun h => ?stopped, fun _ _ => ?bound⟩
    case stopped =>
      have : s.rx.rxEn = false := (capture_rxEn s.nowUs s.rx).symm.trans h
      rw [hen] at this
      cases this
    case bound =>
      simp only
      unfold RxEngine.capture
      split
      · rename_i h0
        simp [(hzero h0).1]
      · rename_i h0
        obtain ⟨hspan, hlast⟩ := hbound hen h0
        exact ⟨capture_span_le hspan hlast, Nat.le_refl _⟩
  · exact hs

/-- A tick inside an open window moves its end away from the last edge. -/
theorem tick_accOk {s : State} (hopen : s.WindowOpen) (hs : s.AccOk) : (tick s).AccOk := by
  obtain ⟨hzero, hstopped, hbound⟩ := hs
  refine ⟨hzero, hstopped, fun hen hn => ?_⟩
  obtain ⟨hspan, hlast⟩ := hbound hen hn
  obtain ⟨-, hhi, hlt⟩ := hopen hen
  have hw := window_le hhi
  have hsucc := toNat_elapsed_succ s.nowUs s.rx.winStart (by omega)
  simp only [tick_rx, tick_nowUs]
  exact ⟨hspan, by omega⟩

theorem step_accOk {s t : State} (hwin : s.WindowOk) (hs : s.AccOk) (h : step s = .next t) : t.AccOk := by
  rcases step_cases h with ⟨-, rfl⟩ | ⟨-, -, rfl⟩ | ⟨-, -, -, rfl⟩ | ⟨-, hturn, -, -, rfl⟩ | ⟨-, -, -, a, rest, -, ha⟩
  · obtain ⟨-, hnow, -, -, -, -, hrx, -⟩ := txPhaseStep_frame (s.setTurn .rx)
    exact hs.congr hrx hnow
  · obtain ⟨r, -, hrx⟩ := rxWindowStep_session (s.setTurn .edge)
    exact .of_cleared (by rw [hrx]; rfl) (by rw [hrx]; rfl) (by rw [hrx]; rfl)
  · exact edgeCapture_accOk hs
  · exact tick_accOk (hwin.windowOpen hturn) hs
  · exact hostAccess_accOk (s := s.hostTurn rest) hs ha

/-- Settles O57: the due test is the elapsed time (`rxDue_iff`); a step that is no window step finds the window open. -/
theorem receiverMissesNoWindow : Obligations.ReceiverMissesNoWindow :=
  ⟨rxDue_iff, fun _ _ ⟨hconf, hwin, hacc⟩ h =>
    ⟨step_confOk hconf h, step_windowOk hconf hwin h, step_accOk hwin hacc h⟩⟩

end Sys2Proof.Machine
end

section
/-! PROOFS. The transmitter misses no phase end (10_state.md R42, R49, 20_memory.md R72, 43_transmit.md R180, R184,
R186). As with the windows of the receiver, the end of an active phase lies strictly ahead (`State.PhaseAhead`) but for the
time value at which the phase step is due. -/

namespace Sys2Proof.Machine

/-! ## The phase step -/

theorem txDue_iff (s : State) : txDue s = true ↔ s.tx.txActive = true ∧ s.nowUs = s.tx.txPhaseEnd := by
  simp only [txDue, Bool.and_eq_true, beq_iff_eq]

/-- Everything a phase step can do to the TX engine (R186, R187): a tone ends; or a gap ends, and the next tone of the
list starts or the transmission is over. -/
theorem txPhaseStep_cases (s : State) :
    (s.tx.txPhase = .tone ∧ (txPhaseStep s).tx = { s.tx with
      waveOn := false, waveFreq := 0, txPhase := .gap, txPhaseEnd := s.nowUs + s.tx.txBitDur }) ∨
    (s.tx.txPhase = .gap ∧ ∃ p f, s.tx.txItems[p]? = some (.tone f) ∧ (txPhaseStep s).tx = { s.tx with
      txDoneN := s.tx.txDoneN + 1, txPos := p, waveOn := true, waveFreq := f, txPhase := .tone
      txPhaseEnd := s.nowUs + s.tx.txBitDur }) ∨
    (s.tx.txPhase = .gap ∧ (txPhaseStep s).tx = { s.tx with
      txDoneN := s.tx.txDoneN + 1, txActive := false, txItems := [], txPos := 0, txPhase := .tone }) := by
  unfold txPhaseStep
  split
  · exact .inl ⟨‹_›, rfl⟩
  rename_i hgap
  right
  unfold startNext
  obtain ⟨js, rest, hitems, ⟨f, rest', rfl, hstart⟩ | ⟨rfl, hstart⟩⟩ := startFrom_cases
    (s.tx.txItems.drop (s.tx.txPos + 1))
    { s with tx := { s.tx with txDoneN := s.tx.txDoneN + 1, txPos := s.tx.txPos + 1 } }
  · refine .inl ⟨hgap, s.tx.txPos + 1 + js.length, f, ?_, ?_⟩
    · rw [← List.getElem?_drop, hitems, List.getElem?_append_right (by simp)]
      simp
    · rw [hstart]
  · exact .inr ⟨hgap, by rw [hstart]⟩

/-! ## The phase end lies ahead -/

/-- The end of an active phase is 1 to `TX_BIT_DUR` ticks ahead: `State.PhaseOk` without its last case. -/
def State.PhaseAhead (s : State) : Prop :=
  s.tx.txActive = true →
    1 ≤ s.tx.txBitDur.toNat ∧ s.tx.txBitDur.toNat ≤ bitDurMax ∧
      1 ≤ (elapsed s.tx.txPhaseEnd s.nowUs).toNat ∧ (elapsed s.tx.txPhaseEnd s.nowUs).toNat ≤ s.tx.txBitDur.toNat

theorem State.PhaseAhead.phaseOk {s : State} (h : s.PhaseAhead) : s.PhaseOk := fun hactive =>
  let ⟨hlo, hhi, hahead⟩ := h hactive
  ⟨hlo, hhi, .inl hahead⟩

/-- Where the phase step does not come now, the phase end lies ahead (R72, R186). -/
theorem State.PhaseOk.phaseAhead {s : State} (h : s.PhaseOk) (hturn : txTurn s = false) : s.PhaseAhead := by
  intro hactive
  obtain ⟨hlo, hhi, hahead | ⟨hend, hfirst⟩⟩ := h hactive
  · exact ⟨hlo, hhi, hahead⟩
  · have hdue : txDue s = true := (txDue_iff s).2 ⟨hactive, hend.symm⟩
    simp [txTurn, hdue, hfirst] at hturn

theorem State.PhaseAhead.congr {s t : State} (h : s.PhaseAhead) (htx : t.tx = s.tx) (hnow : t.nowUs = s.nowUs) :
    t.PhaseAhead := by
  unfold State.PhaseAhead
  rw [htx, hnow]
  exact h

/-- A phase that starts now ends ahead. -/
theorem State.PhaseAhead.of_start {s : State} (hend : s.tx.txPhaseEnd = s.nowUs + s.tx.txBitDur)
    (hdur : 1 ≤ s.tx.txBitDur.toNat ∧ s.tx.txBitDur.toNat ≤ bitDurMax) : s.PhaseAhead := by
  have helapsed : elapsed s.tx.txPhaseEnd s.nowUs = s.tx.txBitDur := by
    rw [hend, elapsed, BitVec.add_comm, BitVec.add_sub_cancel]
  intro _
  rw [helapsed]
  exact ⟨hdur.1, hdur.2, hdur.1, Nat.le_refl _⟩

theorem State.PhaseAhead.of_free {s : State} (h : s.tx.txActive = false) : s.PhaseAhead := fun hactive =>
  absurd (h.symm.trans hactive) (by decide)

theorem exec_phaseAhead {i : Instr} {s t : State} (hconf : s.ConfOk) (hs : s.PhaseAhead) (h : exec i s = .next t) :
    t.PhaseAhead := by
  cases exec_effect h with
  | transmit => exact .of_start rfl hconf.2
  | abort => exact .of_free rfl
  | softReset => exact .of_free rfl
  | _ => exact hs.congr rfl rfl

theorem txPhaseStep_phaseAhead {s : State} (hdur : 1 ≤ s.tx.txBitDur.toNat ∧ s.tx.txBitDur.toNat ≤ bitDurMax) :
    (txPhaseStep s).PhaseAhead := by
  obtain ⟨-, hnow, -⟩ := txPhaseStep_frame s
  rcases txPhaseStep_cases s with ⟨-, htx⟩ | ⟨-, p, f, -, htx⟩ | ⟨-, htx⟩
  · exact .of_start (by rw [htx, hnow]) (by rw [htx]; exact hdur)
  · exact .of_start (by rw [htx, hnow]) (by rw [htx]; exact hdur)
  · exact .of_free (by rw [htx])

/-- A tick brings the phase end one tick nearer. -/
theorem toNat_elapsed_succ_right (finish now : Word) (h : 1 ≤ (elapsed finish now).toNat) :
    (elapsed finish (now + 1)).toNat = (elapsed finish now).toNat - 1 := by
  unfold elapsed at *
  bv_omega

/-- A tick reaches at most the phase end, and then the TX engine has its turn. -/
theorem tick_phaseOk {s : State} (hs : s.PhaseAhead) : (tick s).PhaseOk := by
  intro hactive
  obtain ⟨hlo, hhi, hahead, hle⟩ := hs hactive
  have hpred := toNat_elapsed_succ_right s.tx.txPhaseEnd s.nowUs hahead
  refine ⟨hlo, hhi, ?_⟩
  rcases Nat.eq_zero_or_pos (elapsed s.tx.txPhaseEnd (s.nowUs + 1)).toNat with hzero | hpos
  · exact .inr ⟨by
      show s.tx.txPhaseEnd = s.nowUs + 1
      unfold elapsed at hzero
      bv_omega, Env.advance_turn _⟩
  · exact .inl ⟨hpos, by
      show (elapsed s.tx.txPhaseEnd (s.nowUs + 1)).toNat ≤ s.tx.txBitDur.toNat
      omega⟩

theorem step_phaseOk {s t : State} (hconf : s.ConfOk) (hs : s.PhaseOk) (h : step s = .next t) : t.PhaseOk := by
  rcases step_cases h with ⟨hturn, rfl⟩ | ⟨hturn, -, rfl⟩ | ⟨hturn, -, -, rfl⟩ | ⟨hturn, -, -, -, rfl⟩ |
    ⟨hturn, hrx, hedge, a, rest, hdue, ha⟩
  · have hdue : txDue s = true := by simp only [txTurn, Bool.and_eq_true] at hturn; exact hturn.2
    obtain ⟨hlo, hhi, -⟩ := hs ((txDue_iff s).1 hdue).1
    exact (txPhaseStep_phaseAhead (s := s.setTurn .rx) ⟨hlo, hhi⟩).phaseOk
  · obtain ⟨-, hnow, -, -, -, htx, -⟩ := rxWindowStep_frame (s.setTurn .edge)
    exact ((hs.phaseAhead hturn).congr htx hnow).phaseOk
  · obtain ⟨_, _, _, _, hedge⟩ := nextEdge_frame s
    exact ((hs.phaseAhead hturn).congr (by rw [hedge]) (by rw [hedge])).phaseOk
  · exact tick_phaseOk (hs.phaseAhead hturn)
  · have hahead := hs.phaseAhead hturn
    rcases accessStep_cases hturn hrx hedge hdue ha with ⟨i, -, h⟩ | ⟨⟨-, htx, -⟩, -⟩
    · exact (exec_phaseAhead (s := s.hostTurn rest) hconf hahead h).phaseOk
    · exact (hahead.congr htx (hostAccess_keeps ha).2.1).phaseOk

/-! ## The port agrees with the lock, the phase and the item list -/

/-- `State.LineOk` speaks of the TX engine alone. -/
theorem State.LineOk.congr {s t : State} (h : s.LineOk) (htx : t.tx = s.tx) : t.LineOk := by
  unfold State.LineOk
  rw [htx]
  exact h

/-- The port of a tone phase: the tone at `TX_POS` is on it. -/
theorem State.LineOk.of_tone {s : State} {f : Word} (hactive : s.tx.txActive = true)
    (hitem : s.tx.txItems[s.tx.txPos]? = some (.tone f)) (hphase : s.tx.txPhase = .tone) (hon : s.tx.waveOn = true)
    (hfreq : s.tx.waveFreq = f) : s.LineOk := by
  exact ⟨fun _ => ⟨f, hitem, fun _ => ⟨hon, hfreq⟩, fun h => absurd (hphase.symm.trans h) (by decide)⟩,
    fun h => absurd (hactive.symm.trans h) (by decide)⟩

/-- The port of a free line: off. -/
theorem State.LineOk.of_free {s : State} (hfree : s.tx.txActive = false) (hitems : s.tx.txItems = [])
    (hpos : s.tx.txPos = 0) (hphase : s.tx.txPhase = .tone) (hoff : s.tx.waveOn = false) (hfreq : s.tx.waveFreq = 0) :
    s.LineOk :=
  ⟨fun h => absurd (hfree.symm.trans h) (by decide), fun _ => ⟨hitems, hpos, hphase, hoff, hfreq⟩⟩

theorem exec_lineOk {i : Instr} {s t : State} (hs : s.LineOk) (h : exec i s = .next t) : t.LineOk := by
  cases exec_effect h with
  | transmit => exact .of_tone rfl rfl rfl rfl rfl
  | abort => exact .of_free rfl rfl rfl rfl rfl rfl
  | softReset => exact .of_free rfl rfl rfl rfl rfl rfl
  | _ => exact hs.congr rfl

/-- A phase step of an active transmission keeps the port in agreement: off through the gap, then on for the next
tone. -/
theorem txPhaseStep_lineOk {s : State} (hs : s.LineOk) (hactive : s.tx.txActive = true) : (txPhaseStep s).LineOk := by
  obtain ⟨f, hitem, -, hgap⟩ := hs.1 hactive
  rcases txPhaseStep_cases s with ⟨-, htx⟩ | ⟨-, p, g, hnext, htx⟩ | ⟨hphase, htx⟩
  · unfold State.LineOk
    rw [htx]
    exact ⟨fun _ => ⟨f, hitem, (nomatch ·), fun _ => ⟨rfl, rfl⟩⟩,
      fun h => absurd (hactive.symm.trans h) (by decide)⟩
  · exact .of_tone (f := g) (by rw [htx]; exact hactive) (by rw [htx]; exact hnext) (by rw [htx]) (by rw [htx])
      (by rw [htx])
  · obtain ⟨hoff, hfreq⟩ := hgap hphase
    exact .of_free (by rw [htx]) (by rw [htx]) (by rw [htx]) (by rw [htx]) (by rw [htx]; exact hoff)
      (by rw [htx]; exact hfreq)

theorem txActive_of_txTurn {s : State} (h : txTurn s = true) : s.tx.txActive = true := by
  simp only [txTurn, Bool.and_eq_true] at h
  exact ((txDue_iff s).1 h.2).1

theorem step_lineOk {s t : State} (hs : s.LineOk) (h : step s = .next t) : t.LineOk := by
  rcases step_cases h with ⟨hturn, rfl⟩ | ⟨-, -, rfl⟩ | ⟨-, -, -, rfl⟩ | ⟨-, -, -, -, rfl⟩ |
    ⟨htx, hrx, hedge, a, rest, hdue, ha⟩
  · exact txPhaseStep_lineOk (s := s.setTurn .rx) hs (txActive_of_txTurn (s := s) hturn)
  · obtain ⟨-, -, -, -, -, htx, -⟩ := rxWindowStep_frame (s.setTurn .edge)
    exact hs.congr htx
  · obtain ⟨_, _, _, _, hedge⟩ := nextEdge_frame s
    exact hs.congr (by rw [hedge])
  · exact hs.congr rfl
  · rcases accessStep_cases htx hrx hedge hdue ha with ⟨i, -, h⟩ | ⟨⟨-, htx, -⟩, -⟩
    · exact exec_lineOk (s := s.hostTurn rest) hs h
    · exact hs.congr htx

/-! ## The length of the item list -/

/-- How a step can change the item list: it keeps it, or empties it, or an accepted TX_BITS or TX_FRAME makes it, of one
item for each character or eight for each byte, and START and STOP (R181, R182). -/
theorem step_txItems {s t : State} (h : step s = .next t) :
    t.tx.txItems = s.tx.txItems ∨ t.tx.txItems.length ≤ 2 + txbufSize ∨
      ∃ l, l ≤ txbufSize ∧ t.tx.txItems.length = 2 + 8 * l ∧ NextCommandIs (fun i => i = .txFrame l) s := by
  rcases step_cases h with ⟨-, rfl⟩ | ⟨-, -, rfl⟩ | ⟨-, -, -, rfl⟩ | ⟨-, -, -, -, rfl⟩ |
    ⟨htx, hrx, hedge, a, rest, hdue, ha⟩
  · rcases txPhaseStep_cases (s.setTurn .rx) with ⟨-, htx⟩ | ⟨-, p, f, -, htx⟩ | ⟨-, htx⟩ <;> rw [htx]
    · exact .inl rfl
    · exact .inl rfl
    · exact .inr (.inl (Nat.zero_le _))
  · obtain ⟨-, -, -, -, -, htx, -⟩ := rxWindowStep_frame (s.setTurn .edge)
    exact .inl (by rw [htx]; rfl)
  · obtain ⟨_, _, _, _, hedge⟩ := nextEdge_frame s
    exact .inl (by rw [hedge])
  · exact .inl rfl
  · rcases accessStep_cases htx hrx hedge hdue ha with ⟨i, hi, h⟩ | ⟨⟨-, htx, -⟩, -⟩
    · cases exec_effect h with
      | transmit _ f rest v hfree hitems =>
        right
        rcases hitems with ⟨l, rfl, hl, hlen⟩ | ⟨n, rfl, hn, hlen⟩
        · exact .inr ⟨l, hl, hlen, hi _ rfl⟩
        · exact .inl (by
            show (TxItem.tone f :: rest).length ≤ _
            omega)
      | abort => exact .inr (.inl (Nat.zero_le _))
      | softReset => exact .inr (.inl (Nat.zero_le _))
      | _ => exact .inl rfl
    · exact .inl (by rw [htx])

theorem step_itemsOk {s t : State} (hs : s.ItemsOk) (h : step s = .next t) : t.ItemsOk := by
  unfold State.ItemsOk at *
  rcases step_txItems h with heq | hle | ⟨l, hl, hlen, -⟩
  · rw [heq]
    exact hs
  · omega
  · omega

/-- Settles O58: the due test is the equality with the phase end (`txDue_iff`); a step that is no phase step finds that
end ahead (`step_phaseOk`); the port follows the engine (`step_lineOk`); and only TX_FRAME makes long lists
(`step_txItems`). -/
theorem transmitterMissesNoPhaseEnd : Obligations.TransmitterMissesNoPhaseEnd := by
  refine ⟨txDue_iff, fun s t h => ⟨?_, fun hs => step_itemsOk hs h, fun hlong => ?_⟩⟩
  · rintro ⟨hconf, hline, hphase⟩
    exact ⟨step_confOk hconf h, step_lineOk hline h, step_phaseOk hconf hphase h⟩
  · rcases step_txItems h with heq | hle | ⟨l, hl, hlen, hnext⟩
    · exact .inl heq
    · simp only [txbufSize] at hle
      omega
    · exact .inr (hnext.mono fun i hi => ⟨l, hi, by omega⟩)

end Sys2Proof.Machine
end

section
/-! PROOFS. Who writes what (10_state.md R20, R22, R35, R37, R44, R47, R49) and who reads what (R30, 20_memory.md R69,
43_transmit.md R183, R191): each unit changes only in the steps that its rule names. -/

namespace Sys2Proof.Machine

/-! ## The clock and the configuration -/

/-- Settles O7: the engine steps, the edges and the accesses leave `NOW_US` and the schedule; the one step left is the
tick. -/
theorem onlyTicksMoveTheClock : Obligations.OnlyTicksMoveTheClock := by
  intro s t h
  rcases step_cases h with ⟨-, rfl⟩ | ⟨-, -, rfl⟩ | ⟨-, -, -, rfl⟩ | ⟨htx, hrx, hedge, hdue, rfl⟩ |
    ⟨-, -, -, a, rest, -, ha⟩
  · obtain ⟨-, hnow, henv, -⟩ := txPhaseStep_frame (s.setTurn .rx)
    exact .inl ⟨hnow, by rw [henv]; rfl⟩
  · obtain ⟨-, hnow, henv, -⟩ := rxWindowStep_frame (s.setTurn .edge)
    exact .inl ⟨hnow, by rw [henv]; rfl⟩
  · obtain ⟨_, _, _, _, hedge⟩ := nextEdge_frame s
    exact .inl ⟨by rw [hedge], by rw [hedge]⟩
  · exact .inr ⟨rfl, rfl, BitVec.toNat_add _ _, Env.advance_turn _, htx, hrx, hedge, hdue⟩
  · obtain ⟨-, hnow, henv⟩ := hostAccess_keeps ha
    exact .inl ⟨hnow, by rw [henv]⟩

/-- No step changes the configuration. -/
theorem step_cfg {s t : State} (h : step s = .next t) : t.cfg = s.cfg := by
  rcases step_cases h with ⟨-, rfl⟩ | ⟨-, -, rfl⟩ | ⟨-, -, -, rfl⟩ | ⟨-, -, -, -, rfl⟩ | ⟨-, -, -, a, rest, -, ha⟩
  · exact (txPhaseStep_frame (s.setTurn .rx)).1
  · exact (rxWindowStep_frame (s.setTurn .edge)).1
  · obtain ⟨_, _, _, _, hedge⟩ := nextEdge_frame s
    rw [hedge]
  · rfl
  · exact (hostAccess_keeps ha).1

/-- Settles O9 (`step_cfg`). -/
theorem stepsKeepConfiguration : Obligations.StepsKeepConfiguration := fun _ _ h => step_cfg h

/-! ## The reports -/

/-- The bits of `IRQ_STATUS` after a write of `w` to it (R35, R67). -/
theorem getLsbD_clearWritten (st : BitVec 10) (w : Word) (k : Nat) :
    (st &&& ~~~(w.truncate 10)).getLsbD k = (st.getLsbD k && !w.getLsbD k) := by
  rcases Nat.lt_or_ge k 10 with hk | hk
  · simp [hk]
  · simp [BitVec.getLsbD_of_ge st k hk]

/-- Everything a step can do to the FIFO and `IRQ_STATUS`, by the agent that takes it (R35, R224, R228). -/
inductive ReportStep (s t : State) : Prop where
  | phase (htx : txTurn s = true) (h : Reports.Grows 6 7 s.irq t.irq)
  | window (htx : txTurn s = false) (hrx : rxTurn s = true) (h : Reports.Grows 1 5 s.irq t.irq)
  | abort (hnext : NextCommandIs (fun i => i = .txAbort) s) (h : Reports.Grows 8 8 s.irq t.irq)
  | pop (hnext : NextCommandIs (fun i => i = .evtPop) s) (h : t.irq = { s.irq with evq := s.irq.evq.tail })
  | reset (hnext : NextCommandIs (fun i => i = .softReset) s) (h : t.irq = Reports.reset)
  | clear (w : Word) (hnext : NextAccessIs (.write 0x048 .word w) s)
      (h : t.irq = { s.irq with status := s.irq.status &&& ~~~(w.truncate 10) })
  | busError (hnext : NextAccessIsIllegal s) (h : t.irq = { s.irq with status := s.irq.status ||| busErrBit })
  | same (hevq : t.irq.evq = s.irq.evq) (hstatus : t.irq.status = s.irq.status)

theorem step_reports {s t : State} (h : step s = .next t) : ReportStep s t := by
  rcases step_cases h with ⟨htx, rfl⟩ | ⟨htx, hrx, rfl⟩ | ⟨-, -, -, rfl⟩ | ⟨-, -, -, -, rfl⟩ |
    ⟨htx, hrx, hedge, a, rest, hdue, ha⟩
  · exact .phase htx (txPhaseStep_grows _)
  · exact .window htx hrx (rxWindowStep_grows _)
  · obtain ⟨_, _, _, _, hedge⟩ := nextEdge_frame s
    exact .same (by rw [hedge]) (by rw [hedge])
  · exact .same rfl rfl
  · rcases accessStep_cases htx hrx hedge hdue ha with
      ⟨i, hi, h⟩ | ⟨-, ⟨w, hw, hirq⟩ | ⟨hevq, hstatus⟩ | ⟨hirq, hillegal⟩⟩
    · rcases exec_reports i _ t h with ⟨rfl, hgrows⟩ | ⟨rfl, hirq⟩ | ⟨rfl, hirq⟩ | hirq
      · exact .abort (hi _ rfl) hgrows
      · exact .pop (hi _ rfl) hirq
      · exact .reset (hi _ rfl) hirq
      · exact .same (by rw [hirq]; rfl) (by rw [hirq]; rfl)
    · exact .clear w hw hirq
    · exact .same hevq hstatus
    · exact .busError hillegal hirq

theorem Reports.Grows.queuesOnly {lo hi : Nat} {s t : State} (h : Reports.Grows lo hi s.irq t.irq) :
    QueuesOnly lo hi s t := h.1

/-- The steps that queue events, and what each queues. -/
theorem step_queues {s t : State} (h : step s = .next t) :
    (txTurn s = true ∧ QueuesOnly 6 7 s t) ∨ (txTurn s = false ∧ rxTurn s = true ∧ QueuesOnly 1 5 s t) ∨
      (NextCommandIs (fun i => i = .txAbort) s ∧ QueuesOnly 8 8 s t) ∨
      (NextCommandIs (fun i => i = .evtPop) s ∧ t.irq.evq = s.irq.evq.tail) ∨
      (NextCommandIs (fun i => i = .softReset) s ∧ t.irq.evq = []) ∨ t.irq.evq = s.irq.evq := by
  cases step_reports h with
  | phase htx hgrows => exact .inl ⟨htx, hgrows.queuesOnly⟩
  | window htx hrx hgrows => exact .inr (.inl ⟨htx, hrx, hgrows.queuesOnly⟩)
  | abort hnext hgrows => exact .inr (.inr (.inl ⟨hnext, hgrows.queuesOnly⟩))
  | pop hnext hirq => exact .inr (.inr (.inr (.inl ⟨hnext, by rw [hirq]⟩)))
  | reset hnext hirq => exact .inr (.inr (.inr (.inr (.inl ⟨hnext, by rw [hirq]; rfl⟩))))
  | clear w _ hirq => exact .inr (.inr (.inr (.inr (.inr (by rw [hirq])))))
  | busError _ hirq => exact .inr (.inr (.inr (.inr (.inr (by rw [hirq])))))
  | same hevq _ => exact .inr (.inr (.inr (.inr (.inr hevq))))

/-- A bit that two states share is not 0 in one and 1 in the other. -/
theorem not_false_and_true_of_eq {a b : Bool} (heq : a = b) (h0 : a = false) (h1 : b = true) : False := by
  rw [heq, h1] at h0
  cases h0

/-- The steps that raise a bit of `IRQ_STATUS`, and which bits each raises (R35). -/
theorem step_raises {s t : State} (h : step s = .next t) (k : Nat) (h0 : s.irq.status.getLsbD k = false)
    (h1 : t.irq.status.getLsbD k = true) :
    (k < 5 ∧ txTurn s = false ∧ rxTurn s = true) ∨ ((k = 5 ∨ k = 6) ∧ txTurn s = true) ∨
      (k = 7 ∧ NextCommandIs (fun i => i = .txAbort) s) ∨
      (k = 8 ∧ (txTurn s = true ∨ rxTurn s = true ∨ NextCommandIs (fun i => i = .txAbort) s)) ∨
      (k = 9 ∧ NextAccessIsIllegal s) := by
  cases step_reports h with
  | phase htx hgrows =>
    rcases (hgrows.2 k).2 h0 h1 with ⟨hlo, hhi⟩ | h8
    · exact .inr (.inl ⟨by omega, htx⟩)
    · exact .inr (.inr (.inr (.inl ⟨h8, .inl htx⟩)))
  | window htx hrx hgrows =>
    rcases (hgrows.2 k).2 h0 h1 with ⟨-, hhi⟩ | h8
    · exact .inl ⟨by omega, htx, hrx⟩
    · exact .inr (.inr (.inr (.inl ⟨h8, .inr (.inl hrx)⟩)))
  | abort hnext hgrows =>
    rcases (hgrows.2 k).2 h0 h1 with ⟨hlo, hhi⟩ | h8
    · exact .inr (.inr (.inl ⟨by omega, hnext⟩))
    · exact .inr (.inr (.inr (.inl ⟨h8, .inr (.inr hnext)⟩)))
  | pop _ hirq => exact (not_false_and_true_of_eq (by rw [hirq]) h0 h1).elim
  | reset _ hirq =>
    rw [hirq, Reports.reset] at h1
    simp at h1
  | clear w _ hirq =>
    rw [hirq, getLsbD_clearWritten, h0] at h1
    cases h1
  | busError hillegal hirq =>
    rw [hirq, BitVec.getLsbD_or, h0, busErrBit, getLsbD_irqBit] at h1
    simp only [Bool.false_or, Bool.and_eq_true, beq_iff_eq] at h1
    exact .inr (.inr (.inr (.inr ⟨h1.2, hillegal⟩)))
  | same _ hstatus => exact (not_false_and_true_of_eq (by rw [hstatus]) h0 h1).elim

/-- Only TX_ABORT, EVT_POP and SOFT_RESET touch the reports, and only the first adds an event. -/
theorem exec_events {i : Instr} {s t : State} (h : exec i s = .next t) :
    (i ≠ .txAbort → i ≠ .evtPop → i ≠ .softReset → t.irq = s.irq) ∧
      (t.irq.evq.length > s.irq.evq.length → i = .txAbort) := by
  rcases exec_reports i s t h with ⟨rfl, -⟩ | ⟨rfl, hirq⟩ | ⟨rfl, hirq⟩ | hirq
  · exact ⟨fun hne => absurd rfl hne, fun _ => rfl⟩
  · refine ⟨fun _ hne => absurd rfl hne, fun hlong => ?_⟩
    rw [hirq, List.length_tail] at hlong
    omega
  · refine ⟨fun _ _ hne => absurd rfl hne, fun hlong => ?_⟩
    rw [hirq] at hlong
    exact absurd hlong (Nat.not_lt_zero _)
  · refine ⟨fun _ _ _ => hirq, fun hlong => ?_⟩
    rw [hirq] at hlong
    exact absurd hlong (Nat.lt_irrefl _)

/-- Settles O39. -/
theorem onlyTransmitCommandsMakeEvents : Obligations.OnlyTransmitCommandsMakeEvents :=
  ⟨fun _ _ _ h => exec_events h, fun _ _ h => ⟨step_queues h, step_raises h⟩⟩

/-- The steps that clear a bit of `IRQ_STATUS` (R35, R228). -/
theorem step_clears {s t : State} (h : step s = .next t) (k : Nat) (h1 : s.irq.status.getLsbD k = true)
    (h0 : t.irq.status.getLsbD k = false) :
    (∃ w : Word, NextAccessIs (.write 0x048 .word w) s ∧ w.getLsbD k = true) ∨
      NextCommandIs (fun i => i = .softReset) s := by
  have hgrown : ∀ {lo hi}, ¬ Reports.Grows lo hi s.irq t.irq := fun hgrows =>
    absurd (h0.symm.trans ((hgrows.2 k).1 h1)) (by decide)
  cases step_reports h with
  | phase _ hgrows => exact absurd hgrows hgrown
  | window _ _ hgrows => exact absurd hgrows hgrown
  | abort _ hgrows => exact absurd hgrows hgrown
  | pop _ hirq => exact (not_false_and_true_of_eq (by rw [hirq]) h0 h1).elim
  | reset hnext _ => exact .inr hnext
  | clear w hw hirq =>
    rw [hirq, getLsbD_clearWritten, h1] at h0
    exact .inl ⟨w, hw, by simpa using h0⟩
  | busError _ hirq =>
    rw [hirq, BitVec.getLsbD_or, h1] at h0
    cases h0
  | same _ hstatus => exact (not_false_and_true_of_eq (by rw [hstatus]) h0 h1).elim

/-! ## The engines and the frame registers -/

/-- Settles O51: the TX phase step and the tick leave the RX engine, the edges write its accumulators only, and the
commands that write it are named (`exec_rx`). -/
theorem onlyReceiverStepsWriteReceiver : Obligations.OnlyReceiverStepsWriteReceiver := by
  intro s t h hne
  rcases step_cases h with ⟨-, rfl⟩ | ⟨htx, hrx, -⟩ | ⟨htx, hrx, hedge, rfl⟩ | ⟨-, -, -, -, rfl⟩ |
    ⟨htx, hrx, hedge, a, rest, hdue, ha⟩
  · obtain ⟨-, -, -, -, -, -, hsame, -⟩ := txPhaseStep_frame (s.setTurn .rx)
    exact absurd hsame hne
  · exact .inl ⟨htx, hrx⟩
  · obtain ⟨_, _, _, _, heq⟩ := nextEdge_frame s
    exact .inr (.inl ⟨htx, hrx, hedge, by rw [heq]⟩)
  · exact absurd rfl hne
  · rcases accessStep_cases htx hrx hedge hdue ha with ⟨i, hi, h⟩ | ⟨⟨hsame, -, -⟩, -⟩
    · rcases exec_rx i _ t h with hwhich | hsame
      · exact .inr (.inr (hi _ hwhich))
      · exact absurd hsame hne
    · exact absurd hsame hne

/-- The only commands that touch the TX engine and the waveform port (R49, R183, R185, R190, R203). -/
theorem exec_tx {i : Instr} {s t : State} (h : exec i s = .next t) :
    ((∃ n, i = .txFrame n) ∨ (∃ n, i = .txBits n) ∨ i = .txAbort ∨ i = .softReset) ∨ t.tx = s.tx := by
  cases exec_effect h with
  | transmit _ f rest v hfree hitems =>
    rcases hitems with ⟨l, rfl, -⟩ | ⟨n, rfl, -⟩
    · exact .inl (.inl ⟨l, rfl⟩)
    · exact .inl (.inr (.inl ⟨n, rfl⟩))
  | abort => exact .inl (.inr (.inr (.inl rfl)))
  | softReset => exact .inl (.inr (.inr (.inr rfl)))
  | _ => exact .inr rfl

/-- Which steps touch the TX engine at all. -/
theorem step_tx {s t : State} (h : step s = .next t) (hne : t.tx ≠ s.tx) :
    txTurn s = true ∨
      NextCommandIs (fun i => (∃ n, i = .txFrame n) ∨ (∃ n, i = .txBits n) ∨ i = .txAbort ∨ i = .softReset) s := by
  rcases step_cases h with ⟨htx, -⟩ | ⟨-, -, rfl⟩ | ⟨-, -, -, rfl⟩ | ⟨-, -, -, -, rfl⟩ |
    ⟨htx, hrx, hedge, a, rest, hdue, ha⟩
  · exact .inl htx
  · obtain ⟨-, -, -, -, -, hsame, -⟩ := rxWindowStep_frame (s.setTurn .edge)
    exact absurd hsame hne
  · obtain ⟨_, _, _, _, heq⟩ := nextEdge_frame s
    exact absurd (by rw [heq]) hne
  · exact absurd rfl hne
  · rcases accessStep_cases htx hrx hedge hdue ha with ⟨i, hi, h⟩ | ⟨⟨-, hsame, -⟩, -⟩
    · rcases exec_tx h with hwhich | hsame
      · exact .inr (hi _ hwhich)
      · exact absurd hsame hne
    · exact absurd hsame hne

/-- Settles O52: the port is part of the TX engine (`step_tx`). -/
theorem onlyTransmitStepsWriteWaveform : Obligations.OnlyTransmitStepsWriteWaveform := by
  intro s t h hport
  refine step_tx h fun hsame => ?_
  rw [hsame] at hport
  exact hport.elim (absurd rfl) (absurd rfl)

/-- Settles O53: a window step writes the frame registers only at a STOP window of a Framing session
(`rxWindowStep_store`), and SOFT_RESET is the one command that does (`exec_frameRegs`). -/
theorem frameRegistersChangeOnlyAtCompletion : Obligations.FrameRegistersChangeOnlyAtCompletion := by
  intro s t h hne
  rcases step_cases h with ⟨-, rfl⟩ | ⟨htx, hrx, rfl⟩ | ⟨-, -, -, rfl⟩ | ⟨-, -, -, -, rfl⟩ |
    ⟨htx, hrx, hedge, a, rest, hdue, ha⟩
  · obtain ⟨-, -, -, -, -, hsame, -⟩ := txPhaseStep_frame (s.setTurn .rx)
    exact absurd hsame hne
  · rcases rxWindowStep_store (s.setTurn .edge) with ⟨-, hsame⟩ | ⟨hframing, hstop, -, hframe⟩
    · exact absurd hsame hne
    · exact .inl ⟨htx, hrx, hframing, hstop, by rw [hframe]; rfl, by rw [hframe]; rfl⟩
  · obtain ⟨_, _, _, _, heq⟩ := nextEdge_frame s
    exact absurd (by rw [heq]) hne
  · exact absurd rfl hne
  · rcases accessStep_cases htx hrx hedge hdue ha with ⟨i, hi, h⟩ | ⟨⟨-, -, hsame⟩, -⟩
    · rcases exec_frameRegs i _ t h with rfl | hsame
      · exact .inr (hi _ rfl)
      · exact absurd hsame hne
    · exact absurd hsame hne

/-! ## What the engines read -/

/-- `StartNext` reads neither the configuration registers nor memory nor the RX engine (R183, R191). -/
theorem startFrom_others (items : List TxItem) (s : State) (c : ConfRegs) (m : Memory) (r : RxEngine) :
    startFrom items { s with conf := c, mem := m, rx := r } =
      { startFrom items s with conf := c, mem := m, rx := r } := by
  induction items generalizing s with
  | nil => rfl
  | cons i items ih =>
    cases i with
    | tone f => rfl
    | skip j => exact ih { s.emit .txSkip j with tx := { s.tx with txPos := s.tx.txPos + 1 } }

theorem txPhaseStep_others (s : State) (c : ConfRegs) (m : Memory) (r : RxEngine) :
    txPhaseStep { s with conf := c, mem := m, rx := r } = { txPhaseStep s with conf := c, mem := m, rx := r } := by
  unfold txPhaseStep
  cases hphase : s.tx.txPhase with
  | tone => rfl
  | gap =>
    exact startFrom_others _ { s with tx := { s.tx with txDoneN := s.tx.txDoneN + 1, txPos := s.tx.txPos + 1 } } c m r

theorem appendBit_others (b : Bool) (s : State) (c : ConfRegs) (e : TxEngine) :
    appendBit b { s with conf := c, tx := e } = { appendBit b s with conf := c, tx := e } := by
  unfold appendBit
  split <;> rfl

theorem framingAction_others (k : WinClass) (v : Freq) (s : State) (c : ConfRegs) (e : TxEngine) :
    framingAction k v { s with conf := c, tx := e } = { framingAction k v s with conf := c, tx := e } := by
  cases k with
  | bit1 => exact appendBit_others true s c e
  | bit0 => exact appendBit_others false s c e
  | _ => rfl

theorem timeoutTest_others (s : State) (c : ConfRegs) (e : TxEngine) :
    timeoutTest { s with conf := c, tx := e } = { timeoutTest s with conf := c, tx := e } := by
  unfold timeoutTest
  split <;> rfl

theorem decodeWindow_others (k : WinClass) (v : Freq) (s : State) (c : ConfRegs) (e : TxEngine) :
    decodeWindow k v { s with conf := c, tx := e } = { decodeWindow k v s with conf := c, tx := e } := by
  unfold decodeWindow
  cases hstate : s.rx.fdState with
  | idle => cases k <;> rfl
  | framing =>
    simp only
    rw [framingAction_others, timeoutTest_others]

/-- The window step reads neither the configuration registers nor the TX engine (R30, R191). -/
theorem rxWindowStep_others (s : State) (c : ConfRegs) (e : TxEngine) :
    rxWindowStep { s with conf := c, tx := e } = { rxWindowStep s with conf := c, tx := e } :=
  congrArg openWindow (decodeWindow_others (windowClass s) s.rx.winEst s c e)

theorem edgeCapture_others (s : State) (c : ConfRegs) (e : TxEngine) :
    edgeCapture { s with conf := c, tx := e } = { edgeCapture s with conf := c, tx := e } := by
  unfold edgeCapture
  split <;> rfl

/-- Settles O50: each engine's step commutes with any change of what it does not own (`txPhaseStep_others`,
`rxWindowStep_others`, `edgeCapture_others`), and each due test reads its own engine and the clock only. -/
theorem enginesReadOnlyTheirOwnState : Obligations.EnginesReadOnlyTheirOwnState := by
  refine ⟨fun s c => ⟨?txConf, ?rxConf, ?edgeConf, rfl, rfl⟩, fun s m r => ⟨?txOther, rfl⟩,
    fun s e => ⟨?rxOther, ?edgeOther, rfl⟩⟩
  case txConf =>
    obtain ⟨-, -, -, -, -, -, hrx, hmem, -⟩ := txPhaseStep_frame s
    rw [txPhaseStep_others s c s.mem s.rx, ← hrx, ← hmem]
  case txOther =>
    obtain ⟨-, -, -, hconf, -⟩ := txPhaseStep_frame s
    rw [txPhaseStep_others s s.conf m r, ← hconf]
  case rxConf =>
    obtain ⟨-, -, -, -, -, htx, -⟩ := rxWindowStep_frame s
    rw [rxWindowStep_others s c s.tx, ← htx]
  case rxOther =>
    obtain ⟨-, -, -, hconf, -⟩ := rxWindowStep_frame s
    rw [rxWindowStep_others s s.conf e, ← hconf]
  case edgeConf =>
    obtain ⟨_, _, _, _, hedge⟩ := edgeCapture_frame s
    rw [edgeCapture_others s c s.tx, hedge]
  case edgeOther =>
    obtain ⟨_, _, _, _, hedge⟩ := edgeCapture_frame s
    rw [edgeCapture_others s s.conf e, hedge]

/-! ## Reset -/

/-- Every power-on reset state meets every invariant (R42, R50, R252). -/
theorem State.inv_powerOn (cfg : WfConfig) : (State.powerOn cfg).Inv where
  mem := .powerOn cfg
  conf := .powerOn cfg
  reports := ⟨Nat.zero_le _, Reports.bounded_reset⟩
  session := .powerOn cfg
  window := State.WindowOpen.windowOk (.of_stopped rfl)
  acc := .of_cleared rfl rfl rfl
  line := .of_free rfl rfl rfl rfl rfl rfl
  phase := State.PhaseAhead.phaseOk (.of_free rfl)
  items := Nat.zero_le _
  turn := fun h => nomatch h

/-- Settles O54. -/
theorem powerOnMeetsInvariants : Obligations.PowerOnMeetsInvariants :=
  ⟨State.inv_powerOn, State.inv_powerOn exampleWf⟩

end Sys2Proof.Machine
end

section
/-! PROOFS. The host bus (20_memory.md R60 to R67): what a word access does at each kind of offset, the interrupt
registers, `STATUS`, and the command that a write to `CMD` runs. -/

namespace Sys2Proof.Machine

/-! ## Word accesses -/

theorem legalAccess_word {off : BitVec 15} (h : off.toNat % 4 = 0) : legalAccess off .word = true := by
  simp [legalAccess, h]

theorem hostAccess_readWord {off : BitVec 15} (h : off.toNat % 4 = 0) (s : State) :
    hostAccess (.read off .word) s = .next (s.busReturn (readTarget (targetAt off.toNat) s)) := by
  simp only [hostAccess, legalAccess_word h, if_true]

theorem hostAccess_writeWord {off : BitVec 15} (h : off.toNat % 4 = 0) (w : Word) (s : State) :
    hostAccess (.write off .word w) s = writeTarget (targetAt off.toNat) w s := by
  simp only [hostAccess, legalAccess_word h, if_true]

/-- A word read at a register's offset (10_state.md section 4). -/
theorem hostAccess_readReg (r : Reg) (s : State) :
    hostAccess (.read (BitVec.ofNat 15 r.offset) .word) s = .next (s.busReturn (readReg r s)) := by
  cases r <;> rfl

/-- A word written at a register's offset. -/
theorem hostAccess_writeReg (r : Reg) (w : Word) (s : State) :
    hostAccess (.write (BitVec.ofNat 15 r.offset) .word w) s = writeReg r w s := by
  cases r <;> rfl

/-! ## The address map (R63) -/

theorem targetAt_freqTbl {n : Nat} (hlo : 0x400 ≤ n) (hhi : n < 0x800) : targetAt n = .freqTbl ((n - 0x400) / 4) := by
  rw [targetAt, if_neg (by omega), if_neg (by omega), if_pos hhi]

theorem targetAt_edgebuf {n : Nat} (hlo : 0x1000 ≤ n) (hhi : n < 0x2000) :
    targetAt n = .edgebuf ((n - 0x1000) / 4) := by
  rw [targetAt, if_neg (by omega), if_neg (by omega), if_neg (by omega), if_neg (by omega), if_pos hhi]

theorem targetAt_txbuf {n : Nat} (hlo : 0x2000 ≤ n) (hhi : n < 0x2400) : targetAt n = .txbuf ((n - 0x2000) / 4) := by
  rw [targetAt, if_neg (by omega), if_neg (by omega), if_neg (by omega), if_neg (by omega), if_neg (by omega),
    if_pos hhi]

theorem targetAt_rxbuf {n : Nat} (hlo : 0x2400 ≤ n) (hhi : n < 0x2800) : targetAt n = .rxbuf ((n - 0x2400) / 4) := by
  rw [targetAt, if_neg (by omega), if_neg (by omega), if_neg (by omega), if_neg (by omega), if_neg (by omega),
    if_neg (by omega), if_pos hhi]

theorem targetAt_cvtbuf {n : Nat} (hlo : 0x4000 ≤ n) (hhi : n < 0x6000) : targetAt n = .cvtbuf ((n - 0x4000) / 4) := by
  rw [targetAt, if_neg (by omega), if_neg (by omega), if_neg (by omega), if_neg (by omega), if_neg (by omega),
    if_neg (by omega), if_neg (by omega), if_neg (by omega), if_pos hhi]

/-- A read in a byte buffer returns the word at the offset. -/
theorem hostAccess_readByteBuffer {off : BitVec 15} (h : off.toNat % 4 = 0)
    (hin : (0x2000 ≤ off.toNat ∧ off.toNat < 0x2800) ∨ (0x4000 ≤ off.toNat ∧ off.toNat < 0x6000)) (s : State) :
    hostAccess (.read off .word) s = .next (s.busReturn (Memory.readWord s.mem off.toNat)) := by
  have hword : ∀ base, base ≤ off.toNat → base % 4 = 0 → base + 4 * ((off.toNat - base) / 4) = off.toNat := by omega
  rw [hostAccess_readWord h]
  rcases hin with ⟨hlo, hhi⟩ | ⟨hlo, hhi⟩
  · rcases Nat.lt_or_ge off.toNat 0x2400 with hmid | hmid
    · rw [targetAt_txbuf hlo hmid, readTarget, Target.offset, txbufBase, hword _ hlo (by decide)]
    · rw [targetAt_rxbuf hmid hhi, readTarget, Target.offset, rxbufBase, hword _ hmid (by decide)]
  · rw [targetAt_cvtbuf hlo hhi, readTarget, Target.offset, cvtbufBase, hword _ hlo (by decide)]

/-! ## Words of the buffers (R50, R65) -/

theorem toNat_offset {a : Nat} (h : a < 0x8000) : (BitVec.ofNat 15 a).toNat = a := by
  rw [BitVec.toNat_ofNat, Nat.mod_eq_of_lt h]

theorem getElem_wordBytes (w : Word) (i : Nat) (h : i < (wordBytes w).length) :
    (wordBytes w)[i] = w.extractLsb' (8 * i) 8 := by
  rw [length_wordBytes] at h
  match i, h with
  | 0, _ => rfl
  | 1, _ => rfl
  | 2, _ => rfl
  | 3, _ => rfl

/-- The bytes of a word in memory, the byte at the address in bits [7:0]. -/
theorem extractLsb'_readWord (m : Memory) (a i : Nat) (h : i < 4) :
    (Memory.readWord m a).extractLsb' (8 * i) 8 = Memory.read m (a + i) := by
  apply BitVec.eq_of_getLsbD_eq
  intro k hk
  rw [BitVec.getLsbD_extractLsb', Memory.readWord]
  simp only [BitVec.getLsbD_append, hk]
  match i, h with
  | 0, _ => simp [hk]
  | 1, _ => simp [show ¬ 8 + k < 8 by omega, hk]
  | 2, _ => simp [show ¬ 16 + k < 8 by omega, show ¬ 16 + k - 8 < 8 by omega, show 16 + k - 8 - 8 = k by omega, hk]
  | 3, _ => simp [show ¬ 24 + k < 8 by omega, show ¬ 24 + k - 8 < 8 by omega, show ¬ 24 + k - 8 - 8 < 8 by omega,
      show 24 + k - 8 - 8 - 8 = k by omega]

/-- What a word written to a buffer leaves unchanged. -/
theorem writeMem_word_frame (s : State) (a : Nat) (w : Word) :
    SameMemoryOutside a 4 s (s.writeMem a (wordBytes w)) ∧ SameOutsideRegs s (s.writeMem a (wordBytes w)) ∧
      (s.writeMem a (wordBytes w)).regs = s.regs :=
  ⟨fun b hb => Memory.read_writeBytes_outside s.mem a (wordBytes w) b hb, ⟨rfl, rfl, rfl, rfl, rfl, rfl, rfl, rfl⟩, rfl⟩

/-- A word of `TXBUF` is written as its four bytes, and reads back. -/
theorem txbuf_word_readsBack (s : State) (k : Nat) (w : Word) (hk : k < 256) :
    ∃ t, hostAccess (.write (BitVec.ofNat 15 (0x2000 + 4 * k)) .word w) s = .next t ∧
      (∀ i < 4, txAt t (4 * k + i) = w.extractLsb' (8 * i) 8) ∧
      SameMemoryOutside (0x2000 + 4 * k) 4 s t ∧ SameOutsideRegs s t ∧ t.regs = s.regs ∧
      hostAccess (.read (BitVec.ofNat 15 (0x2000 + 4 * k)) .word) t =
        .next { t with env := { t.env with rdata := w } } := by
  have hoff := toNat_offset (a := 0x2000 + 4 * k) (by omega)
  have htarget : targetAt (0x2000 + 4 * k) = .txbuf k := by
    rw [targetAt_txbuf (by omega) (by omega)]
    congr 1
    omega
  obtain ⟨hmem, houtside, hregs⟩ := writeMem_word_frame s (0x2000 + 4 * k) w
  refine ⟨s.writeMem (0x2000 + 4 * k) (wordBytes w), ?write, fun i hi => ?bytes, hmem, houtside, hregs, ?read⟩
  case write => rw [hostAccess_writeWord (by omega), hoff, htarget]; rfl
  case bytes =>
    rw [txAt, State.writeMem_mem, ← Nat.add_assoc, Memory.read_writeBytes_inside _ _ _ _ (by simpa using hi),
      getElem_wordBytes]
  case read =>
    rw [hostAccess_readByteBuffer (by omega) (by omega), hoff, State.writeMem_mem]
    exact congrArg (fun v => Host.Outcome.next (State.busReturn v _)) (Memory.readWord_writeWord _ _ _)

/-- A word of `EDGEBUF` is written without touching another, and reads back. -/
theorem edgebuf_word_readsBack (s : State) (k : Nat) (w : Word) (hk : k < 1024) :
    ∃ t, hostAccess (.write (BitVec.ofNat 15 (0x1000 + 4 * k)) .word w) s = .next t ∧
      edgeAt t k = w ∧ (∀ j < 1024, j ≠ k → edgeAt t j = edgeAt s j) ∧
      SameMemoryOutside (0x1000 + 4 * k) 4 s t ∧ SameOutsideRegs s t ∧ t.regs = s.regs ∧
      hostAccess (.read (BitVec.ofNat 15 (0x1000 + 4 * k)) .word) t =
        .next { t with env := { t.env with rdata := w } } := by
  have hoff := toNat_offset (a := 0x1000 + 4 * k) (by omega)
  have htarget : targetAt (0x1000 + 4 * k) = .edgebuf k := by
    rw [targetAt_edgebuf (by omega) (by omega)]
    congr 1
    omega
  have hback : Memory.readWord (s.writeMem (0x1000 + 4 * k) (wordBytes w)).mem (0x1000 + 4 * k) = w :=
    Memory.readWord_writeWord _ _ _
  obtain ⟨hmem, houtside, hregs⟩ := writeMem_word_frame s (0x1000 + 4 * k) w
  refine ⟨s.writeMem (0x1000 + 4 * k) (wordBytes w), ?write, hback, fun j _ hne => ?others,
    hmem, houtside, hregs, ?read⟩
  case write => rw [hostAccess_writeWord (by omega), hoff, htarget]; rfl
  case others =>
    exact Memory.readWord_writeBytes_outside _ _ _ _ (by rw [length_wordBytes]; omega)
  case read =>
    rw [hostAccess_readWord (by omega), hoff, htarget]
    exact congrArg (fun v => Host.Outcome.next (State.busReturn v _)) hback

/-- Settles O13. -/
theorem bufferWordsReadBack : Obligations.BufferWordsReadBack :=
  fun s k w => ⟨txbuf_word_readsBack s k w, edgebuf_word_readsBack s k w⟩

/-- Settles O14. -/
theorem byteBuffersReadLittleEndian : Obligations.ByteBuffersReadLittleEndian :=
  fun s off h hin => ⟨_, hostAccess_readByteBuffer h hin s, extractLsb'_readWord s.mem off.toNat⟩

/-! ## Access types (R23, R30, R67) -/

/-- A write to `FREQ_TBL`, `RXBUF` or `CVTBUF` is ignored. -/
theorem hostAccess_write_readOnly {off : BitVec 15} (h : off.toNat % 4 = 0)
    (hin : (0x0400 ≤ off.toNat ∧ off.toNat < 0x0800) ∨ (0x2400 ≤ off.toNat ∧ off.toNat < 0x2800) ∨
      (0x4000 ≤ off.toNat ∧ off.toNat < 0x6000)) (w : Word) (s : State) :
    hostAccess (.write off .word w) s = .next s := by
  rw [hostAccess_writeWord h]
  rcases hin with ⟨hlo, hhi⟩ | ⟨hlo, hhi⟩ | ⟨hlo, hhi⟩
  · rw [targetAt_freqTbl hlo hhi, writeTarget]
  · rw [targetAt_rxbuf hlo hhi, writeTarget]
  · rw [targetAt_cvtbuf hlo hhi, writeTarget]

/-- Settles O15: `hostAccess_writeReg` at the read-write registers and at each read-only one, and the read-only
areas. -/
theorem writesFollowAccessTypes : Obligations.WritesFollowAccessTypes := by
  intro s w
  refine ⟨hostAccess_writeReg .opaLo w s, hostAccess_writeReg .opaHi w s, hostAccess_writeReg .opbLo w s,
    hostAccess_writeReg .opbHi w s, hostAccess_writeReg .gateLoHz w s, hostAccess_writeReg .gateHiHz w s,
    hostAccess_writeReg .timeoutUs w s, ?_, fun off h hin => hostAccess_write_readOnly h hin w s⟩
  simp only [List.forall_mem_cons]
  exact ⟨hostAccess_writeReg .id w s, hostAccess_writeReg .version w s, hostAccess_writeReg .status w s,
    hostAccess_writeReg .result w s, hostAccess_writeReg .resLo w s, hostAccess_writeReg .resHi w s,
    hostAccess_writeReg .res2Lo w s, hostAccess_writeReg .res2Hi w s, hostAccess_writeReg .nowUs w s,
    hostAccess_writeReg .frameBits w s, hostAccess_writeReg .frameSeq w s, hostAccess_writeReg .rxBits w s,
    hostAccess_writeReg .txProgress w s, hostAccess_writeReg .numSymbols w s, hostAccess_writeReg .minSepHz w s,
    hostAccess_writeReg .dutyPct w s, fun _ h => nomatch h⟩

/-- `RX_BITS` as R38 says it. -/
theorem rxBits_eq (s : State) :
    s.rxBits = if s.rx.fdState = .framing then BitVec.ofNat 32 s.rx.sessBits.length else 0 := by
  unfold State.rxBits
  split <;> simp [*]

/-- Settles O21: `hostAccess_readReg` at each register. -/
theorem registersReadTheirValues : Obligations.RegistersReadTheirValues := by
  intro s
  rw [← rxBits_eq]
  simp only [List.forall_mem_cons]
  exact ⟨hostAccess_readReg .id s, hostAccess_readReg .version s, hostAccess_readReg .cmd s,
    hostAccess_readReg .result s, hostAccess_readReg .opaLo s, hostAccess_readReg .opaHi s,
    hostAccess_readReg .opbLo s, hostAccess_readReg .opbHi s, hostAccess_readReg .resLo s,
    hostAccess_readReg .resHi s, hostAccess_readReg .res2Lo s, hostAccess_readReg .res2Hi s,
    hostAccess_readReg .tolHz s, hostAccess_readReg .gateLoHz s, hostAccess_readReg .gateHiHz s,
    hostAccess_readReg .bitDurUs s, hostAccess_readReg .timeoutUs s, hostAccess_readReg .nowUs s,
    hostAccess_readReg .frameBits s, hostAccess_readReg .frameSeq s, hostAccess_readReg .rxBits s,
    hostAccess_readReg .txProgress s, hostAccess_readReg .numSymbols s, hostAccess_readReg .minSepHz s,
    hostAccess_readReg .dutyPct s, fun _ h => nomatch h⟩

/-! ## The interrupt registers (R35, R36, R227) -/

/-- A ten-bit register as a word: bits [31:10] read 0. -/
theorem getLsbD_zeroExtend_ten (v : BitVec 10) (k : Nat) :
    (v.zeroExtend 32).getLsbD k = (decide (k < 10) && v.getLsbD k) := by
  rcases Nat.lt_or_ge k 10 with hk | hk
  · simp [hk, show k < 32 by omega]
  · simp [BitVec.getLsbD_of_ge v k hk]

/-- Settles O18: the W1C write bit by bit (`getLsbD_clearWritten`), the read (`getLsbD_zeroExtend_ten`), and the steps
that clear a bit (`step_clears`). -/
theorem irqStatusIsWriteOneToClear : Obligations.IrqStatusIsWriteOneToClear :=
  ⟨fun s w => ⟨_, hostAccess_writeReg .irqStatus w s, rfl, fun k _ => getLsbD_clearWritten s.irq.status w k⟩,
    fun s => ⟨_, hostAccess_readReg .irqStatus s, getLsbD_zeroExtend_ten s.irq.status⟩,
    fun _ _ k h h1 h0 => step_clears h k h1 h0⟩

/-- The line is the OR over the ten sources (R227): the conjunction of the registers is not 0 when some bit of it
is 1. -/
theorem irqLine_iff (s : State) :
    s.irqLine = true ↔ ∃ k < 10, s.irq.status.getLsbD k = true ∧ s.irq.enable.getLsbD k = true := by
  rw [State.irqLine, bne_iff_ne]
  constructor
  · intro hne
    by_contra hnone
    push Not at hnone
    refine hne (BitVec.eq_of_getLsbD_eq fun k hk => ?_)
    cases hstatus : s.irq.status.getLsbD k with
    | false => simp [hstatus]
    | true => simp [Bool.eq_false_iff.2 (hnone k hk hstatus)]
  · rintro ⟨k, -, hstatus, henable⟩ hzero
    have := congrArg (·.getLsbD k) hzero
    simp [hstatus, henable] at this

/-- Settles O19: the write keeps the ten low bits, the read returns them (`getLsbD_zeroExtend_ten`), and the line is
`irqLine_iff`. -/
theorem irqLineIsTheOrOfEnabledSources : Obligations.IrqLineIsTheOrOfEnabledSources :=
  ⟨fun s w => ⟨_, hostAccess_writeReg .irqEn w s, rfl, fun k hk => by simp [hk]⟩,
    fun s => ⟨_, hostAccess_readReg .irqEn s, getLsbD_zeroExtend_ten s.irq.enable⟩, irqLine_iff⟩

/-! ## `STATUS` (R27) -/

@[simp] theorem getElem_bit (b : Bool) : (bit b)[0] = b := by cases b <;> rfl

/-- The five flags of `STATUS`, bits [4:0]. -/
theorem statusWord_flags (s : State) :
    s.statusWord.getLsbD 0 = s.rx.rxEn ∧ s.statusWord.getLsbD 1 = (s.rx.fdState == .framing) ∧
      s.statusWord.getLsbD 2 = s.tx.txActive ∧ s.statusWord.getLsbD 3 = s.tx.waveOn ∧
      s.statusWord.getLsbD 4 = !s.irq.evq.isEmpty := by
  simp only [State.statusWord, BitVec.getLsbD_append]
  simp

/-- The event count of `STATUS`, bits [15:8], between reserved bits that read 0. -/
theorem statusWord_count (s : State) :
    s.statusWord.extractLsb' 5 3 = 0 ∧ s.statusWord.extractLsb' 8 8 = BitVec.ofNat 8 s.irq.evq.length ∧
      s.statusWord.extractLsb' 16 16 = 0 := by
  unfold State.statusWord
  refine ⟨?_, ?_, ?_⟩ <;> iterate 5 rw [BitVec.extractLsb'_append_eq_of_le (by decide)]
  · exact BitVec.extractLsb'_append_eq_right
  · rw [BitVec.extractLsb'_append_eq_of_le (by decide)]
    exact BitVec.extractLsb'_append_eq_right
  · rw [BitVec.extractLsb'_append_eq_of_le (by decide)]
    exact BitVec.extractLsb'_append_eq_left

/-- Settles O20: the flags (`statusWord_flags`) and the count (`statusWord_count`), which fits its eight bits. -/
theorem statusFieldsFollowState : Obligations.StatusFieldsFollowState := by
  intro s hdepth
  obtain ⟨hen, hframing, hactive, hwave, hevents⟩ := statusWord_flags s
  obtain ⟨hreserved, hcount, hhigh⟩ := statusWord_count s
  refine ⟨s.statusWord, hostAccess_readReg .status s, hen, ?_, hactive, hwave, ?_, hreserved, ?_, hhigh⟩
  · rw [hframing, Bool.beq_eq_decide_eq]
  · rw [hevents]
    cases s.irq.evq <;> rfl
  · rw [hcount, BitVec.toNat_ofNat]
    omega

/-! ## The command of a written word (R28, R90) -/

theorem eq_of_ifZeroFields {zero : Bool} {i j : Instr} (h : ifZeroFields zero i = .ok j) : i = j := by
  unfold ifZeroFields at h
  split at h <;> cases h
  rfl

/-- A count taken from `LEN16` fits it. -/
theorem fitsLen16_toNat (v : BitVec 16) : fitsLen16 v.toNat = true := decide_eq_true v.isLt

/-- What a word decodes to is well formed: its counts are `LEN16` fields (R91). -/
theorem decode_wf {w : Word} {i : Instr} (h : decode w = .ok i) : i.wf = true := by
  unfold decode at h
  simp only at h
  split at h
  case h_14 => cases h
  all_goals
    obtain rfl := eq_of_ifZeroFields h
    simp only [Instr.wf, fitsLen16_toNat]

/-- The step of a state in which the host's access comes next (R72). -/
theorem step_of_nextAccess {s : State} {a : HostAccess} {rest : List HostAccess} (htx : txTurn s = false)
    (hrx : rxTurn s = false) (hedge : edgeTurn s = false) (hdue : s.env.dueAccesses = a :: rest) :
    step s = hostAccess a (s.hostTurn rest) := by
  rw [step, agentStep, htx, hrx, hedge, nextAccess, hdue]
  rfl

theorem hostAccess_commandWrite (w : Word) (s : State) : hostAccess (.write 0x00C .word w) s = runCommand w s :=
  hostAccess_writeReg .cmd w s

theorem runCommand_of_decode {w : Word} {i : Instr} (h : decode w = .ok i) (s : State) : runCommand w s = exec i s := by
  rw [runCommand, h]

/-- The step of a state in which a command comes next. -/
theorem step_of_nextCommand {s : State} {w : Word} {rest : List HostAccess} {i : Instr} (htx : txTurn s = false)
    (hrx : rxTurn s = false) (hedge : edgeTurn s = false) (hdue : s.env.dueAccesses = .write 0x00C .word w :: rest)
    (h : decode w = .ok i) : step s = exec i (s.hostTurn rest) := by
  rw [step_of_nextAccess htx hrx hedge hdue, hostAccess_commandWrite, runCommand_of_decode h]

/-- Settles O5: `withFetchWord` makes a state in which the command comes next. -/
theorem stepRunsWrittenCommand : Obligations.StepRunsWrittenCommand := by
  refine ⟨fun s a rest => step_of_nextAccess, fun s w => hostAccess_commandWrite w s,
    fun s w rest i htx hrx hedge hdue h => ⟨decode_wf h, step_of_nextCommand htx hrx hedge hdue h⟩, fun s w i h => ?_⟩
  have hword : BitVec.ofNat 32 (w.toNat % 2 ^ 32) = w := by
    rw [Nat.mod_eq_of_lt w.isLt, BitVec.ofNat_toNat, BitVec.setWidth_eq]
  refine step_of_nextCommand (w := w) rfl rfl rfl ?_ h
  show commandWrite (BitVec.ofNat 32 (w.toNat % 2 ^ 32)) :: s.env.dueAccesses = _
  rw [hword]
  rfl

end Sys2Proof.Machine
end

section
/-! PROOFS. The WARL registers and the frequency table (10_state.md R31, R33, R41, 41_codec.md R131 to R136): what
the two clamped registers store, the reading of `FREQ_TBL`, and the round trip from a symbol through its frequency. -/

namespace Sys2Proof

/-! ## The separation of the table frequencies (00_scope.md section 4) -/

/-- `MIN_SEP` is the distance of two table frequencies. -/
theorem WfConfig.exists_minSep_eq (c : WfConfig) :
    ∃ i j, i < 67 ∧ j < 67 ∧ i ≠ j ∧ c.minSep = absDiff (c.freqAt i) (c.freqAt j) := by
  have hl := c.length_freq
  have hne : separations c.freq ≠ [] := by
    match c.freq, hl with
    | _ :: _ :: _, _ => simp [separations]
  obtain ⟨i, j, hij, hj, h⟩ := separations_mem (leastOf_mem hne)
  refine ⟨i, j, by omega, by omega, hij.ne, ?_⟩
  rw [c.freqAt_eq_getElem i (by omega), c.freqAt_eq_getElem j hj]
  exact h

/-- `MIN_SEP` is at most the distance of any two table frequencies, as the statements write it. -/
theorem WfConfig.minSep_le_abs (c : WfConfig) {i j : Nat} (hi : i < 67) (hj : j < 67) (h : i ≠ j) :
    (c.minSep : Int) ≤ |(c.freqAt i : Int) - c.freqAt j| := by
  rw [← absDiff_eq_abs]
  exact_mod_cast c.minSep_le hi hj h

end Sys2Proof

namespace Sys2Proof.Machine

/-! ## The WARL registers (R31, R33) -/

/-- `TOL_RESET` fits its register. -/
theorem toNat_tolReset (c : WfConfig) : (State.powerOn c).conf.tolHz.toNat = c.tolReset := by
  obtain ⟨i, j, hi, hj, -, hsep⟩ := c.exists_minSep_eq
  have hle := c.tolReset_le
  obtain ⟨-, hmaxi⟩ := c.freqAt_range i hi
  obtain ⟨-, hmaxj⟩ := c.freqAt_range j hj
  have hdiff : absDiff (c.freqAt i) (c.freqAt j) ≤ 2 ^ 32 - 1 := by unfold absDiff; split <;> omega
  unfold Config.tolMax at hle
  show (BitVec.ofNat 32 c.tolReset).toNat = _
  rw [BitVec.toNat_ofNat, Nat.mod_eq_of_lt (by omega)]

/-- Settles O16. -/
theorem toleranceIsClamped : Obligations.ToleranceIsClamped := by
  refine ⟨fun s v => ⟨_, hostAccess_writeReg .tolHz v s, rfl, toNat_tolStore _ v, fun i j hi hj hne => ?_⟩,
    fun cfg => ⟨?_, fun i j hi hj hne => cfg.minSep_le_abs hi hj hne, toNat_tolReset cfg⟩⟩
  · have hsep := s.cfg.minSep_le_abs hi hj hne
    have hstored : 2 * (tolStore s.cfg.toConfig v).toNat ≤ s.cfg.minSep := by
      rw [toNat_tolStore, Config.tolMax]
      omega
    exact le_trans (by exact_mod_cast hstored) hsep
  · obtain ⟨i, j, hi, hj, hne, hsep⟩ := cfg.exists_minSep_eq
    exact ⟨i, j, hi, hj, hne, by rw [hsep, absDiff_eq_abs]⟩

/-- Settles O17. -/
theorem bitDurationIsClamped : Obligations.BitDurationIsClamped := by
  refine ⟨fun s v => ⟨_, hostAccess_writeReg .bitDurUs v s, rfl, fun hzero => ?_, fun habove => ?_,
    fun hne hle => bitDurStore_inRange hne hle, ?_⟩, toNat_bitDurReset⟩
  · show (bitDurStore v).toNat = 1
    rw [hzero]
    rfl
  · show (bitDurStore v).toNat = 2 ^ 30
    rw [bitDurStore_above habove]
    rfl
  · obtain ⟨-, hle⟩ := bitDurStore_range v
    simp only [bitDurMax] at hle
    show 2 * (bitDurStore v).toNat ≤ 2 ^ 31
    omega

/-! ## The frequency table (R41, R95) -/

/-- The symbol codes of R95 are those of the model's table. -/
theorem symbolAt_iff (i : Nat) (c : Byte) : SymbolAt i c ↔ indexOf? c = some i := by
  have hlt := c.isLt
  unfold SymbolAt indexOf?
  simp only [← BitVec.toNat_inj, BitVec.ofNat_eq_ofNat, BitVec.toNat_ofNat]
  split_ifs <;> simp only [Option.some.injEq, iff_false] <;> omega

theorem lt_of_symbolAt {i : Nat} {c : Byte} (h : SymbolAt i c) : i < 67 :=
  (codeAt_of_indexOf? c i ((symbolAt_iff i c).1 h)).1

/-- The table frequency of a symbol's code fits the word. -/
theorem toNat_freqWord (cfg : WfConfig) {i : Nat} {c : Byte} (h : SymbolAt i c) :
    (cfg.freqWord c).toNat = cfg.freqAt i := by
  obtain ⟨-, hmax⟩ := cfg.freqAt_range i (lt_of_symbolAt h)
  rw [Config.freqWord, Config.freqOf?, (symbolAt_iff i c).1 h, BitVec.toNat_ofNat]
  exact Nat.mod_eq_of_lt (by simp only [Option.map_some, Option.getD_some]; omega)

theorem freqWord_of_noSymbol (cfg : Config) {c : Byte} (h : ∀ i, ¬ SymbolAt i c) : cfg.freqWord c = 0 := by
  have hnone : indexOf? c = none := by
    rw [Option.eq_none_iff_forall_ne_some]
    exact fun i hi => h i ((symbolAt_iff i c).2 hi)
  rw [Config.freqWord, Config.freqOf?, hnone]
  rfl

theorem hostAccess_readFreqTbl (c : Byte) (s : State) :
    hostAccess (.read (BitVec.ofNat 15 (0x400 + 4 * c.toNat)) .word) s = .next (s.busReturn (s.cfg.freqWord c)) := by
  have hlt := c.isLt
  have hoff := toNat_offset (a := 0x400 + 4 * c.toNat) (by omega)
  rw [hostAccess_readWord (by omega), hoff, targetAt_freqTbl (by omega) (by omega), readTarget,
    show (0x400 + 4 * c.toNat - 0x400) / 4 = c.toNat by omega, BitVec.ofNat_toNat, BitVec.setWidth_eq]

/-- Settles O22: the table reads the configuration, which no step changes (`step_cfg`). -/
theorem freqTblReadsFrequencies : Obligations.FreqTblReadsFrequencies := by
  refine fun s c => ⟨s.cfg.freqWord c, hostAccess_readFreqTbl c s, fun i h => toNat_freqWord s.cfg h,
    freqWord_of_noSymbol _, fun t ht => ?_⟩
  have hread := hostAccess_readFreqTbl c t
  rw [step_cfg ht] at hread
  exact hread

/-- A table frequency matches itself, and no other table frequency within half the separation (R31, R134). -/
theorem isMatch_freqAt_iff (cfg : WfConfig) {tol i j : Nat} (htol : tol ≤ cfg.minSep / 2) (hi : i < 67) (hj : j < 67) :
    isMatch { num := cfg.freqAt i, den := 1 } (cfg.freqAt j) tol = true ↔ j = i := by
  simp only [isMatch, decide_eq_true_eq, Nat.mul_one]
  constructor
  · intro hmatch
    by_contra hne
    have hsep := cfg.minSep_le hi hj (Ne.symm hne)
    have hdistinct := cfg.freqAt_ne hi hj (Ne.symm hne)
    unfold absDiff at hsep
    split at hsep <;> omega
  · rintro rfl
    simp

/-- The scan on a table frequency finds its own symbol (R135). -/
theorem freqToSym_freqAt (cfg : WfConfig) {tol i : Nat} (htol : tol ≤ cfg.minSep / 2) (hi : i < 67) :
    freqToSym cfg.toConfig { num := cfg.freqAt i, den := 1 } tol = some (codeAt i, i) :=
  freqToSym_of_first hi ((isMatch_freqAt_iff cfg htol hi hi).2 rfl) fun _ hj =>
    Bool.eq_false_iff.2 fun h => hj.ne ((isMatch_freqAt_iff cfg htol hi (hj.trans hi)).1 h)

/-- F2S on the exact frequency of a table entry, as `NUM / 1` (R136). -/
theorem execF2s_freqAt {s : State} {i : Nat} (hi : i < 67) (htol : s.conf.tolHz.toNat ≤ s.cfg.minSep / 2)
    (hnum : s.opa = s.cfg.freqAt i) (hden : s.opb = 1) :
    execF2s s = .next (((s.setRes (codeAt i).toNat).setRes2 i).setResult .ok) := by
  rw [execF2s, if_neg (by rw [hden]; decide), hnum, hden, freqToSym_freqAt s.cfg htol hi]
  rfl

/-- S2F on a symbol's code (R131, R133). -/
theorem execS2f_of_symbol {s : State} {c : Byte} {i : Nat} (h : SymbolAt i c) :
    execS2f c s = .next (({ s with
      regs := { s.regs with resLo := BitVec.ofNat 32 (s.cfg.freqAt i), resHi := 0 } } : State).setResult .ok) := by
  rw [execS2f, Config.freqOf?, (symbolAt_iff i c).1 h]
  rfl

/-- Settles O59: S2F delivers the symbol's frequency, which fits the operand, and the scan on it finds the symbol
(`execF2s_freqAt`). -/
theorem symbolFrequencyRoundTrip : Obligations.SymbolFrequencyRoundTrip := by
  intro s i c hsym htol
  obtain ⟨hi, hcode⟩ := codeAt_of_indexOf? c i ((symbolAt_iff i c).1 hsym)
  obtain ⟨-, hmax⟩ := s.cfg.freqAt_range i hi
  have hnum : join64 0 (BitVec.ofNat 32 (s.cfg.freqAt i)) = s.cfg.freqAt i := by
    rw [join64, BitVec.toNat_ofNat, Nat.mod_eq_of_lt (by omega)]
    exact (Nat.zero_add _)
  have hden : join64 0 1 = 1 := by decide
  have hcode_lt := (codeAt i).isLt
  refine ⟨_, _, execS2f_of_symbol hsym, execF2s_freqAt hi htol hnum hden, rfl, ?_⟩
  rw [res_setResult, res2_setResult, ← hcode]
  exact res_setRes_setRes2 (codeAt i).toNat i _ (by omega) (by omega)

end Sys2Proof.Machine
end

section
/-! PROOFS. The order of the steps at one time value (20_memory.md R72), and the accesses that do nothing more than
their rule names: illegal accesses, reserved offsets and reads (R61 to R66). -/

namespace Sys2Proof.Machine

/-! ## Which step comes (R20, R72) -/

/-- The TX phase step comes before every other step. -/
theorem step_of_txTurn {s : State} (htx : txTurn s = true) : step s = .next (txPhaseStep (s.setTurn .rx)) := by
  rw [step, agentStep, if_pos htx]

/-- The RX window step comes before the edges and the accesses. -/
theorem step_of_rxTurn {s : State} (htx : txTurn s = false) (hrx : rxTurn s = true) :
    step s = .next (rxWindowStep (s.setTurn .edge)) := by
  rw [step, agentStep, htx, if_neg Bool.false_ne_true, if_pos hrx]

/-- The edge captures come before the accesses. -/
theorem step_of_edgeTurn {s : State} (htx : txTurn s = false) (hrx : rxTurn s = false) (hedge : edgeTurn s = true) :
    step s = .next (nextEdge s) := by
  rw [step, agentStep, htx, hrx, if_neg Bool.false_ne_true, if_neg Bool.false_ne_true, if_pos hedge]

theorem txTurn_iff (s : State) : txTurn s = true ↔ s.env.turn = .tx ∧ txDue s = true := by
  simp [txTurn]

theorem rxTurn_iff (s : State) : rxTurn s = true ↔ (s.env.turn = .tx ∨ s.env.turn = .rx) ∧ rxDue s = true := by
  simp [rxTurn]

theorem edgeTurn_iff (s : State) : edgeTurn s = true ↔ s.env.turn ≠ .host ∧ s.env.dueEdges ≠ 0 := by
  simp [edgeTurn]

theorem txTurn_eq_false {s : State} (h : s.env.turn ≠ .tx ∨ txDue s = false) : txTurn s = false := by
  rw [Bool.eq_false_iff, ne_eq, txTurn_iff, not_and_or, Bool.not_eq_true]
  exact h

/-- After a host access only accesses and the tick are left. -/
theorem turns_of_host {s : State} (h : s.env.turn = .host) : txTurn s = false ∧ rxTurn s = false ∧ edgeTurn s = false := by
  simp [txTurn, rxTurn, edgeTurn, h]

/-- At the host's turn, with no access left, the step is the tick. -/
theorem step_of_host_nil {s : State} (hturn : s.env.turn = .host) (hdue : s.env.dueAccesses = []) :
    step s = .next (tick s) := by
  obtain ⟨htx, hrx, hedge⟩ := turns_of_host hturn
  rw [step, agentStep, htx, hrx, hedge, nextAccess, hdue]
  rfl

/-- An access keeps the host's turn and the time value. -/
theorem hostAccess_hostTurn_keeps {a : HostAccess} {rest : List HostAccess} {s t : State}
    (h : hostAccess a (s.hostTurn rest) = .next t) :
    t.env.turn = .host ∧ t.env.dueEdges = s.env.dueEdges ∧ t.nowUs = s.nowUs := by
  obtain ⟨-, hnow, henv⟩ := hostAccess_keeps h
  rw [henv]
  exact ⟨rfl, rfl, hnow⟩

/-- At the host's turn an access that is due leaves the turn and the time value. -/
theorem step_of_host_cons {s t : State} (hturn : s.env.turn = .host) (hdue : s.env.dueAccesses ≠ [])
    (h : step s = .next t) : t.env.turn = .host ∧ t.nowUs = s.nowUs := by
  obtain ⟨htx, hrx, hedge⟩ := turns_of_host hturn
  obtain ⟨a, rest, hcons⟩ := List.exists_cons_of_ne_nil hdue
  rw [step_of_nextAccess htx hrx hedge hcons] at h
  obtain ⟨hhost, -, hnow⟩ := hostAccess_hostTurn_keeps h
  exact ⟨hhost, hnow⟩

/-- No edge is left behind a host access (R72): the engine steps, the edges and the tick give the turn to another agent,
and an access comes only when no edge is left. -/
theorem step_turnOk {s t : State} (hs : s.TurnOk) (h : step s = .next t) : t.TurnOk := by
  intro hhost
  rcases step_cases h with ⟨-, rfl⟩ | ⟨-, -, rfl⟩ | ⟨-, -, -, rfl⟩ | ⟨-, -, -, -, rfl⟩ |
    ⟨-, -, hedge, a, rest, -, ha⟩
  · obtain ⟨-, -, henv, -⟩ := txPhaseStep_frame (s.setTurn .rx)
    rw [henv] at hhost
    cases hhost
  · obtain ⟨-, -, henv, -⟩ := rxWindowStep_frame (s.setTurn .edge)
    rw [henv] at hhost
    cases hhost
  · obtain ⟨_, _, _, _, hframe⟩ := nextEdge_frame s
    rw [hframe] at hhost
    cases hhost
  · rw [tick_env, Env.advance_turn] at hhost
    cases hhost
  · obtain ⟨-, hedges, -⟩ := hostAccess_hostTurn_keeps ha
    rw [hedges]
    by_contra hleft
    rw [(edgeTurn_iff s).2 ⟨fun hturn => hleft (hs hturn), hleft⟩] at hedge
    cases hedge

/-- Settles O8: each agent's turn decides the step (`step_of_txTurn`, `step_of_rxTurn`, `step_of_edgeTurn`,
`step_of_host_nil`, `step_of_host_cons`), and the order is kept (`step_turnOk`). -/
theorem stepsAtOneTimeComeInOrder : Obligations.StepsAtOneTimeComeInOrder := by
  intro s t h
  have answer : ∀ {u : State}, step s = .next u → t = u := fun hu => Host.Outcome.next.inj (h.symm.trans hu)
  refine ⟨fun hturn hdue => ?phase, fun hturn htx hrx => ?window, fun hturn hrx => ?windowLater,
    fun htx hrx hturn hleft => ?edge, fun hturn hnone => ?tick, fun hturn hsome => ?access, fun hs => step_turnOk hs h⟩
  case phase => exact answer (step_of_txTurn ((txTurn_iff s).2 ⟨hturn, hdue⟩))
  case window => exact answer (step_of_rxTurn (txTurn_eq_false (.inr htx)) ((rxTurn_iff s).2 ⟨.inl hturn, hrx⟩))
  case windowLater =>
    exact answer (step_of_rxTurn (txTurn_eq_false (.inl (by rw [hturn]; decide))) ((rxTurn_iff s).2 ⟨.inr hturn, hrx⟩))
  case edge => exact answer (step_of_edgeTurn htx hrx ((edgeTurn_iff s).2 ⟨hturn, hleft⟩))
  case tick => exact answer (step_of_host_nil hturn hnone)
  case access => exact step_of_host_cons hturn hsome h

/-! ## Reads (R66) -/

/-- No read depends on what the bus returned last. -/
theorem readTarget_busReturn (target : Target) (v : Word) (s : State) :
    readTarget target (s.busReturn v) = readTarget target s := by
  cases target with
  | reg r => cases r <;> rfl
  | _ => rfl

/-- Settles O12: a word read is the bus return of the target's value (`hostAccess_readWord`), on which no read depends
(`readTarget_busReturn`). -/
theorem readsHaveNoSideEffect : Obligations.ReadsHaveNoSideEffect := by
  intro s off hoff
  refine ⟨_, hostAccess_readWord hoff s, rfl, ?_⟩
  rw [hostAccess_readWord hoff, readTarget_busReturn]
  rfl

/-! ## Illegal accesses (R61, R62) -/

theorem legalAccess_of_illegal {off : BitVec 15} {sz : AccessSize} (h : sz ≠ .word ∨ off.toNat % 4 ≠ 0) :
    legalAccess off sz = false := by
  simpa only [legalAccess, Bool.and_eq_false_iff, beq_eq_false_iff_ne] using h

theorem hostAccess_readIllegal {off : BitVec 15} {sz : AccessSize} (h : sz ≠ .word ∨ off.toNat % 4 ≠ 0) (s : State) :
    hostAccess (.read off sz) s = .next (s.busError.busReturn 0) := by
  rw [hostAccess, legalAccess_of_illegal h, if_neg Bool.false_ne_true]

theorem hostAccess_writeIllegal {off : BitVec 15} {sz : AccessSize} (h : sz ≠ .word ∨ off.toNat % 4 ≠ 0) (w : Word)
    (s : State) : hostAccess (.write off sz w) s = .next s.busError := by
  rw [hostAccess, legalAccess_of_illegal h, if_neg Bool.false_ne_true]

/-- `BUS_ERR` is bit 9 of `IRQ_STATUS`; the other bits stay (R35). -/
theorem getLsbD_or_busErrBit (st : BitVec 10) {k : Nat} (hk : k < 10) :
    (st ||| busErrBit).getLsbD k = (st.getLsbD k || k == 9) := by
  rw [BitVec.getLsbD_or, busErrBit, getLsbD_irqBit, decide_eq_true hk, Bool.true_and]

/-- Settles O10: neither access is legal, so each is the bus error (`hostAccess_readIllegal`,
`hostAccess_writeIllegal`), which sets one bit (`getLsbD_or_busErrBit`). -/
theorem illegalAccessOnlySetsBusErr : Obligations.IllegalAccessOnlySetsBusErr :=
  fun s _ _ w hillegal => ⟨s.irq.status ||| busErrBit, fun _ hk => getLsbD_or_busErrBit _ hk,
    hostAccess_writeIllegal hillegal w s, hostAccess_readIllegal hillegal s⟩

/-! ## Reserved offsets (R63, R64) -/

/-- The reserved ranges of the address map. -/
theorem targetAt_reserved {n : Nat} (h : (0x0070 ≤ n ∧ n ≤ 0x03FF) ∨ (0x0800 ≤ n ∧ n ≤ 0x0FFF) ∨
    (0x2800 ≤ n ∧ n ≤ 0x3FFF) ∨ 0x6000 ≤ n) : targetAt n = .reserved := by
  rcases h with ⟨hlo, hhi⟩ | ⟨hlo, hhi⟩ | ⟨hlo, hhi⟩ | hlo
  · rw [targetAt, if_neg (by omega), if_pos (by omega)]
  · rw [targetAt, if_neg (by omega), if_neg (by omega), if_neg (by omega), if_pos (by omega)]
  · rw [targetAt, if_neg (by omega), if_neg (by omega), if_neg (by omega), if_neg (by omega), if_neg (by omega),
      if_neg (by omega), if_neg (by omega), if_pos (by omega)]
  · rw [targetAt, if_neg (by omega), if_neg (by omega), if_neg (by omega), if_neg (by omega), if_neg (by omega),
      if_neg (by omega), if_neg (by omega), if_neg (by omega), if_neg (by omega)]

/-- Settles O11: the target is reserved (`targetAt_reserved`), which reads 0 and keeps no write. -/
theorem reservedOffsetsReadZero : Obligations.ReservedOffsetsReadZero := by
  intro s off w hoff hin
  rw [hostAccess_readWord hoff, hostAccess_writeWord hoff, targetAt_reserved hin]
  exact ⟨rfl, rfl⟩

end Sys2Proof.Machine
end

section
/-! PROOFS. The command word (30_encoding.md R90 to R94, R101): the decoder and the encoder are inverse to each other,
the words that decode are those that fit a row of the opcode table, and the checks of a command come in order. -/

namespace Sys2Proof

/-! ## The word of three fields (R90, R91) -/

/-- A word is the one built from given fields exactly when its fields are those. -/
theorem commandWord_eq_iff {o a : BitVec 8} {n : Nat} {w : Word} :
    commandWord o a n = w ↔ fieldOpc w = o ∧ fieldArg8 w = a ∧ fieldLen16 w = BitVec.ofNat 16 n := by
  constructor
  · rintro rfl
    exact ⟨fieldOpc_commandWord o a n, fieldArg8_commandWord o a n, fieldLen16_commandWord o a n⟩
  · rintro ⟨rfl, rfl, hlen⟩
    apply word_eq_of_fields <;> simp [hlen]

/-- A count that fits `LEN16` is read back from it. -/
theorem toNat_ofNat_of_fitsLen16 {n : Nat} (h : fitsLen16 n = true) : (BitVec.ofNat 16 n).toNat = n := by
  rw [BitVec.toNat_ofNat, Nat.mod_eq_of_lt (of_decide_eq_true h)]

/-- EST's `ARG8` is its flag when bits [7:1] are 0 (R92). -/
theorem flag_eq_of_extractLsb'_eq_zero : ∀ a : BitVec 8, a.extractLsb' 1 7 = 0 → a = if a.getLsbD 0 then 1 else 0 := by
  decide

/-- The same under the mask of EST's row. -/
theorem flag_eq_of_and_eq_zero : ∀ a : BitVec 8, a &&& 0xFE = 0 → a = if a.getLsbD 0 then 1 else 0 := by
  decide

/-! ## The decoder -/

theorem ifZeroFields_eq_ok_iff {zero : Bool} {i j : Instr} :
    ifZeroFields zero i = .ok j ↔ zero = true ∧ i = j := by
  cases zero <;> simp [ifZeroFields]

theorem ifZeroFields_ne_illegalOpcode {zero : Bool} {i : Instr} : ifZeroFields zero i ≠ .error .illegalOpcode := by
  cases zero <;> simp [ifZeroFields]

/-- The first check of R94 fails exactly for the opcodes outside R93's map. -/
theorem decode_eq_illegalOpcode_iff {w : Word} : decode w = .error .illegalOpcode ↔ 0x0C < (fieldOpc w).toNat := by
  unfold decode
  simp only
  split
  case h_14 =>
    refine iff_of_true rfl ?_
    simp only [imp_false] at *
    omega
  all_goals exact iff_of_false ifZeroFields_ne_illegalOpcode (by omega)

/-- The decoder reads back what the encoder wrote. -/
theorem decode_encode {i : Instr} (h : i.wf = true) : decode (encode i) = .ok i := by
  cases i with
  | est g n => cases g <;> simp [encode, decode, ifZeroFields, toNat_ofNat_of_fitsLen16 h]
  | s2f c => simp [encode, decode, ifZeroFields]
  | b2bits n | bits2b n | txFrame n | txBits n =>
    simp [encode, decode, ifZeroFields, toNat_ofNat_of_fitsLen16 h]
  | nop | f2s | txAbort | rxStart | rxStop | evtPop | softReset => rfl

/-- The encoder writes back what the decoder read: opcode, operands and the fields that must be 0. -/
theorem encode_of_decode {w : Word} {i : Instr} (h : decode w = .ok i) : encode i = w := by
  have hopc {n : Nat} (ho : (fieldOpc w).toNat = n) : fieldOpc w = BitVec.ofNat 8 n := by
    rw [← ho, BitVec.ofNat_toNat, BitVec.setWidth_eq]
  unfold decode at h
  simp only at h
  split at h
  case h_14 => cases h
  case h_2 ho =>
    simp only [ifZeroFields_eq_ok_iff, beq_iff_eq] at h
    obtain ⟨harg, rfl⟩ := h
    exact commandWord_eq_iff.2 ⟨hopc ho, flag_eq_of_extractLsb'_eq_zero _ harg, by simp⟩
  all_goals
    rename_i ho
    simp only [ifZeroFields_eq_ok_iff, Bool.and_eq_true, beq_iff_eq] at h
    obtain ⟨hzero, rfl⟩ := h
    simp [encode, commandWord_eq_iff, hopc ho, hzero]

/-- The words that decode to a command: its own, if it is well formed. -/
theorem decode_eq_ok_iff {w : Word} {i : Instr} : decode w = .ok i ↔ i.wf = true ∧ encode i = w := by
  constructor
  · exact fun h => ⟨Machine.decode_wf h, encode_of_decode h⟩
  · rintro ⟨hwf, rfl⟩
    exact decode_encode hwf

/-! ## The rows of the opcode table (R92, R93) -/

open Laws (TableRow.row TableRow.Statement)

/-- Every command's word fits its row. -/
theorem encode_fitsRow (i : Instr) : TableRow.Statement i := by
  cases i with
  | nop => exact Laws.TableRow.nop
  | est g n => exact Laws.TableRow.est g n
  | s2f c => exact Laws.TableRow.s2f c
  | f2s => exact Laws.TableRow.f2s
  | b2bits l => exact Laws.TableRow.b2bits l
  | bits2b n => exact Laws.TableRow.bits2b n
  | txFrame l => exact Laws.TableRow.txFrame l
  | txBits n => exact Laws.TableRow.txBits n
  | txAbort => exact Laws.TableRow.txAbort
  | rxStart => exact Laws.TableRow.rxStart
  | rxStop => exact Laws.TableRow.rxStop
  | evtPop => exact Laws.TableRow.evtPop
  | softReset => exact Laws.TableRow.softReset

/-- A field that the mask keeps whole holds the row's value. -/
theorem eq_of_and_fullMask {n : Nat} {x mask val : BitVec n} (hmask : mask = BitVec.allOnes n)
    (h : x &&& mask = val) : x = val := by
  rwa [hmask, BitVec.and_allOnes] at h

/-- The row of a command without operands has one word, the command's. -/
theorem encode_eq_of_fitsFullMask {i : Instr} {w : Word} (hrow : TableRow.row i = (encode i, BitVec.allOnes 32))
    (h : w &&& (TableRow.row i).2 = (TableRow.row i).1) : encode i = w := by
  rw [hrow] at h
  exact (eq_of_and_fullMask rfl h).symm

/-- A word of a row that leaves only `LEN16` free is the row's command with some count. -/
theorem exists_encode_eq_of_fitsLenMask (f : Nat → Instr) {n : Nat} {o : BitVec 8} {w : Word}
    (hwf : ∀ l, (f l).wf = fitsLen16 l) (hencode : ∀ l, encode (f l) = commandWord o 0 l)
    (hrow : TableRow.row (f n) = (commandWord o 0 0, 0x0000FFFF))
    (h : w &&& (TableRow.row (f n)).2 = (TableRow.row (f n)).1) : ∃ j : Instr, j.wf = true ∧ encode j = w := by
  refine ⟨f (fieldLen16 w).toNat, (hwf _).trans (Machine.fitsLen16_toNat _), ?_⟩
  rw [hrow] at h
  obtain ⟨hopc, harg, -⟩ := (and_eq_iff_fields w 0x0000FFFF (commandWord o 0 0)).1 h
  rw [fieldOpc_commandWord] at hopc
  rw [fieldArg8_commandWord] at harg
  rw [hencode]
  exact commandWord_eq_iff.2 ⟨eq_of_and_fullMask (by decide) hopc, eq_of_and_fullMask (by decide) harg, by simp⟩

/-- A word that fits the row of a command is the word of a well-formed one, of the same name but with its own
operands. -/
theorem exists_encode_eq_of_fitsRow (i : Instr) {w : Word} (h : w &&& (TableRow.row i).2 = (TableRow.row i).1) :
    ∃ j : Instr, j.wf = true ∧ encode j = w := by
  cases i with
  | est g n =>
    obtain ⟨hopc, harg, -⟩ := (and_eq_iff_fields w 0x0000FEFF 0x00000001).1 h
    refine ⟨.est ((fieldArg8 w).getLsbD 0) (fieldLen16 w).toNat, Machine.fitsLen16_toNat _, ?_⟩
    exact commandWord_eq_iff.2 ⟨eq_of_and_fullMask (by decide) hopc, flag_eq_of_and_eq_zero _ harg, by simp⟩
  | s2f c =>
    obtain ⟨hopc, -, hlen⟩ := (and_eq_iff_fields w 0xFFFF00FF 0x00000002).1 h
    refine ⟨.s2f (fieldArg8 w), rfl, ?_⟩
    exact commandWord_eq_iff.2 ⟨eq_of_and_fullMask (by decide) hopc, rfl, eq_of_and_fullMask (by decide) hlen⟩
  | b2bits l => exact exists_encode_eq_of_fitsLenMask .b2bits (fun _ => rfl) (fun _ => rfl) rfl h
  | bits2b n => exact exists_encode_eq_of_fitsLenMask .bits2b (fun _ => rfl) (fun _ => rfl) rfl h
  | txFrame l => exact exists_encode_eq_of_fitsLenMask .txFrame (fun _ => rfl) (fun _ => rfl) rfl h
  | txBits n => exact exists_encode_eq_of_fitsLenMask .txBits (fun _ => rfl) (fun _ => rfl) rfl h
  | nop | f2s | txAbort | rxStart | rxStop | evtPop | softReset =>
    exact ⟨_, rfl, encode_eq_of_fitsFullMask rfl h⟩

/-- The rows of the table are the rows of the commands. -/
theorem mem_opcodeTable_iff {r : Word × Word} : r ∈ Machine.opcodeTable ↔ ∃ i : Instr, TableRow.row i = r := by
  constructor
  · have htable : Machine.opcodeTable = [Instr.nop, .est false 0, .s2f 0, .f2s, .b2bits 0, .bits2b 0, .txFrame 0,
        .txBits 0, .txAbort, .rxStart, .rxStop, .evtPop, .softReset].map TableRow.row := rfl
    rw [htable, List.mem_map]
    rintro ⟨i, -, hi⟩
    exact ⟨i, hi⟩
  · rintro ⟨i, rfl⟩
    cases i <;> simp [Machine.opcodeTable, TableRow.row]

/-- The decoder accepts exactly the words of the table. -/
theorem exists_decode_eq_ok_iff_fitsRow {w : Word} :
    (∃ i, decode w = .ok i) ↔ ∃ r ∈ Machine.opcodeTable, w &&& r.2 = r.1 := by
  constructor
  · rintro ⟨i, h⟩
    refine ⟨TableRow.row i, mem_opcodeTable_iff.2 ⟨i, rfl⟩, ?_⟩
    rw [← encode_of_decode h]
    exact encode_fitsRow i
  · rintro ⟨r, hr, hw⟩
    obtain ⟨i, rfl⟩ := mem_opcodeTable_iff.1 hr
    obtain ⟨j, hj⟩ := exists_encode_eq_of_fitsRow i hw
    exact ⟨j, decode_eq_ok_iff.2 hj⟩

/-- The second check of R94: an opcode of the map, in a word of no row. -/
theorem decode_eq_illegalOperand {w : Word} (hopc : (fieldOpc w).toNat ≤ 0x0C)
    (hrow : ∀ r ∈ Machine.opcodeTable, w &&& r.2 ≠ r.1) : decode w = .error .illegalOperand := by
  cases h : decode w with
  | ok i =>
    obtain ⟨r, hr, hw⟩ := exists_decode_eq_ok_iff_fitsRow.1 ⟨i, h⟩
    exact absurd hw (hrow r hr)
  | error e =>
    cases e with
    | illegalOperand => rfl
    | illegalOpcode => exact absurd (decode_eq_illegalOpcode_iff.1 h) (Nat.not_lt.2 hopc)

end Sys2Proof

namespace Sys2Proof.Machine

/-! ## The order of the checks (R94) -/

theorem runCommand_of_error {w : Word} {e : DecodeError} (h : decode w = .error e) (s : State) :
    runCommand w s = .next (withResult (refusalCode e).code s) := by
  rw [runCommand, h]
  rfl

/-- Of what a command can do (`exec_effect`), all but writing `RESULT` alone ends with `OK`. -/
theorem exec_failure {i : Instr} {s t : State} (h : exec i s = .next t) (hresult : t.regs.result ≠ 0) :
    t = withResult t.regs.result s := by
  cases exec_effect h with
  | code => rfl
  | _ => exact absurd rfl hresult

/-- A word that ends with a code other than `OK` changes only `RESULT`, whether it is refused or its command fails. -/
theorem runCommand_failure {w : Word} {s t : State} (h : runCommand w s = .next t) (hresult : t.regs.result ≠ 0) :
    t = withResult t.regs.result s := by
  cases hd : decode w with
  | ok i =>
    rw [runCommand_of_decode hd] at h
    exact exec_failure h hresult
  | error e =>
    rw [runCommand_of_error hd] at h
    cases h
    rfl

/-! ## The obligations -/

/-- Settles O1: `decode_encode`, by the command. -/
theorem encodedCommandDecodesToItself : Obligations.EncodedCommandDecodesToItself :=
  fun _ => decode_encode

/-- Settles O2: an accepted word has the fields that its command's word has (`encode_of_decode`), and its counts are
fields of 16 bits (`decode_wf`). -/
theorem decodedWordEncodesBack : Obligations.DecodedWordEncodesBack :=
  fun _ _ => decode_eq_ok_iff.1

/-- Settles O3: each word is its command's (`decode_eq_ok_iff`). -/
theorem writtenWordsDecode : Obligations.WrittenWordsDecode := by
  unfold Obligations.WrittenWordsDecode
  simp only [decode_eq_ok_iff]
  decide

/-- Settles O4: the accepted words are those of the table (`exists_decode_eq_ok_iff_fitsRow`), the two refusals exclude
each other by the opcode, and every failure changes only `RESULT` (`runCommand_failure`). -/
theorem commandChecksComeInOrder : Obligations.CommandChecksComeInOrder := fun _ s =>
  ⟨exists_decode_eq_ok_iff_fitsRow,
    fun hopc => runCommand_of_error (decode_eq_illegalOpcode_iff.2 hopc) s,
    fun hopc hrow => runCommand_of_error (decode_eq_illegalOperand hopc hrow) s,
    fun _ h => runCommand_of_decode h s,
    fun _ => runCommand_failure⟩

end Sys2Proof.Machine
end

section
/-! PROOFS. The estimator (40_estimator.md R110 to R120): `Est` in the terms of the statements, the command EST, what an
edge does to the accumulators, and the estimate that the accumulators give. -/

namespace Sys2Proof.Machine

/-! ## `Est` and `Gate` (R110 to R113) -/

/-- The two ways to the sentinel in one test: fewer than two edges, or a span of 0 (R111, R112). -/
theorem est_eq (ts : List Word) :
    est ts = if ts.length < 2 ∨ span ts = 0 then ⟨0, 1⟩ else ⟨1000000 * (ts.length - 1), span ts⟩ := by
  unfold est
  by_cases hlen : ts.length < 2
  · rw [if_pos hlen, if_pos (.inl hlen)]
    rfl
  · simp only [hlen, false_or]
    rfl

/-- The span of the first `n` timestamps of a sequence (R110). -/
theorem span_map_range (f : Nat → Word) (n : Nat) :
    span ((List.range n).map f) = ∑ i ∈ Finset.range (n - 1), (f (i + 1) - f i).toNat := by
  rw [span_eq_sum, List.length_map, List.length_range]
  refine Finset.sum_congr rfl fun i hi => ?_
  have hlast := Finset.mem_range.1 hi
  have helem (j : Nat) (hj : j < n) : ((List.range n).map f).getD j 0 = f j := by simp [List.getD, hj]
  rw [helem (i + 1) (by omega), helem i (by omega)]

/-- The gate lets a value through or gives the sentinel (R113). -/
theorem gate_eq_or (v : Freq) (lo hi : Nat) : gate v lo hi = v ∨ gate v lo hi = ⟨0, 1⟩ := by
  unfold gate
  split
  · exact .inr rfl
  · split
    · exact .inl rfl
    · exact .inr rfl

/-- The statements' `Gate` is the model's. -/
theorem gated_eq_gate (v : Freq) (lo hi : Nat) :
    gated (v.num, v.den) lo hi = ((gate v lo hi).num, (gate v lo hi).den) := by
  unfold gated gate
  by_cases hzero : v.num = 0
  · simp [hzero, Freq.sentinel]
  · by_cases hin : lo * v.den ≤ v.num ∧ v.num ≤ hi * v.den
    · simp [hzero, hin]
    · simp [hzero, hin, Freq.sentinel]

/-- Settles O42: all `n - 1` intervals are the period, and so their sum is `(n - 1) T`, which is not 0. -/
theorem constantIntervalGivesExactFrequency : Obligations.ConstantIntervalGivesExactFrequency := by
  refine ⟨fun start period n hn hperiod => ?_, rfl, fun _ => rfl⟩
  have hinterval (i : Nat) :
      start + BitVec.ofNat 32 (i + 1) * period - (start + BitVec.ofNat 32 i * period) = period := by
    have hsucc : BitVec.ofNat 32 (i + 1) = BitVec.ofNat 32 i + 1 := BitVec.ofNat_add i 1
    rw [hsucc]
    ring
  have hspan : span ((List.range n).map (fun i => start + BitVec.ofNat 32 i * period)) = (n - 1) * period.toNat := by
    rw [span_map_range]
    simp only [hinterval, Finset.sum_const, Finset.card_range, smul_eq_mul]
  have hpos : period.toNat ≠ 0 := fun h => hperiod (BitVec.eq_of_toNat_eq h)
  have hne : (n - 1) * period.toNat ≠ 0 := Nat.mul_ne_zero (by omega) hpos
  rw [est_eq, hspan, List.length_map, List.length_range, if_neg (not_or.2 ⟨by omega, hne⟩)]

/-! ## The command EST (R115) -/

theorem length_edgeWords (s : State) (n : Nat) : (s.edgeWords n).length = n := by simp [State.edgeWords]

/-- The statements' estimate of `EDGEBUF[0..n-1]` is `Est` of the words that EST reads. -/
theorem edgeEstimate_eq_est (s : State) (n : Nat) :
    edgeEstimate s n = ((est (s.edgeWords n)).num, (est (s.edgeWords n)).den) := by
  have hspan : span (s.edgeWords n) = edgeSpan s n := span_map_range (edgeAt s) n
  unfold edgeEstimate
  rw [est_eq, hspan, length_edgeWords]
  split <;> rfl

/-- What EST delivers, in the statements' terms. -/
theorem estValue_eq (s : State) (g : Bool) (n : Nat) :
    (if g then gated (edgeEstimate s n) s.conf.gateLoHz.toNat s.conf.gateHiHz.toNat else edgeEstimate s n) =
      ((s.estValue g n).num, (s.estValue g n).den) := by
  rw [edgeEstimate_eq_est]
  cases g with
  | false => rfl
  | true => exact gated_eq_gate _ _ _

/-- An estimate from a full `EDGEBUF` fits `RES` and `RES2`. -/
theorem est_lt {ts : List Word} (h : ts.length ≤ 1024) : (est ts).num < 2 ^ 64 ∧ (est ts).den < 2 ^ 64 := by
  have hspan := span_le ts
  rw [est_eq]
  split
  · decide
  · constructor
    · show 1000000 * (ts.length - 1) < 2 ^ 64
      omega
    · show span ts < 2 ^ 64
      omega

theorem estValue_lt (s : State) (g : Bool) {n : Nat} (h : n ≤ 1024) :
    (s.estValue g n).num < 2 ^ 64 ∧ (s.estValue g n).den < 2 ^ 64 := by
  have hest := est_lt (ts := s.edgeWords n) ((length_edgeWords s n).trans_le h)
  cases g with
  | false => exact hest
  | true =>
    show (gate _ _ _).num < 2 ^ 64 ∧ (gate _ _ _).den < 2 ^ 64
    rcases gate_eq_or (est (s.edgeWords n)) s.conf.gateLoHz.toNat s.conf.gateHiHz.toNat with hgate | hgate
    · rwa [hgate]
    · rw [hgate]
      decide

theorem exec_est_of_le (g : Bool) {n : Nat} (h : n ≤ 1024) (s : State) :
    exec (.est g n) s = .next (((s.setRes (s.estValue g n).num).setRes2 (s.estValue g n).den).setResult .ok) :=
  if_neg (Nat.not_lt.2 h)

theorem exec_est_of_gt (g : Bool) {n : Nat} (h : n > 1024) (s : State) :
    exec (.est g n) s = .next (withResult 3 s) :=
  if_pos h

/-- A word runs its command when the decoder's check of its must-be-zero fields is the mask's (R92, R94). -/
theorem wordRuns_of_decode {opc : Nat} {mustBeZero : Word} {i : Word → Instr}
    (h : ∀ w, (fieldOpc w).toNat = opc → decode w = ifZeroFields (w &&& mustBeZero == 0) (i w)) (s : State) :
    WordRuns opc mustBeZero i s := by
  intro w hopc
  constructor
  · intro hzero
    refine runCommand_of_decode ((h w hopc).trans ?_) s
    rw [hzero]
    rfl
  · intro hzero
    refine runCommand_of_error (e := .illegalOperand) ((h w hopc).trans ?_) s
    rw [beq_eq_false_iff_ne.2 hzero]
    rfl

/-- The bits [7:1] of `ARG8` are those under the mask of EST's word. -/
theorem and_estMask_eq_zero_iff (w : Word) : w &&& 0x0000FE00 = 0 ↔ (fieldArg8 w).extractLsb' 1 7 = 0 := by
  have harg : ∀ a : BitVec 8, a &&& fieldArg8 0x0000FE00 = fieldArg8 0 ↔ a.extractLsb' 1 7 = 0 := by decide
  rw [and_eq_iff_fields, ← harg]
  exact ⟨fun ⟨_, h, _⟩ => h, fun h => ⟨BitVec.and_zero, h, BitVec.and_zero⟩⟩

theorem decode_est (w : Word) (hopc : (fieldOpc w).toNat = 0x01) :
    decode w = ifZeroFields (w &&& 0x0000FE00 == 0) (.est (w.getLsbD 8) (len16 w)) := by
  have hzero : (w &&& 0x0000FE00 == 0) = ((fieldArg8 w).extractLsb' 1 7 == 0) :=
    Bool.eq_iff_iff.2 (by simpa only [beq_iff_eq] using and_estMask_eq_zero_iff w)
  have hflag : (fieldArg8 w).getLsbD 0 = w.getLsbD 8 := by simp [fieldArg8]
  rw [hzero, ← hflag, decode, hopc]
  rfl

/-- Settles O27: EST delivers `estValue` (`exec_est_of_le`), which is the statement's value (`estValue_eq`) and fits the
64-bit results (`estValue_lt`). -/
theorem estDeliversExactEstimate : Obligations.EstDeliversExactEstimate := by
  intro g n s
  refine ⟨fun hn => ?_, fun hn => exec_est_of_gt g hn s, wordRuns_of_decode decode_est s⟩
  obtain ⟨hnum, hden⟩ := estValue_lt s g hn
  obtain ⟨hres, hres2⟩ := res_setRes_setRes2 _ _ s hnum hden
  simp only [estValue_eq]
  exact ⟨_, exec_est_of_le g hn s, hres, hres2, rfl, ⟨rfl, rfl, rfl, rfl, rfl, rfl, rfl, rfl⟩, fun _ => rfl⟩

/-! ## One edge (R116) -/

theorem capture_of_first (t : Word) {r : RxEngine} (h : r.accN = 0) :
    r.capture t = { r with accLast := t, accN := 1 } :=
  if_pos h

theorem accN_eq_allOnes_iff (r : RxEngine) : r.accN = BitVec.allOnes 32 ↔ r.accN.toNat = 2 ^ 32 - 1 := by
  rw [BitVec.toNat_eq, BitVec.toNat_allOnes]

/-- A later edge that the count has room for. -/
theorem capture_of_room (t : Word) {r : RxEngine} (hn : r.accN ≠ 0) (hroom : r.accN.toNat < 2 ^ 32 - 1) :
    r.capture t = { r with
      accSpan := r.accSpan + (elapsed t r.accLast).zeroExtend 64, accLast := t, accN := r.accN + 1 } := by
  have hne : r.accN ≠ BitVec.allOnes 32 := fun h => hroom.ne ((accN_eq_allOnes_iff r).1 h)
  rw [RxEngine.capture, if_neg hn, if_neg hne, beq_eq_false_iff_ne.2 hne, Bool.or_false]

/-- A later edge at the greatest count. -/
theorem capture_of_full (t : Word) {r : RxEngine} (hfull : r.accN.toNat = 2 ^ 32 - 1) :
    r.capture t = { r with
      accSpan := r.accSpan + (elapsed t r.accLast).zeroExtend 64, accLast := t, accSat := true } := by
  have heq := (accN_eq_allOnes_iff r).2 hfull
  have hn : r.accN ≠ 0 := by
    rw [heq]
    decide
  rw [RxEngine.capture, if_neg hn, if_pos heq, beq_iff_eq.2 heq, Bool.or_true]

theorem edgeCapture_of_running {s : State} (h : s.rx.rxEn = true) :
    edgeCapture s = { s with rx := s.rx.capture s.nowUs } :=
  if_pos h

theorem toNat_span_add_interval (span : BitVec 64) (d : Word) :
    (span + d.zeroExtend 64).toNat = (span.toNat + d.toNat) % 2 ^ 64 := by
  rw [BitVec.toNat_add, BitVec.zeroExtend, BitVec.toNat_setWidth_of_le (by decide)]

/-- Settles O40: one lemma for each case of an edge; good accumulators hold a span below `2^32`, so adding an interval
does not wrap. -/
theorem edgeCaptureAccumulates : Obligations.EdgeCaptureAccumulates := by
  intro s
  refine ⟨fun hstopped => ?stopped, fun hrun hfirst => ?first, fun hrun hlater => ?later⟩
  case stopped => simp [edgeCapture, hstopped]
  case first => rw [edgeCapture_of_running hrun, capture_of_first _ hfirst]
  case later =>
    have hspan := toNat_span_add_interval s.rx.accSpan (elapsed s.nowUs s.rx.accLast)
    refine ⟨_, hspan, fun ⟨_, _, hacc⟩ => ?exact, fun hroom => ?room, fun hfull => ?full⟩
    case exact =>
      obtain ⟨hle, -⟩ := hacc hrun hlater
      have hsmall : s.rx.accSpan.toNat + (elapsed s.nowUs s.rx.accLast).toNat < 2 ^ 64 := by omega
      exact hspan.trans (Nat.mod_eq_of_lt hsmall)
    case room => rw [edgeCapture_of_running hrun, capture_of_room _ hlater hroom]
    case full => rw [edgeCapture_of_running hrun, capture_of_full _ hfull]

/-! ## All edges of a window (R110, R116, R118) -/

theorem ofNat_length_cons (t : Word) (ts : List Word) :
    BitVec.ofNat 32 (t :: ts).length = 1 + BitVec.ofNat 32 ts.length := by
  rw [List.length_cons, Nat.add_comm]
  exact BitVec.ofNat_add 1 _

/-- Edges after the first add their intervals to the span and their number to the count, as long as it has room. -/
theorem foldl_capture_of_later (ts : List Word) (r : RxEngine) (hn : r.accN ≠ 0)
    (hroom : r.accN.toNat + ts.length < 2 ^ 32) :
    ts.foldl (fun q t => q.capture t) r = { r with
      accSpan := r.accSpan + BitVec.ofNat 64 (spanFrom r.accLast ts)
      accLast := ts.getLastD r.accLast
      accN := r.accN + BitVec.ofNat 32 ts.length } := by
  induction ts generalizing r with
  | nil => simp [spanFrom]
  | cons t ts ih =>
    rw [List.length_cons] at hroom
    have hcount : (r.accN + 1).toNat = r.accN.toNat + 1 :=
      BitVec.toNat_add_of_lt (show r.accN.toNat + 1 < 2 ^ 32 by omega)
    have hspan : r.accSpan + (elapsed t r.accLast).zeroExtend 64 + BitVec.ofNat 64 (spanFrom t ts) =
        r.accSpan + BitVec.ofNat 64 (spanFrom r.accLast (t :: ts)) := by
      rw [spanFrom, BitVec.ofNat_add, BitVec.ofNat_toNat, BitVec.add_assoc]
    rw [List.foldl_cons, capture_of_room t hn (by omega), ih _ ?later (by simp only [hcount]; omega)]
    case later => exact fun h => absurd (hcount.symm.trans (congrArg BitVec.toNat h)) (Nat.succ_ne_zero _)
    simp only [hspan, ofNat_length_cons, BitVec.add_assoc, List.getLastD_cons]

/-- What the accumulators hold after a window's edges: the span, the last edge and the count of the whole list. -/
theorem foldl_capture (ts : List Word) (r : RxEngine) (hn : r.accN = 0) (hlen : ts.length < 2 ^ 32) :
    ts.foldl (fun q t => q.capture t) r = { r with
      accSpan := r.accSpan + BitVec.ofNat 64 (span ts)
      accLast := ts.getLastD r.accLast
      accN := BitVec.ofNat 32 ts.length } := by
  cases ts with
  | nil =>
    have hsame : r = { r with accN := (0 : Word) } := by rw [← hn]
    simpa [span] using hsame
  | cons t ts =>
    rw [List.length_cons] at hlen
    have hone : (1 : Word).toNat + ts.length < 2 ^ 32 := show 1 + ts.length < 2 ^ 32 by omega
    rw [List.foldl_cons, capture_of_first t hn, foldl_capture_of_later ts _ (by simp) hone]
    simp only [span, ofNat_length_cons, List.getLastD_cons]

/-- The span of fewer than `2^32` edges fits the accumulator. -/
theorem span_lt {ts : List Word} (h : ts.length < 2 ^ 32) : span ts < 2 ^ 64 :=
  calc span ts ≤ (ts.length - 1) * (2 ^ 32 - 1) := span_le ts
    _ ≤ 2 ^ 32 * (2 ^ 32 - 1) := Nat.mul_le_mul_right _ (by omega)
    _ < 2 ^ 64 := by decide

theorem winEst_of_sat {r : RxEngine} (h : r.accSat = true) : r.winEst = ⟨0, 1⟩ := if_pos h

/-- Accumulators that hold a list's count and span give its gated estimate (R118). -/
theorem winEst_eq_gate_est {r : RxEngine} {ts : List Word} (hsat : r.accSat = false) (hcount : r.accN.toNat = ts.length)
    (hspan : r.accSpan.toNat = span ts) : r.winEst = gate (est ts) r.latGateLo.toNat r.latGateHi.toNat := by
  have hzero : r.accSpan = 0 ↔ span ts = 0 := by
    rw [← hspan]
    exact BitVec.toNat_eq
  rw [RxEngine.winEst, hsat, if_neg Bool.false_ne_true, est_eq, hcount, hspan]
  simp only [hzero]
  split <;> rfl

/-- Settles O41: the accumulators after the edges are those of the list (`foldl_capture`), and such accumulators give
its gated estimate (`winEst_eq_gate_est`). -/
theorem accumulatorsComputeTheEstimate : Obligations.AccumulatorsComputeTheEstimate := by
  refine ⟨fun r => winEst_of_sat, fun r ts hn hzero hsat hlen => ?_⟩
  simp only [foldl_capture ts r hn hlen, hzero, zero_add]
  have hcount : (BitVec.ofNat 32 ts.length).toNat = ts.length := by
    rw [BitVec.toNat_ofNat, Nat.mod_eq_of_lt hlen]
  have hspan : (BitVec.ofNat 64 (span ts)).toNat = span ts := by
    rw [BitVec.toNat_ofNat, Nat.mod_eq_of_lt (span_lt hlen)]
  exact ⟨hcount, hsat, fun _ => hspan.trans (span_eq_sum ts), winEst_eq_gate_est hsat hcount hspan⟩

end Sys2Proof.Machine
end

section
/-! PROOFS. The Symbol Codec (41_codec.md R131 to R139): the commands S2F, F2S, B2BITS and BITS2B in the terms of the
statements, and the round trip from bytes through their bit characters. -/

namespace Sys2Proof.Machine

/-! ## The words of the commands (R92, R94) -/

/-- The mask of the words that leave only `LEN16` free. -/
theorem and_arg8Mask_eq_zero_iff (w : Word) : w &&& 0x0000FF00 = 0 ↔ fieldArg8 w = 0 := by
  have hmask : fieldArg8 0x0000FF00 = BitVec.allOnes 8 := by decide
  rw [and_eq_iff_fields, hmask, BitVec.and_allOnes]
  exact ⟨fun ⟨_, h, _⟩ => h, fun h => ⟨BitVec.and_zero, h, BitVec.and_zero⟩⟩

/-- The mask of the words that leave only `ARG8` free. -/
theorem and_len16Mask_eq_zero_iff (w : Word) : w &&& 0xFFFF0000 = 0 ↔ fieldLen16 w = 0 := by
  have hmask : fieldLen16 0xFFFF0000 = BitVec.allOnes 16 := by decide
  rw [and_eq_iff_fields, hmask, BitVec.and_allOnes]
  exact ⟨fun ⟨_, _, h⟩ => h, fun h => ⟨BitVec.and_zero, BitVec.and_zero, h⟩⟩

/-- The mask of the words that leave no field free. -/
theorem and_operandMask_eq_zero_iff (w : Word) : w &&& 0xFFFFFF00 = 0 ↔ fieldArg8 w = 0 ∧ fieldLen16 w = 0 := by
  have harg : fieldArg8 0xFFFFFF00 = BitVec.allOnes 8 := by decide
  have hlen : fieldLen16 0xFFFFFF00 = BitVec.allOnes 16 := by decide
  rw [and_eq_iff_fields, harg, hlen, BitVec.and_allOnes, BitVec.and_allOnes]
  exact ⟨fun ⟨_, h⟩ => h, fun h => ⟨BitVec.and_zero, h⟩⟩

/-- The words of a command whose only operand is `LEN16`. -/
theorem wordRuns_len16 {opc : Nat} {f : Nat → Instr}
    (h : ∀ w, (fieldOpc w).toNat = opc → decode w = ifZeroFields (fieldArg8 w == 0) (f (fieldLen16 w).toNat))
    (s : State) : WordRuns opc 0x0000FF00 (fun w => f (len16 w)) s := by
  refine wordRuns_of_decode (fun w hopc => ?_) s
  have hzero : (w &&& 0x0000FF00 == 0) = (fieldArg8 w == 0) :=
    Bool.eq_iff_iff.2 (by simpa only [beq_iff_eq] using and_arg8Mask_eq_zero_iff w)
  rw [hzero, h w hopc]
  rfl

/-- The words of a command whose only operand is `ARG8`. -/
theorem wordRuns_arg8 {opc : Nat} {f : Byte → Instr}
    (h : ∀ w, (fieldOpc w).toNat = opc → decode w = ifZeroFields (fieldLen16 w == 0) (f (fieldArg8 w))) (s : State) :
    WordRuns opc 0xFFFF0000 (fun w => f (w.extractLsb' 8 8)) s := by
  refine wordRuns_of_decode (fun w hopc => ?_) s
  have hzero : (w &&& 0xFFFF0000 == 0) = (fieldLen16 w == 0) :=
    Bool.eq_iff_iff.2 (by simpa only [beq_iff_eq] using and_len16Mask_eq_zero_iff w)
  rw [hzero, h w hopc]
  rfl

/-- The words of a command without operands. -/
theorem wordRuns_noOperand {opc : Nat} {i : Instr}
    (h : ∀ w, (fieldOpc w).toNat = opc → decode w = ifZeroFields (fieldArg8 w == 0 && fieldLen16 w == 0) i)
    (s : State) : WordRuns opc 0xFFFFFF00 (fun _ => i) s := by
  refine wordRuns_of_decode (fun w hopc => ?_) s
  have hzero : (w &&& 0xFFFFFF00 == 0) = (fieldArg8 w == 0 && fieldLen16 w == 0) :=
    Bool.eq_iff_iff.2 (by simpa only [Bool.and_eq_true, beq_iff_eq] using and_operandMask_eq_zero_iff w)
  rw [hzero, h w hopc]

theorem wordRuns_s2f (s : State) : WordRuns 0x02 0xFFFF0000 (fun w => .s2f (w.extractLsb' 8 8)) s :=
  wordRuns_arg8 (fun w hopc => by rw [decode, hopc]; rfl) s

theorem wordRuns_f2s (s : State) : WordRuns 0x03 0xFFFFFF00 (fun _ => .f2s) s :=
  wordRuns_noOperand (fun w hopc => by rw [decode, hopc]; rfl) s

theorem wordRuns_b2bits (s : State) : WordRuns 0x04 0x0000FF00 (fun w => .b2bits (len16 w)) s :=
  wordRuns_len16 (fun w hopc => by rw [decode, hopc]; rfl) s

theorem wordRuns_bits2b (s : State) : WordRuns 0x05 0x0000FF00 (fun w => .bits2b (len16 w)) s :=
  wordRuns_len16 (fun w hopc => by rw [decode, hopc]; rfl) s

/-! ## S2F (R131, R133) -/

theorem indexOf?_of_noSymbol {c : Byte} (h : ∀ i, ¬ SymbolAt i c) : indexOf? c = none :=
  Option.eq_none_iff_forall_ne_some.2 fun i hi => h i ((symbolAt_iff i c).2 hi)

theorem execS2f_of_noSymbol {c : Byte} (h : ∀ i, ¬ SymbolAt i c) (s : State) :
    execS2f c s = .next (withResult 1 s) := by
  rw [execS2f, Config.freqOf?, indexOf?_of_noSymbol h]
  rfl

/-- A table frequency as the two halves of a result. -/
theorem join64_freqAt (cfg : WfConfig) {i : Nat} (hi : i < 67) :
    join64 0 (BitVec.ofNat 32 (cfg.freqAt i)) = cfg.freqAt i := by
  obtain ⟨-, hmax⟩ := cfg.freqAt_range i hi
  rw [join64, BitVec.toNat_ofNat, Nat.mod_eq_of_lt (by omega)]
  exact Nat.zero_add _

/-- Settles O28: S2F on a symbol delivers its frequency (`execS2f_of_symbol`), which fits the result
(`join64_freqAt`). -/
theorem s2fGivesTableFrequency : Obligations.S2fGivesTableFrequency := fun _ s =>
  ⟨fun _ hsym => ⟨_, execS2f_of_symbol hsym, join64_freqAt s.cfg (lt_of_symbolAt hsym), rfl,
      ⟨rfl, rfl, rfl, rfl, rfl, rfl, rfl, rfl⟩, fun _ => rfl⟩,
    fun hnone => execS2f_of_noSymbol hnone s, wordRuns_s2f s⟩

/-! ## F2S (R134 to R136) -/

/-- The statements' `Match` is the model's. -/
theorem within_iff (cfg : Config) (v : Freq) (tol i : Nat) :
    Within cfg v tol i ↔ isMatch v (cfg.freqAt i) tol = true := by
  rw [Within, isMatch, decide_eq_true_eq, Int.abs_eq_natAbs, Nat.cast_le, Nat.cast_mul]

/-- The scan finds the first match, with the symbol's code (R135). -/
theorem freqToSym_of_firstMatch {cfg : Config} {v : Freq} {tol i : Nat} {c : Byte} (hsym : SymbolAt i c)
    (h : FirstMatch cfg v tol i) : freqToSym cfg v tol = some (c, i) := by
  obtain ⟨hi, hmatch, hfirst⟩ := h
  obtain ⟨-, hcode⟩ := codeAt_of_indexOf? c i ((symbolAt_iff i c).1 hsym)
  rw [← hcode]
  exact freqToSym_of_first hi ((within_iff cfg v tol i).1 hmatch) fun j hj =>
    Bool.eq_false_iff.2 fun hm => hfirst j hj ((within_iff cfg v tol j).2 hm)

theorem freqToSym_of_noMatch {cfg : Config} {v : Freq} {tol : Nat} (h : ∀ i < 67, ¬ Within cfg v tol i) :
    freqToSym cfg v tol = none :=
  freqToSym_of_none fun i hi => Bool.eq_false_iff.2 fun hm => h i hi ((within_iff cfg v tol i).2 hm)

theorem execF2s_of_zero {s : State} (h : s.opb = 0) : execF2s s = .next (withResult 3 s) :=
  if_pos h

theorem execF2s_of_some {s : State} {c : Byte} {i : Nat} (hden : s.opb ≠ 0)
    (h : freqToSym s.cfg.toConfig ⟨s.opa, s.opb⟩ s.conf.tolHz.toNat = some (c, i)) :
    execF2s s = .next (((s.setRes c.toNat).setRes2 i).setResult .ok) := by
  rw [execF2s, if_neg hden, h]
  rfl

theorem execF2s_of_none {s : State} (hden : s.opb ≠ 0)
    (h : freqToSym s.cfg.toConfig ⟨s.opa, s.opb⟩ s.conf.tolHz.toNat = none) :
    execF2s s = .next (withResult 1 s) := by
  rw [execF2s, if_neg hden, h]
  rfl

/-- Settles O29: the scan finds the first match (`freqToSym_of_firstMatch`), whose code and index fit the results. -/
theorem f2sGivesFirstSymbolWithinTolerance : Obligations.F2sGivesFirstSymbolWithinTolerance := by
  refine fun s => ⟨execF2s_of_zero, fun hden i c hsym hfirst => ?_,
    fun hden hnone => execF2s_of_none hden (freqToSym_of_noMatch hnone), wordRuns_f2s s⟩
  have hi := lt_of_symbolAt hsym
  have hc := c.isLt
  obtain ⟨hres, hres2⟩ := res_setRes_setRes2 c.toNat i s (by omega) (by omega)
  refine ⟨_, execF2s_of_some hden (freqToSym_of_firstMatch hsym hfirst), hres, hres2, ?_,
    ⟨rfl, rfl, rfl, rfl, rfl, rfl, rfl, rfl⟩, fun _ => rfl⟩
  have hhigh := highHalf_small c.toNat (by omega)
  have hhigh2 := highHalf_small i (by omega)
  simp only [State.setResult_regs, State.setRes2_regs, State.setRes_regs, hhigh, hhigh2, ResultCode.code]

/-! ## What a conversion leaves (R137, R138) -/

/-- The state after a conversion wrote `bs` to `CVTBUF` and delivered `v` in `RES`. -/
def State.converted (bs : List Byte) (v : Nat) (s : State) : State :=
  ((s.writeMem cvtbufBase bs).setRes v).setResult .ok

theorem read_converted {bs : List Byte} {i : Nat} {b : Byte} (h : bs[i]? = some b) (v : Nat) (s : State) :
    Memory.read (s.converted bs v).mem (0x4000 + i) = b := by
  obtain ⟨hi, rfl⟩ := List.getElem?_eq_some_iff.1 h
  exact Memory.read_writeBytes_inside s.mem 0x4000 bs i hi

theorem converted_sameMemoryOutside (bs : List Byte) (v : Nat) (s : State) :
    SameMemoryOutside 0x4000 bs.length s (s.converted bs v) :=
  Memory.read_writeBytes_outside s.mem 0x4000 bs

theorem converted_sameOutsideRegs (bs : List Byte) (v : Nat) (s : State) : SameOutsideRegs s (s.converted bs v) :=
  ⟨rfl, rfl, rfl, rfl, rfl, rfl, rfl, rfl⟩

theorem converted_res (bs : List Byte) {v : Nat} (h : v < 2 ^ 32) (s : State) : (s.converted bs v).res = v :=
  join64_halves v (h.trans (by decide))

theorem converted_regs (bs : List Byte) {v : Nat} (h : v < 2 ^ 32) (s : State) :
    (s.converted bs v).regs =
      { s.regs with result := 0, resLo := (s.converted bs v).regs.resLo, resHi := 0 } := by
  rw [← highHalf_small v h]
  rfl

/-! ## B2BITS (R137) -/

theorem exec_b2bits_of_le {l : Nat} (h : l ≤ 1024) (s : State) :
    exec (.b2bits l) s = .next (s.converted (bytesToChars (s.txBytes l)) (8 * l)) :=
  if_neg (Nat.not_lt.2 h)

theorem exec_b2bits_of_gt {l : Nat} (h : l > 1024) (s : State) : exec (.b2bits l) s = .next (withResult 3 s) :=
  if_pos h

/-- The characters that B2BITS writes, in the statements' terms. -/
theorem getElem?_bytesToChars_txBytes (s : State) {l j k : Nat} (hj : j < l) (hk : k < 8) :
    (bytesToChars (s.txBytes l))[8 * j + k]? = some (bitChar ((txAt s j).getLsbD (7 - k))) := by
  rw [getElem?_bytesToChars _ _ _ hk, getElem?_txBytes s l j hj]
  rfl

/-- Settles O30: B2BITS writes `bytesToChars` of the bytes (`exec_b2bits_of_le`), whose length is `8 l`. -/
theorem b2bitsWritesBitCharacters : Obligations.B2bitsWritesBitCharacters := by
  refine fun l s => ⟨fun hl => ?_, fun hl => exec_b2bits_of_gt hl s, wordRuns_b2bits s⟩
  have hlen : (bytesToChars (s.txBytes l)).length = 8 * l := by rw [length_bytesToChars, length_txBytes]
  have houtside := converted_sameMemoryOutside (bytesToChars (s.txBytes l)) (8 * l) s
  rw [hlen] at houtside
  exact ⟨_, exec_b2bits_of_le hl s,
    fun j hj k hk => read_converted (getElem?_bytesToChars_txBytes s hj hk) _ s, houtside,
    converted_res _ (by omega) s, converted_regs _ (by omega) s, converted_sameOutsideRegs _ _ s⟩

/-! ## BITS2B (R138) -/

/-- The bits that the characters of `TXBUF[0..n-1]` write. -/
def State.charBits (s : State) (n : Nat) : List Bool := (s.txBytes n).map (fun c => c == 0x31)

/-- The character check of R138 fails. -/
theorem exists_invalidChar_iff (s : State) (n : Nat) :
    (s.txBytes n).any (fun c => (charBit? c).isNone) = true ↔ ∃ j < n, txAt s j ≠ 0x30 ∧ txAt s j ≠ 0x31 := by
  simp only [List.any_eq_true, charBit?_isNone, State.txBytes, Memory.readBytes, List.mem_map, List.mem_range,
    exists_exists_and_eq_and]
  rfl

theorem exec_bits2b_of_gt {n : Nat} (h : n > 1024) (s : State) : exec (.bits2b n) s = .next (withResult 3 s) :=
  if_pos h

theorem exec_bits2b_of_malformedLength {n : Nat} (hn : n ≤ 1024) (h : n % 8 ≠ 0) (s : State) :
    exec (.bits2b n) s = .next (withResult 2 s) :=
  (if_neg (Nat.not_lt.2 hn)).trans (if_pos h)

/-- With the range and the length in order, the character check decides (R138). -/
theorem exec_bits2b_of_length {n : Nat} (hn : n ≤ 1024) (hmod : n % 8 = 0) (s : State) :
    exec (.bits2b n) s =
      if ∃ j < n, txAt s j ≠ 0x30 ∧ txAt s j ≠ 0x31 then .next (withResult 3 s)
      else .next (s.converted (packBytes (n / 8) (s.charBits n)) (n / 8)) := by
  simp only [← exists_invalidChar_iff]
  exact (if_neg (Nat.not_lt.2 hn)).trans (if_neg (not_not.2 hmod))

theorem toNat_beq_of_bitChar {c : Byte} (h : c = 0x30 ∨ c = 0x31) : (c == 0x31).toNat = c.toNat - 0x30 := by
  obtain rfl | rfl := h <;> rfl

theorem getD_charBits (s : State) {n j : Nat} (h : j < n) : (s.charBits n).getD j false = (txAt s j == 0x31) := by
  rw [State.charBits, List.getD_eq_getElem?_getD, List.getElem?_map, getElem?_txBytes s n j h]
  rfl

/-- The value of a packed byte, as R138's sum over its characters. -/
theorem toNat_packed {s : State} {n m : Nat} (hm : m < n / 8) (hchars : ∀ j < n, txAt s j = 0x30 ∨ txAt s j = 0x31) :
    (bitsByte (((s.charBits n).drop (8 * m)).take 8)).toNat =
      ∑ k ∈ Finset.range 8, ((txAt s (8 * m + k)).toNat - 0x30) * 2 ^ (7 - k) := by
  rw [toNat_bitsByte]
  refine Finset.sum_congr rfl fun k hk => ?_
  have hk := Finset.mem_range.1 hk
  have hj : 8 * m + k < n := by omega
  rw [getD_take_drop _ _ _ hk, getD_charBits s hj, toNat_beq_of_bitChar (hchars _ hj)]

/-- Settles O31: the checks come in the order of `exec_bits2b_of_gt`, `exec_bits2b_of_malformedLength` and
`exec_bits2b_of_length`, and each byte written is the sum of its characters' weights (`toNat_packed`). -/
theorem bits2bPacksBitCharacters : Obligations.Bits2bPacksBitCharacters := by
  refine fun n s => ⟨fun hn hmod hchars => ?_, fun hn => exec_bits2b_of_gt hn s,
    fun hn hmod => exec_bits2b_of_malformedLength hn hmod s,
    fun hn hmod hbad => (exec_bits2b_of_length hn hmod s).trans (if_pos hbad), wordRuns_bits2b s⟩
  have hvalid : ¬ ∃ j < n, txAt s j ≠ 0x30 ∧ txAt s j ≠ 0x31 := fun ⟨j, hj, h0, h1⟩ => (hchars j hj).elim h0 h1
  have houtside := converted_sameMemoryOutside (packBytes (n / 8) (s.charBits n)) (n / 8) s
  rw [length_packBytes] at houtside
  refine ⟨_, (exec_bits2b_of_length hn hmod s).trans (if_neg hvalid), fun m hm => ?_, houtside,
    converted_res _ (by omega) s, converted_regs _ (by omega) s, converted_sameOutsideRegs _ _ s⟩
  rw [read_converted (getElem?_packBytes _ _ _ hm), toNat_packed hm hchars]

/-! ## The round trip (R140) -/

/-- Packing the bits of bytes gives the bytes, one for each eight bits. -/
theorem packBytes_flatMap_byteBits (bs : List Byte) : packBytes bs.length (bs.flatMap byteBits) = bs := by
  induction bs with
  | nil => rfl
  | cons b bs ih =>
    rw [List.flatMap_cons, List.length_cons, packBytes, List.take_left' (length_byteBits b),
      List.drop_left' (length_byteBits b), bitsByte_byteBits, ih]

theorem pack_flatMap_byteBits (bs : List Byte) : pack (bs.flatMap byteBits) = bs := by
  have hcount : ((bs.flatMap byteBits).length + 7) / 8 = bs.length := by
    rw [length_flatMap_blocks _ 8 length_byteBits]
    omega
  rw [pack, hcount, packBytes_flatMap_byteBits]

/-- A byte is the sum of the weights of its own bit characters, most significant first. -/
theorem sum_bitChar_weights (b : Byte) :
    ∑ k ∈ Finset.range 8, ((bitChar (b.getLsbD (7 - k))).toNat - 0x30) * 2 ^ (7 - k) = b.toNat := by
  have hbit : ∀ x : Bool, (bitChar x).toNat - 0x30 = x.toNat := by decide
  conv_rhs => rw [← bitsByte_byteBits b, toNat_bitsByte]
  refine Finset.sum_congr rfl fun k hk => ?_
  rw [hbit, List.getD_eq_getElem?_getD, getElem?_byteBits b k (Finset.mem_range.1 hk), Option.getD_some]

theorem bitChar_eq_or (x : Bool) : bitChar x = 0x30 ∨ bitChar x = 0x31 := by
  cases x
  · exact .inl rfl
  · exact .inr rfl

/-- Settles O60: what B2BITS wrote (O30), copied to `TXBUF`, passes BITS2B's checks and is packed (O31) to the sum of
the weights of each byte's own bits (`sum_bitChar_weights`); the law of `Pack` is `pack_flatMap_byteBits`. -/
theorem bytesToBitsRoundTrip : Obligations.BytesToBitsRoundTrip := by
  refine ⟨fun s t l hl ht t' hcopy => ?_, pack_flatMap_byteBits⟩
  obtain ⟨hconvert, -, -⟩ := b2bitsWritesBitCharacters l s
  obtain ⟨t₁, ht₁, hwritten, -⟩ := hconvert (by omega)
  obtain rfl : t = t₁ := Host.Outcome.next.inj (ht.symm.trans ht₁)
  have hchar (j : Nat) (hj : j < l) (k : Nat) (hk : k < 8) :
      txAt t' (8 * j + k) = bitChar ((txAt s j).getLsbD (7 - k)) :=
    (hcopy _ (by omega)).trans (hwritten j hj k hk)
  have hvalid (j : Nat) (hj : j < 8 * l) : txAt t' j = 0x30 ∨ txAt t' j = 0x31 := by
    rw [← Nat.div_add_mod j 8, hchar (j / 8) (by omega) (j % 8) (by omega)]
    exact bitChar_eq_or _
  obtain ⟨hpack, -⟩ := bits2bPacksBitCharacters (8 * l) t'
  obtain ⟨u, hu, hbytes, -, hres, hregs, -⟩ := hpack (by omega) (by omega) hvalid
  rw [Nat.mul_div_cancel_left l (by omega)] at hbytes hres
  refine ⟨u, hu, congrArg CmdRegs.result hregs, hres, fun j hj => BitVec.eq_of_toNat_eq ?_⟩
  calc (Memory.read u.mem (0x4000 + j)).toNat
      = ∑ k ∈ Finset.range 8, ((txAt t' (8 * j + k)).toNat - 0x30) * 2 ^ (7 - k) := hbytes j hj
    _ = ∑ k ∈ Finset.range 8, ((bitChar ((txAt s j).getLsbD (7 - k))).toNat - 0x30) * 2 ^ (7 - k) :=
        Finset.sum_congr rfl fun k hk => by rw [hchar j hj k (Finset.mem_range.1 hk)]
    _ = (txAt s j).toNat := sum_bitChar_weights _

end Sys2Proof.Machine
end

section
/-! PROOFS. The Frame Decoder and the RX engine (42_frame_decoder.md R150 to R164, 41_codec.md R139): RX_START and
RX_STOP, the class of a window, and the window step in Idle and in Framing. -/

namespace Sys2Proof

/-- The symbols of two table indices are the same only if the indices are (R95). -/
theorem codeAt_inj {i j : Nat} (hi : i < 67) (hj : j < 67) : codeAt i = codeAt j ↔ i = j := by
  refine ⟨fun h => ?_, congrArg codeAt⟩
  have hindex := congrArg indexOf? h
  rw [indexOf?_codeAt i hi, indexOf?_codeAt j hj] at hindex
  exact Option.some.inj hindex

end Sys2Proof

namespace Sys2Proof.Machine

/-! ## RX_START and RX_STOP (R150, R151) -/

theorem wordRuns_rxStart (s : State) : WordRuns 0x09 0xFFFFFF00 (fun _ => .rxStart) s :=
  wordRuns_noOperand (fun w hopc => by rw [decode, hopc]; rfl) s

theorem wordRuns_rxStop (s : State) : WordRuns 0x0A 0xFFFFFF00 (fun _ => .rxStop) s :=
  wordRuns_noOperand (fun w hopc => by rw [decode, hopc]; rfl) s

/-- RX_START on a stopped engine replaces every field of the engine. -/
theorem exec_rxStart_of_stopped {s : State} (h : s.rx.rxEn = false) :
    exec .rxStart s = .next { withResult 0 s with
      rx := RxEngine.mk true s.conf.tolHz s.conf.gateLoHz s.conf.gateHiHz s.conf.bitDurUs s.conf.timeoutUs s.nowUs
        0 false 0 0 .idle [] 0 } := by
  rw [exec, execRxStart, h]
  rfl

theorem exec_rxStart_of_running {s : State} (h : s.rx.rxEn = true) : exec .rxStart s = .next (withResult 4 s) :=
  if_pos h

/-- Settles O35: `exec_rxStart_of_stopped`, and the refusal on a running engine. -/
theorem rxStartLatchesConfiguration : Obligations.RxStartLatchesConfiguration := fun s =>
  ⟨exec_rxStart_of_stopped, exec_rxStart_of_running, wordRuns_rxStart s⟩

/-- Settles O36: RX_STOP has one case, whose state the statement writes out field by field. -/
theorem rxStopDiscardsSession : Obligations.RxStopDiscardsSession := fun s => ⟨rfl, wordRuns_rxStop s⟩

/-! ## The class of a window (R155) -/

theorem classify_of_noSignal {v : Freq} (h : v.num = 0) (cfg : Config) (tol : Word) :
    classify cfg tol v = .none :=
  if_pos h

theorem classify_of_noMatch {cfg : Config} {tol : Word} {v : Freq} (hsignal : v.num ≠ 0)
    (h : ∀ i < 67, ¬ Within cfg v tol.toNat i) : classify cfg tol v = .other := by
  rw [classify, if_neg hsignal, freqToSym_of_noMatch h]

/-- The class of the first match, by its table index: the codes that R155 names stand at the indices 63 to 66. -/
theorem classify_of_firstMatch {cfg : Config} {tol : Word} {v : Freq} {i : Nat} (hsignal : v.num ≠ 0)
    (h : FirstMatch cfg v tol.toNat i) :
    classify cfg tol v =
      if i = 63 then .start else if i = 64 then .stop else if i = 66 then .bit1 else if i = 65 then .bit0
      else .other := by
  have hi : i < 67 := h.1
  have hsym : SymbolAt i (codeAt i) := (symbolAt_iff i _).2 (indexOf?_codeAt i hi)
  have hstart : codeStart = codeAt 63 := rfl
  have hstop : codeStop = codeAt 64 := rfl
  have hbit0 : codeBit0 = codeAt 65 := rfl
  have hbit1 : codeBit1 = codeAt 66 := rfl
  rw [classify, if_neg hsignal, freqToSym_of_firstMatch hsym h]
  simp only [hstart, hstop, hbit0, hbit1, codeAt_inj hi (j := 63) (by decide), codeAt_inj hi (j := 64) (by decide),
    codeAt_inj hi (j := 65) (by decide), codeAt_inj hi (j := 66) (by decide)]

/-- Settles O43: the scan's three outcomes (`classify_of_noSignal`, `classify_of_firstMatch`, `classify_of_noMatch`);
the two bit symbols exclude each other, so the order in which they are asked for does not matter. -/
theorem windowClassIsTheFirstMatch : Obligations.WindowClassIsTheFirstMatch := by
  refine fun cfg tol v => ⟨fun h => classify_of_noSignal h cfg tol, fun hsignal i h => ?_, classify_of_noMatch⟩
  rw [classify_of_firstMatch hsignal h]
  by_cases hbit0 : i = 65
  · subst hbit0
    rfl
  · simp only [if_neg hbit0]

/-! ## The window step (R156) -/

/-- The end of every window step: the next window opens over the session as it then stands. -/
theorem openWindow_eq_nextWindow (s : State) :
    openWindow s = { s with rx := nextWindow s s.rx.fdState s.rx.sessBits s.rx.sessStart } :=
  rfl

/-- In Idle a START window opens a session that starts now (R157). -/
theorem rxWindowStep_of_idle_start {s : State} (hidle : s.rx.fdState = .idle) (hclass : windowClass s = .start) :
    rxWindowStep s = { s with rx := nextWindow s .framing [] s.nowUs } := by
  have hdecode : decodeWindow (windowClass s) s.rx.winEst s =
      { s with rx := { s.rx with fdState := .framing, sessBits := [], sessStart := s.nowUs } } := by
    simp only [decodeWindow, hidle, hclass]
  exact congrArg openWindow hdecode

/-- In Idle a window of any other class does nothing to the session (R158, R164). -/
theorem decodeWindow_of_idle {k : WinClass} {s : State} (hidle : s.rx.fdState = .idle) (hclass : k ≠ .start)
    (v : Freq) : decodeWindow k v s = s := by
  simp only [decodeWindow, hidle]
  cases k with
  | start => exact absurd rfl hclass
  | _ => rfl

theorem rxWindowStep_of_idle {s : State} (hidle : s.rx.fdState = .idle) (hclass : windowClass s ≠ .start) :
    rxWindowStep s = { s with rx := nextWindow s .idle s.rx.sessBits s.rx.sessStart } := by
  have hdecode : rxWindowStep s = openWindow s := congrArg openWindow (decodeWindow_of_idle hidle hclass s.rx.winEst)
  rw [hdecode, openWindow_eq_nextWindow, hidle]

/-- Settles O44: the two cases of a window in Idle. -/
theorem idleWindowOpensOnlyOnStart : Obligations.IdleWindowOpensOnlyOnStart := fun _ hidle =>
  ⟨rxWindowStep_of_idle_start hidle, rxWindowStep_of_idle hidle⟩

/-! ## The timeout test (R163) -/

theorem timeoutTest_of_notTimedOut {s : State} (h : ¬ TimedOut s) : timeoutTest s = s :=
  if_neg fun ⟨_, hlate⟩ => h hlate

theorem timeoutTest_of_timedOut {s : State} (hframing : s.rx.fdState = .framing) (h : TimedOut s) :
    timeoutTest s = abandonSession s :=
  if_pos ⟨hframing, h⟩

/-- A session that its symbol action has ended is not tested. -/
theorem timeoutTest_of_idle {s : State} (hidle : s.rx.fdState = .idle) : timeoutTest s = s :=
  if_neg fun ⟨hframing, _⟩ => absurd (hidle.symm.trans hframing) (by decide)

/-- A window in Framing: the symbol action of its class, the timeout test, the next window. -/
theorem rxWindowStep_of_framing {s t : State} (hframing : s.rx.fdState = .framing)
    (haction : framingAction (windowClass s) s.rx.winEst s = t) : rxWindowStep s = openWindow (timeoutTest t) := by
  have hdecode : decodeWindow (windowClass s) s.rx.winEst s = timeoutTest t := by
    simp only [decodeWindow, hframing, haction]
  exact congrArg openWindow hdecode

/-- A window whose symbol action ends the session, whatever the timeout. -/
theorem rxWindowStep_of_closingAction {s t : State} (hframing : s.rx.fdState = .framing)
    (haction : framingAction (windowClass s) s.rx.winEst s = t) (hclosed : t.rx.fdState = .idle) :
    rxWindowStep s = openWindow t := by
  rw [rxWindowStep_of_framing hframing haction, timeoutTest_of_idle hclosed]

/-- A window whose symbol action leaves the session open: the timeout test decides whether it goes on. -/
theorem rxWindowStep_of_openAction {s t : State} (hframing : s.rx.fdState = .framing)
    (haction : framingAction (windowClass s) s.rx.winEst s = t) (hopen : t.rx.fdState = .framing) :
    (¬ TimedOut t → rxWindowStep s = { t with rx := nextWindow t .framing t.rx.sessBits t.rx.sessStart }) ∧
    (TimedOut t → rxWindowStep s = { t with
      rx := nextWindow t .idle [] t.rx.sessStart
      irq := Reports.emit .rxTimeout t.rx.sessBits.length t.irq }) := by
  rw [rxWindowStep_of_framing hframing haction]
  refine ⟨fun htime => ?_, fun hlate => ?_⟩
  · rw [timeoutTest_of_notTimedOut htime, openWindow_eq_nextWindow, hopen]
  · rw [timeoutTest_of_timedOut hopen hlate]
    rfl

/-! ## Bit windows (R159, R161) -/

theorem framingAction_bit (b : Bool) (v : Freq) (s : State) :
    framingAction (if b then .bit1 else .bit0) v s = appendBit b s := by
  cases b <;> rfl

theorem appendBit_of_room {s : State} (h : s.rx.sessBits.length ≠ 8192) (b : Bool) :
    appendBit b s = { s with rx := { s.rx with sessBits := s.rx.sessBits ++ [b] } } :=
  if_neg h

theorem appendBit_of_full {s : State} (h : s.rx.sessBits.length = 8192) (b : Bool) :
    appendBit b s = sessionOverflow s :=
  if_pos h

/-- Settles O45: with room the bit is appended and the session stays open for the timeout test
(`rxWindowStep_of_openAction`); without, the overflow ends it (`rxWindowStep_of_closingAction`). -/
theorem bitWindowAppendsOrAbandons : Obligations.BitWindowAppendsOrAbandons := by
  intro s b hframing hclass
  have haction : framingAction (windowClass s) s.rx.winEst s = appendBit b s := by
    rw [hclass, framingAction_bit]
  have hlength : (s.rx.sessBits ++ [b]).length = s.rx.sessBits.length + 1 := List.length_append
  have happended (hroom : s.rx.sessBits.length ≠ 8192) :=
    rxWindowStep_of_openAction hframing (haction.trans (appendBit_of_room hroom b)) hframing
  refine ⟨fun hroom htime => (happended hroom).1 htime, fun hroom hlate => ?_, fun hfull => ?_⟩
  · rw [← hlength]
    exact (happended hroom).2 hlate
  · exact rxWindowStep_of_closingAction hframing (haction.trans (appendBit_of_full hfull b)) rfl

/-! ## Windows of other symbols and without a signal (R162, R164) -/

/-- Settles O47: both symbol actions leave the session open (`rxWindowStep_of_openAction`): the one warns, the other
does nothing. -/
theorem otherWindowsWarnAndTimeOut : Obligations.OtherWindowsWarnAndTimeOut := by
  refine fun s hframing => ⟨fun hclass => ?_, fun hclass => ?_⟩
  · have haction : framingAction (windowClass s) s.rx.winEst s = s.emit .rxWarn (hz s.rx.winEst) := by
      rcases hclass with h | h <;> rw [h] <;> rfl
    exact rxWindowStep_of_openAction hframing haction hframing
  · have haction : framingAction (windowClass s) s.rx.winEst s = s := by rw [hclass]; rfl
    exact rxWindowStep_of_openAction hframing haction hframing

/-! ## STOP windows (R139, R160) -/

theorem length_pack (bits : List Bool) : (pack bits).length = (bits.length + 7) / 8 := length_packBytes _ _

/-- The byte of no bits is the zero that fills `RXBUF`. -/
theorem bitsByte_nil : bitsByte [] = 0 := by decide

/-- Every byte of `RXBUF` after a frame is the byte of its eight bits, those past the end counting 0. -/
theorem getElem?_rxbufImage_pack {bits : List Bool} {m : Nat} (hbits : bits.length ≤ 8192) (hm : m < 1024) :
    (rxbufImage (pack bits))[m]? = some (bitsByte ((bits.drop (8 * m)).take 8)) := by
  have hlength := length_pack bits
  have hfit : (pack bits).take rxbufSize = pack bits := List.take_of_length_le (by simp only [rxbufSize]; omega)
  rw [rxbufImage, hfit]
  by_cases hpacked : m < (bits.length + 7) / 8
  · rw [List.getElem?_append_left (by omega)]
    exact getElem?_packBytes _ bits m hpacked
  · rw [List.getElem?_append_right (by omega), List.getElem?_replicate_of_lt (by simp only [rxbufSize]; omega),
      List.drop_of_length_le (by omega), List.take_nil, bitsByte_nil]

/-- `RXBUF` after a frame, bit by bit. -/
theorem getLsbD_read_rxbufImage {bits : List Bool} {m k : Nat} (hbits : bits.length ≤ 8192) (hm : m < 1024)
    (hk : k < 8) (mem : Memory) :
    (Memory.read (Memory.writeBytes mem 0x2400 (rxbufImage (pack bits))) (0x2400 + m)).getLsbD (7 - k) =
      bits.getD (8 * m + k) false := by
  obtain ⟨hlt, hbyte⟩ := List.getElem?_eq_some_iff.1 (getElem?_rxbufImage_pack hbits hm)
  rw [Memory.read_writeBytes_inside mem 0x2400 _ m hlt, hbyte, getLsbD_bitsByte _ k hk, getD_take_drop bits m k hk]

/-- Settles O46: a STOP window stores the frame and closes the session, so that no timeout test follows
(`rxWindowStep_of_closingAction`); what `RXBUF` then reads is `getLsbD_read_rxbufImage`. -/
theorem stopWindowCompletesFrame : Obligations.StopWindowCompletesFrame := by
  intro s hframing hclass hbits
  have haction : framingAction (windowClass s) s.rx.winEst s = completeFrame s := by rw [hclass]; rfl
  have houtside := Memory.read_writeBytes_outside s.mem 0x2400 (rxbufImage (pack s.rx.sessBits))
  rw [length_rxbufImage] at houtside
  have hcount : (BitVec.ofNat 32 s.rx.sessBits.length).toNat = s.rx.sessBits.length := by
    rw [BitVec.toNat_ofNat, Nat.mod_eq_of_lt (by omega)]
  exact ⟨_, rxWindowStep_of_closingAction hframing haction rfl,
    fun _ hm _ hk => getLsbD_read_rxbufImage hbits hm hk s.mem, houtside, hcount, BitVec.toNat_add _ _,
    rfl, rfl, rfl, rfl, rfl, rfl, rfl, rfl⟩

end Sys2Proof.Machine
end

section
/-! PROOFS. The Transmit Sequencer and the TX engine (43_transmit.md R180 to R190): TX_FRAME, TX_BITS and TX_ABORT, the
phase step, and a TX_FRAME from its acceptance to TX_DONE. -/

namespace Sys2Proof.Machine

/-! ## The words of the commands (R92, R94) -/

theorem wordRuns_txFrame (s : State) : WordRuns 0x06 0x0000FF00 (fun w => .txFrame (len16 w)) s :=
  wordRuns_len16 (fun w hopc => by rw [decode, hopc]; rfl) s

theorem wordRuns_txBits (s : State) : WordRuns 0x07 0x0000FF00 (fun w => .txBits (len16 w)) s :=
  wordRuns_len16 (fun w hopc => by rw [decode, hopc]; rfl) s

theorem wordRuns_txAbort (s : State) : WordRuns 0x08 0xFFFFFF00 (fun _ => .txAbort) s :=
  wordRuns_noOperand (fun w hopc => by rw [decode, hopc]; rfl) s

/-! ## TX_ABORT (R190) -/

theorem exec_txAbort_of_locked {s : State} (h : s.tx.txActive = true) :
    exec .txAbort s = .next { withResult 0 s with
      tx := { s.tx with
        waveOn := false, waveFreq := 0, txActive := false, txItems := [], txPos := 0, txPhase := .tone }
      irq := Reports.emit .txAborted s.tx.txDoneN.toNat s.irq } :=
  if_pos h

theorem exec_txAbort_of_free {s : State} (h : s.tx.txActive = false) : exec .txAbort s = .next (withResult 0 s) :=
  if_neg (Bool.eq_false_iff.1 h)

/-- Settles O34: the two cases of TX_ABORT. -/
theorem txAbortReleasesTheLine : Obligations.TxAbortReleasesTheLine := fun s =>
  ⟨exec_txAbort_of_locked, exec_txAbort_of_free, wordRuns_txAbort s⟩

/-! ## The phase step (R180, R186, R187) -/

theorem txPhaseStep_of_tone {s : State} (h : s.tx.txPhase = .tone) :
    txPhaseStep s = { s with tx := { s.tx with
      waveOn := false, waveFreq := 0, txPhase := .gap, txPhaseEnd := s.nowUs + s.tx.txBitDur } } := by
  rw [txPhaseStep, h]
  rfl

/-- A gap ends: the element is counted, and the list goes on behind it. -/
theorem txPhaseStep_of_gap {s : State} (h : s.tx.txPhase = .gap) :
    txPhaseStep s = startFrom (s.tx.txItems.drop (s.tx.txPos + 1))
      { s with tx := { s.tx with txDoneN := s.tx.txDoneN + 1, txPos := s.tx.txPos + 1 } } := by
  rw [txPhaseStep, h]
  rfl

/-- A gap ends and a tone follows, behind the skips `js`. -/
theorem txPhaseStep_of_gap_tone {s : State} (h : s.tx.txPhase = .gap) {js : List Nat} {f : Word} {rest : List TxItem}
    (hitems : s.tx.txItems.drop (s.tx.txPos + 1) = js.map TxItem.skip ++ .tone f :: rest) :
    txPhaseStep s = { s with
      tx := { s.tx with
        txDoneN := s.tx.txDoneN + 1, txPos := s.tx.txPos + 1 + js.length
        waveOn := true, waveFreq := f, txPhase := .tone, txPhaseEnd := s.nowUs + s.tx.txBitDur }
      irq := js.foldl (fun r j => Reports.emit .txSkip j r) s.irq } := by
  rw [txPhaseStep_of_gap h, hitems, startFrom_skips]
  rfl

/-- A gap ends and only the skips `js` follow. -/
theorem txPhaseStep_of_gap_end {s : State} (h : s.tx.txPhase = .gap) {js : List Nat}
    (hitems : s.tx.txItems.drop (s.tx.txPos + 1) = js.map TxItem.skip) :
    txPhaseStep s = { s with
      tx := { s.tx with
        txDoneN := s.tx.txDoneN + 1, txActive := false, txItems := [], txPos := 0, txPhase := .tone }
      irq := Reports.emit .txDone (s.tx.txDoneN + 1).toNat
        (js.foldl (fun r j => Reports.emit .txSkip j r) s.irq) } := by
  rw [txPhaseStep_of_gap h, hitems, ← List.append_nil (js.map TxItem.skip), startFrom_skips]
  rfl

/-- Settles O48: the end of a tone, and the two cases of the end of a gap. -/
theorem phaseStepAlternatesToneAndGap : Obligations.PhaseStepAlternatesToneAndGap := fun _ =>
  ⟨txPhaseStep_of_tone, fun _ hgap => ⟨fun _ _ => txPhaseStep_of_gap_tone hgap, txPhaseStep_of_gap_end hgap⟩⟩

/-! ## The items of a transmission (R181, R182) -/

/-- The tone of a symbol, by its table index. -/
theorem toneOf_of_symbol (cfg : Config) {i : Nat} {c : Byte} (h : SymbolAt i c) :
    toneOf cfg c = .tone (BitVec.ofNat 32 (cfg.freqAt i)) := by
  rw [toneOf, Config.freqWord, Config.freqOf?, (symbolAt_iff i c).1 h]
  rfl

theorem toneOf_start (s : State) : toneOf s.cfg.toConfig codeStart = .tone (freqWordAt s 63) :=
  toneOf_of_symbol _ ((symbolAt_iff _ _).2 (by decide))

theorem toneOf_stop (s : State) : toneOf s.cfg.toConfig codeStop = .tone (freqWordAt s 64) :=
  toneOf_of_symbol _ ((symbolAt_iff _ _).2 (by decide))

theorem bitTone_eq (s : State) (b : Bool) :
    bitTone s.cfg.toConfig b = .tone (if b then freqWordAt s 66 else freqWordAt s 65) := by
  cases b with
  | true => exact toneOf_of_symbol _ ((symbolAt_iff _ _).2 (by decide))
  | false => exact toneOf_of_symbol _ ((symbolAt_iff _ _).2 (by decide))

/-- The list of a transmission: START, the items of its elements, STOP (R181, R182). -/
def State.framedBy (s : State) (body : List TxItem) : List TxItem :=
  .tone (freqWordAt s 63) :: (body ++ [.tone (freqWordAt s 64)])

@[simp] theorem length_framedBy (s : State) (body : List TxItem) : (s.framedBy body).length = 2 + body.length := by
  simp [State.framedBy, Nat.add_comm 2]

/-- Where an element's item stands. -/
theorem getElem?_framedBy_element (s : State) {body : List TxItem} {i : Nat} {item : TxItem}
    (h : body[i]? = some item) : (s.framedBy body)[1 + i]? = some item := by
  obtain ⟨hi, -⟩ := List.getElem?_eq_some_iff.1 h
  rw [State.framedBy, Nat.add_comm, List.getElem?_cons_succ, List.getElem?_append_left hi, h]

/-- STOP stands behind the elements. -/
theorem getElem?_framedBy_stop (s : State) {body : List TxItem} {n : Nat} (h : body.length = n) :
    (s.framedBy body)[1 + n]? = some (.tone (freqWordAt s 64)) := by
  rw [State.framedBy, Nat.add_comm, List.getElem?_cons_succ, ← h, List.getElem?_concat_length]

/-- The tones of the bits of `TXBUF[0..l-1]`, most significant first (R181). -/
def State.byteItems (s : State) (l : Nat) : List TxItem :=
  ((s.txBytes l).flatMap byteBits).map (bitTone s.cfg.toConfig)

theorem itemsFrame_txBytes (s : State) (l : Nat) :
    itemsFrame s.cfg.toConfig (s.txBytes l) = s.framedBy (s.byteItems l) := by
  rw [itemsFrame, toneOf_start, toneOf_stop]
  rfl

@[simp] theorem length_byteItems (s : State) (l : Nat) : (s.byteItems l).length = 8 * l := by
  rw [State.byteItems, List.length_map, length_flatMap_blocks _ 8 length_byteBits, length_txBytes]

theorem length_frame (s : State) (l : Nat) : (s.framedBy (s.byteItems l)).length = 2 + 8 * l := by
  rw [length_framedBy, length_byteItems]

/-- The tone of bit `7 - k` of byte `j`. -/
theorem getElem?_byteItems (s : State) {l j k : Nat} (hj : j < l) (hk : k < 8) :
    (s.byteItems l)[8 * j + k]? =
      some (.tone (if (txAt s j).getLsbD (7 - k) then freqWordAt s 66 else freqWordAt s 65)) := by
  rw [State.byteItems, List.getElem?_map, getElem?_flatMap_blocks _ 8 length_byteBits _ _ _ hk,
    getElem?_txBytes s l j hj, Option.bind_some, getElem?_byteBits _ _ hk, Option.map_some, bitTone_eq]
  rfl

/-- The items of the characters of `TXBUF[0..n-1]` (R182). -/
def State.charItems (s : State) (n : Nat) : List TxItem := bitItemsFrom s.cfg.toConfig 0 (s.txBytes n)

theorem itemsBits_txBytes (s : State) (n : Nat) :
    itemsBits s.cfg.toConfig (s.txBytes n) = s.framedBy (s.charItems n) := by
  rw [itemsBits, toneOf_start, toneOf_stop]
  rfl

@[simp] theorem length_charItems (s : State) (n : Nat) : (s.charItems n).length = n := by
  rw [State.charItems, length_bitItemsFrom, length_txBytes]

/-- The item of a character: BIT1, BIT0 or a skip (R97, R182). -/
theorem bitItem_eq (s : State) (j : Nat) (c : Byte) :
    bitItem s.cfg.toConfig j c =
      if c = 0x31 then .tone (freqWordAt s 66) else if c = 0x30 then .tone (freqWordAt s 65) else .skip j := by
  rw [bitItem, charBit?]
  split_ifs with h1 h0
  · exact bitTone_eq s true
  · exact bitTone_eq s false
  · rfl

theorem getElem?_charItems (s : State) {n j : Nat} (hj : j < n) :
    (s.charItems n)[j]? = some (if txAt s j = 0x31 then .tone (freqWordAt s 66)
      else if txAt s j = 0x30 then .tone (freqWordAt s 65) else .skip j) := by
  rw [State.charItems, getElem?_bitItemsFrom, getElem?_txBytes s n j hj, Option.map_some, Nat.zero_add, bitItem_eq]
  rfl

/-- A character's item is a tone when the character is a bit character. -/
theorem isTone_bitItem (s : State) (j : Nat) (c : Byte) :
    (bitItem s.cfg.toConfig j c).isTone = decide (c = 0x30 ∨ c = 0x31) := by
  rw [bitItem_eq]
  split_ifs with h1 h0
  · exact (decide_eq_true (.inr h1)).symm
  · exact (decide_eq_true (.inl h0)).symm
  · exact (decide_eq_false (not_or.2 ⟨h0, h1⟩)).symm

theorem countP_isTone_bitItemsFrom (s : State) (j : Nat) (cs : List Byte) :
    (bitItemsFrom s.cfg.toConfig j cs).countP TxItem.isTone = cs.countP (fun c => c = 0x30 ∨ c = 0x31) := by
  induction cs generalizing j with
  | nil => rfl
  | cons c cs ih => rw [bitItemsFrom, List.countP_cons, List.countP_cons, ih, isTone_bitItem]

/-- The tones of TX_BITS: START, STOP and one for each bit character (R185). -/
theorem countP_isTone_itemsBits (s : State) (n : Nat) :
    (itemsBits s.cfg.toConfig (s.txBytes n)).countP TxItem.isTone =
      2 + ((Finset.range n).filter (fun j => txAt s j = 0x30 ∨ txAt s j = 0x31)).card := by
  have hchars : (s.charItems n).countP TxItem.isTone =
      ((Finset.range n).filter (fun j => txAt s j = 0x30 ∨ txAt s j = 0x31)).card := by
    rw [State.charItems, countP_isTone_bitItemsFrom, State.txBytes, Memory.readBytes, List.countP_map,
      ← Nat.count_eq_card_filter_range]
    rfl
  rw [itemsBits_txBytes, State.framedBy, List.countP_cons, List.countP_append, hchars]
  exact Nat.add_comm _ 2

/-! ## TX_FRAME and TX_BITS (R183 to R185, R187) -/

/-- The state after a transmission of `items` was accepted and `v` delivered in `RES`. -/
def State.accepted (items : List TxItem) (v : Nat) (s : State) : State :=
  (({ s with tx := startedTx s items } : State).setRes v).setResult .ok

theorem accepted_res (items : List TxItem) {v : Nat} (h : v < 2 ^ 32) (s : State) : (s.accepted items v).res = v :=
  join64_halves v (h.trans (by decide))

theorem accepted_regs (items : List TxItem) {v : Nat} (h : v < 2 ^ 32) (s : State) :
    (s.accepted items v).regs =
      { s.regs with result := 0, resLo := (s.accepted items v).regs.resLo, resHi := 0 } := by
  rw [← highHalf_small v h]
  rfl

theorem accepted_sameOutsideRegs (items : List TxItem) (v : Nat) (s : State) :
    SameOutsideRegs s { s.accepted items v with tx := s.tx } :=
  ⟨rfl, rfl, rfl, rfl, rfl, rfl, rfl, rfl⟩

/-- A list that begins with START starts it. -/
theorem beginTransmission_framedBy (body : List TxItem) (s : State) :
    beginTransmission (s.framedBy body) s = { s with tx := startedTx s (s.framedBy body) } :=
  beginTransmission_tone _ _ _

theorem exec_txFrame_of_free {l : Nat} {s : State} (hl : l ≤ 1024) (hfree : s.tx.txActive = false) :
    exec (.txFrame l) s = .next (s.accepted (s.framedBy (s.byteItems l)) (2 + 8 * l)) := by
  have hrange : ¬ l > txbufSize := Nat.not_lt.2 hl
  rw [exec, execTxFrame, if_neg hrange, if_neg (Bool.eq_false_iff.1 hfree), itemsFrame_txBytes,
    beginTransmission_framedBy]
  rfl

theorem exec_txFrame_of_locked {l : Nat} {s : State} (hl : l ≤ 1024) (hlocked : s.tx.txActive = true) :
    exec (.txFrame l) s = .next (withResult 4 s) :=
  (if_neg (Nat.not_lt.2 hl)).trans (if_pos hlocked)

theorem exec_txFrame_of_gt {l : Nat} (hl : l > 1024) (s : State) : exec (.txFrame l) s = .next (withResult 3 s) :=
  if_pos hl

theorem exec_txBits_of_free {n : Nat} {s : State} (hn : n ≤ 1024) (hfree : s.tx.txActive = false) :
    exec (.txBits n) s = .next (s.accepted (s.framedBy (s.charItems n))
      (2 + ((Finset.range n).filter (fun j => txAt s j = 0x30 ∨ txAt s j = 0x31)).card)) := by
  have hrange : ¬ n > txbufSize := Nat.not_lt.2 hn
  rw [exec, execTxBits, if_neg hrange, if_neg (Bool.eq_false_iff.1 hfree), countP_isTone_itemsBits, itemsBits_txBytes,
    beginTransmission_framedBy]
  rfl

theorem exec_txBits_of_locked {n : Nat} {s : State} (hn : n ≤ 1024) (hlocked : s.tx.txActive = true) :
    exec (.txBits n) s = .next (withResult 4 s) :=
  (if_neg (Nat.not_lt.2 hn)).trans (if_pos hlocked)

theorem exec_txBits_of_gt {n : Nat} (hn : n > 1024) (s : State) : exec (.txBits n) s = .next (withResult 3 s) :=
  if_pos hn

/-- Settles O32: a free line takes the items of the frame (`exec_txFrame_of_free`), which stand between START and STOP
(`getElem?_byteItems`). -/
theorem txFrameStartsTransmission : Obligations.TxFrameStartsTransmission := by
  refine fun l s => ⟨fun hl hfree => ?_, exec_txFrame_of_locked, fun hl => exec_txFrame_of_gt hl s,
    wordRuns_txFrame s⟩
  exact ⟨_, exec_txFrame_of_free hl hfree, rfl, length_frame s l, rfl,
    fun j hj k hk => getElem?_framedBy_element s (getElem?_byteItems s hj hk),
    getElem?_framedBy_stop s (length_byteItems s l), accepted_res _ (by omega) s, accepted_regs _ (by omega) s,
    accepted_sameOutsideRegs _ _ s, fun _ => rfl⟩

/-- Settles O33: a free line takes the items of the characters (`exec_txBits_of_free`), which stand between START and
STOP (`getElem?_charItems`). -/
theorem txBitsStartsTransmission : Obligations.TxBitsStartsTransmission := by
  refine fun n s => ⟨fun hn hfree => ?_, exec_txBits_of_locked, fun hn => exec_txBits_of_gt hn s, wordRuns_txBits s⟩
  have hlen : (s.framedBy (s.charItems n)).length = 2 + n := by rw [length_framedBy, length_charItems]
  have hcount : ((Finset.range n).filter (fun j => txAt s j = 0x30 ∨ txAt s j = 0x31)).card ≤ n :=
    (Finset.card_filter_le _ _).trans_eq (Finset.card_range n)
  exact ⟨_, exec_txBits_of_free hn hfree, rfl, hlen, rfl,
    fun j hj => getElem?_framedBy_element s (getElem?_charItems s hj), getElem?_framedBy_stop s (length_charItems s n),
    accepted_res _ (by omega) s, accepted_regs _ (by omega) s, accepted_sameOutsideRegs _ _ s, fun _ => rfl⟩

/-! ## Runs of the machine -/

/-- A run, by its first step. -/
theorem run_of_step {M : Host.Core} {s v : M.State} (h : M.step s = .next v) (n : Nat) :
    M.run (n + 1) s = M.run n v := by
  rw [Host.Core.run, h]

/-- A run, continued. -/
theorem run_add {M : Host.Core} {m : Nat} {s u : M.State} (h : M.run m s = .next u) (n : Nat) :
    M.run (m + n) s = M.run n u := by
  induction m generalizing s with
  | zero =>
    cases h
    rw [Nat.zero_add]
  | succ m ih =>
    cases hstep : M.step s with
    | next v =>
      rw [run_of_step hstep] at h
      rw [Nat.add_right_comm, run_of_step hstep, ih h]
    | fault r => simp [Host.Core.run, hstep] at h
    | refused r => simp [Host.Core.run, hstep] at h

/-- A run, continued by one step. -/
theorem run_succ {M : Host.Core} {m : Nat} {s u v : M.State} (h : M.run m s = .next u) (hstep : M.step u = .next v) :
    M.run (m + 1) s = .next v :=
  (run_add h 1).trans (run_of_step hstep 0)

/-! ## Time passing with the transmitter alone (R72, R186) -/

/-- Nothing but the TX engine and the clock will act: RX is stopped and the environment has nothing left to do. -/
structure State.TxAlone (s : State) : Prop where
  rxStopped : s.rx.rxEn = false
  noEdges : s.env.dueEdges = 0
  noAccesses : s.env.dueAccesses = []
  noSchedule : s.env.schedule = []

/-- The state `m` microseconds later, with the turn as given and all else the same. -/
def State.later (m : Nat) (turn : Turn) (s : State) : State :=
  { s with nowUs := s.nowUs + BitVec.ofNat 32 m, env := { s.env with turn := turn } }

theorem State.TxAlone.later {s : State} (h : s.TxAlone) (m : Nat) (turn : Turn) : (s.later m turn).TxAlone :=
  ⟨h.rxStopped, h.noEdges, h.noAccesses, h.noSchedule⟩

theorem txPhaseStep_txAlone {s : State} (h : s.TxAlone) : (txPhaseStep s).TxAlone := by
  obtain ⟨-, -, henv, -, -, -, hrx, -⟩ := txPhaseStep_frame s
  exact ⟨hrx ▸ h.rxStopped, henv ▸ h.noEdges, henv ▸ h.noAccesses, henv ▸ h.noSchedule⟩

theorem later_zero (s : State) : s.later 0 s.env.turn = s := by
  rw [State.later, BitVec.add_zero]

theorem Env.advance_of_idle {e : Env} (hedges : e.dueEdges = 0) (haccesses : e.dueAccesses = [])
    (hschedule : e.schedule = []) : e.advance = { e with turn := .tx } := by
  simp only [Env.advance, hedges, haccesses, hschedule]

theorem tick_later {s : State} (h : s.TxAlone) (m : Nat) (turn : Turn) :
    tick (s.later m turn) = s.later (m + 1) .tx := by
  have hlater := h.later m turn
  rw [tick, Env.advance_of_idle hlater.noEdges hlater.noAccesses hlater.noSchedule, State.later, State.later,
    BitVec.ofNat_add, ← BitVec.add_assoc]
  rfl

/-- Where no phase step comes, the transmitter alone waits for the tick. -/
theorem step_of_txAlone {s : State} (h : s.TxAlone) (htx : txTurn s = false) : step s = .next (tick s) := by
  have hrx : rxTurn s = false := by simp [rxTurn, rxDue, h.rxStopped]
  have hedge : edgeTurn s = false := by simp [edgeTurn, h.noEdges]
  rw [step, agentStep, htx, hrx, hedge, nextAccess, h.noAccesses]
  rfl

/-- No phase step comes before the phase end. -/
theorem txTurn_later_of_lt {s : State} {m : Nat} {turn : Turn} (hend : s.tx.txPhaseEnd = s.nowUs + s.tx.txBitDur)
    (hm : m < s.tx.txBitDur.toNat) : txTurn (s.later m turn) = false := by
  refine txTurn_eq_false (.inr (Bool.eq_false_iff.2 fun hdue => ?_))
  obtain ⟨-, hnow⟩ := (txDue_iff _).1 hdue
  have hreached : s.nowUs + BitVec.ofNat 32 m = s.nowUs + s.tx.txBitDur := hnow.trans hend
  have hlt := s.tx.txBitDur.isLt
  bv_omega

/-- Up to the phase end, each step of the transmitter alone is one microsecond. -/
theorem run_to_phaseEnd {s : State} (h : s.TxAlone) (hend : s.tx.txPhaseEnd = s.nowUs + s.tx.txBitDur) {m : Nat}
    (hm : m ≤ s.tx.txBitDur.toNat) :
    ∃ turn, core.run m s = .next (s.later m turn) ∧ (0 < m → turn = .tx) := by
  induction m with
  | zero => exact ⟨s.env.turn, congrArg _ (later_zero s).symm, fun hpos => absurd hpos (Nat.lt_irrefl 0)⟩
  | succ m ih =>
    obtain ⟨turn, hrun, -⟩ := ih (Nat.le_of_succ_le hm)
    have hstep : step (s.later m turn) = .next (s.later (m + 1) .tx) := by
      rw [step_of_txAlone (h.later m turn) (txTurn_later_of_lt hend hm), tick_later h]
    exact ⟨.tx, run_succ hrun hstep, fun _ => rfl⟩

/-- A whole phase of the transmitter alone: its microseconds, and one more step at its end. -/
theorem run_phase {s : State} (h : s.TxAlone) (hend : s.tx.txPhaseEnd = s.nowUs + s.tx.txBitDur)
    (hactive : s.tx.txActive = true) (hdur : 1 ≤ s.tx.txBitDur.toNat) :
    core.run (s.tx.txBitDur.toNat + 1) s = .next (txPhaseStep (s.later s.tx.txBitDur.toNat .rx)) := by
  obtain ⟨turn, hrun, hturn⟩ := run_to_phaseEnd h hend (Nat.le_refl _)
  have hdue : s.nowUs + BitVec.ofNat 32 s.tx.txBitDur.toNat = s.tx.txPhaseEnd := by
    rw [BitVec.ofNat_toNat, BitVec.setWidth_eq, hend]
  exact run_succ hrun (step_of_txTurn ((txTurn_iff _).2 ⟨hturn hdur, (txDue_iff _).2 ⟨hactive, hdue⟩⟩))

/-! ## The phases of a transmission (R180, R186, R187) -/

/-- The engine while the tone of element `j` is on, but for the phase end. -/
def State.toneEngine (s : State) (items : List TxItem) (j : Nat) (f : Word) : TxEngine :=
  { startedTx s items with txPos := j, txDoneN := BitVec.ofNat 32 j, waveFreq := f }

/-- The engine in the gap behind element `j`, but for the phase end. -/
def State.gapEngine (s : State) (items : List TxItem) (j : Nat) : TxEngine :=
  { startedTx s items with
    txPos := j, txDoneN := BitVec.ofNat 32 j, txPhase := .gap, waveOn := false, waveFreq := 0 }

/-- The run from `t` comes to `u` after `p` phases of the transmission accepted in `s`: there phase `p` starts, with the
engine `e` and its end `BIT_DUR_US` ahead. -/
structure State.PhaseStarts (s t : State) (p : Nat) (e : TxEngine) (u : State) : Prop where
  reached : core.run (p * (s.conf.bitDurUs.toNat + 1)) t = .next u
  alone : u.TxAlone
  irq : u.irq = s.irq
  now : u.nowUs = s.nowUs + BitVec.ofNat 32 (p * s.conf.bitDurUs.toNat)
  tx : u.tx = { e with txPhaseEnd := u.nowUs + s.conf.bitDurUs }

/-- The state in which the phase step at the end of the phase that `u` starts is made. -/
abbrev State.phaseEnd (s u : State) : State := u.later s.conf.bitDurUs.toNat .rx

section Phases

variable {s t u : State} {p : Nat} {e : TxEngine}

/-- The time `m` microseconds into phase `p`. -/
theorem State.PhaseStarts.nowUs_later (h : s.PhaseStarts t p e u) (m : Nat) (turn : Turn) :
    (u.later m turn).nowUs = s.nowUs + BitVec.ofNat 32 (p * s.conf.bitDurUs.toNat + m) := by
  rw [State.later, h.now, BitVec.ofNat_add, BitVec.add_assoc]

theorem State.PhaseStarts.txBitDur_eq (h : s.PhaseStarts t p e u) (hdur : e.txBitDur = s.conf.bitDurUs) :
    u.tx.txBitDur = s.conf.bitDurUs := by
  rw [h.tx]
  exact hdur

theorem State.PhaseStarts.txPhaseEnd_eq (h : s.PhaseStarts t p e u) (hdur : e.txBitDur = s.conf.bitDurUs) :
    u.tx.txPhaseEnd = u.nowUs + u.tx.txBitDur := by
  rw [h.txBitDur_eq hdur, h.tx]

/-- Until its end a phase leaves the engine as it is. -/
theorem State.PhaseStarts.run_within (h : s.PhaseStarts t p e u) (hdur : e.txBitDur = s.conf.bitDurUs) {m : Nat}
    (hm : m ≤ s.conf.bitDurUs.toNat) :
    ∃ turn, core.run (p * (s.conf.bitDurUs.toNat + 1) + m) t = .next (u.later m turn) := by
  obtain ⟨turn, hrun, -⟩ := run_to_phaseEnd h.alone (h.txPhaseEnd_eq hdur) (h.txBitDur_eq hdur ▸ hm)
  exact ⟨turn, (run_add h.reached m).trans hrun⟩

/-- At its end the phase step is made. -/
theorem State.PhaseStarts.run_end (h : s.PhaseStarts t p e u) (hdur : e.txBitDur = s.conf.bitDurUs)
    (hactive : e.txActive = true) (hpos : 1 ≤ s.conf.bitDurUs.toNat) :
    core.run ((p + 1) * (s.conf.bitDurUs.toNat + 1)) t = .next (txPhaseStep (s.phaseEnd u)) := by
  have hrun := run_phase h.alone (h.txPhaseEnd_eq hdur) (by rw [h.tx]; exact hactive) (h.txBitDur_eq hdur ▸ hpos)
  rw [h.txBitDur_eq hdur] at hrun
  rw [Nat.succ_mul, run_add h.reached, hrun]

theorem State.PhaseStarts.nowUs_txPhaseStep (h : s.PhaseStarts t p e u) :
    (txPhaseStep (s.phaseEnd u)).nowUs = s.nowUs + BitVec.ofNat 32 ((p + 1) * s.conf.bitDurUs.toNat) := by
  obtain ⟨-, hnow, -⟩ := txPhaseStep_frame (s.phaseEnd u)
  rw [hnow, h.nowUs_later, Nat.succ_mul]

/-- A phase step that reports nothing and sets up the engine `e'` starts the next phase with it. -/
theorem State.PhaseStarts.succ (h : s.PhaseStarts t p e u) (hdur : e.txBitDur = s.conf.bitDurUs)
    (hactive : e.txActive = true) (hpos : 1 ≤ s.conf.bitDurUs.toNat) {e' : TxEngine}
    (hirq : (txPhaseStep (s.phaseEnd u)).irq = u.irq)
    (htx : (txPhaseStep (s.phaseEnd u)).tx = { e' with txPhaseEnd := (s.phaseEnd u).nowUs + s.conf.bitDurUs }) :
    s.PhaseStarts t (p + 1) e' (txPhaseStep (s.phaseEnd u)) where
  reached := h.run_end hdur hactive hpos
  alone := txPhaseStep_txAlone (h.alone.later _ _)
  irq := hirq.trans h.irq
  now := h.nowUs_txPhaseStep
  tx := by
    obtain ⟨-, hnow, -⟩ := txPhaseStep_frame (s.phaseEnd u)
    rw [hnow, htx]

variable {items : List TxItem} {j : Nat}

/-- Behind the tone of element `j` comes its gap. -/
theorem State.PhaseStarts.gap_of_tone {f : Word} (hpos : 1 ≤ s.conf.bitDurUs.toNat)
    (h : s.PhaseStarts t p (s.toneEngine items j f) u) :
    s.PhaseStarts t (p + 1) (s.gapEngine items j) (txPhaseStep (s.phaseEnd u)) := by
  have htx : (s.phaseEnd u).tx = { s.toneEngine items j f with txPhaseEnd := u.nowUs + s.conf.bitDurUs } := h.tx
  have hstep := txPhaseStep_of_tone (s := s.phaseEnd u) (by rw [htx]; rfl)
  refine h.succ rfl rfl hpos (by rw [hstep]; rfl) ?_
  rw [hstep, htx]
  rfl

/-- Behind the gap of element `j` comes the tone of the next element. -/
theorem State.PhaseStarts.tone_of_gap {f : Word} (hpos : 1 ≤ s.conf.bitDurUs.toNat)
    (h : s.PhaseStarts t p (s.gapEngine items j) u) (hnext : items[j + 1]? = some (.tone f)) :
    s.PhaseStarts t (p + 1) (s.toneEngine items (j + 1) f) (txPhaseStep (s.phaseEnd u)) := by
  have htx : (s.phaseEnd u).tx = { s.gapEngine items j with txPhaseEnd := u.nowUs + s.conf.bitDurUs } := h.tx
  obtain ⟨hj, hitem⟩ := List.getElem?_eq_some_iff.1 hnext
  have hdrop : (s.phaseEnd u).tx.txItems.drop ((s.phaseEnd u).tx.txPos + 1) =
      [].map TxItem.skip ++ .tone f :: items.drop (j + 2) := by
    rw [htx, List.map_nil, List.nil_append, ← hitem]
    exact List.drop_eq_getElem_cons hj
  have hstep := txPhaseStep_of_gap_tone (by rw [htx]; rfl) hdrop
  refine h.succ rfl rfl hpos (by rw [hstep]; rfl) ?_
  rw [hstep, htx, State.toneEngine, BitVec.ofNat_add]
  rfl

/-- Behind the gap of the last element the line is free, and TX_DONE is reported with the count. -/
theorem State.PhaseStarts.done_of_gap (h : s.PhaseStarts t p (s.gapEngine items j) u) (hlast : items.length = j + 1) :
    (txPhaseStep (s.phaseEnd u)).tx.txActive = false ∧ (txPhaseStep (s.phaseEnd u)).tx.waveOn = false ∧
      (txPhaseStep (s.phaseEnd u)).tx.txDoneN = BitVec.ofNat 32 (j + 1) ∧
      (txPhaseStep (s.phaseEnd u)).irq = Reports.emit .txDone (BitVec.ofNat 32 (j + 1)).toNat s.irq := by
  have htx : (s.phaseEnd u).tx = { s.gapEngine items j with txPhaseEnd := u.nowUs + s.conf.bitDurUs } := h.tx
  have hdrop : (s.phaseEnd u).tx.txItems.drop ((s.phaseEnd u).tx.txPos + 1) = [].map TxItem.skip := by
    rw [htx]
    exact List.drop_eq_nil_of_le (Nat.le_of_eq hlast)
  have hirq : (s.phaseEnd u).irq = s.irq := h.irq
  rw [txPhaseStep_of_gap_end (by rw [htx]; rfl) hdrop, htx, hirq, BitVec.ofNat_add]
  exact ⟨rfl, rfl, rfl, rfl⟩

/-- The tone of every element starts in time, two phases behind the one before. -/
theorem State.PhaseStarts.exists_tone (hpos : 1 ≤ s.conf.bitDurUs.toNat)
    (hitems : ∀ i < items.length, ∃ f, items[i]? = some (.tone f))
    (hstart : ∀ f, items[0]? = some (.tone f) → s.PhaseStarts t 0 (s.toneEngine items 0 f) t)
    (hj : j < items.length) :
    ∃ f v, items[j]? = some (.tone f) ∧ s.PhaseStarts t (2 * j) (s.toneEngine items j f) v := by
  induction j with
  | zero =>
    obtain ⟨f, hf⟩ := hitems 0 hj
    exact ⟨f, t, hf, hstart f hf⟩
  | succ j ih =>
    obtain ⟨_, _, -, htone⟩ := ih (Nat.lt_of_succ_lt hj)
    obtain ⟨f, hf⟩ := hitems (j + 1) hj
    exact ⟨f, _, hf, (htone.gap_of_tone hpos).tone_of_gap hpos hf⟩

end Phases

/-! ## A whole TX_FRAME (R183, R186, R187) -/

/-- Every item of a frame is a tone. -/
theorem getElem?_frame_tone (s : State) {l i : Nat} (h : i < (s.framedBy (s.byteItems l)).length) :
    ∃ f, (s.framedBy (s.byteItems l))[i]? = some (.tone f) := by
  have htones : ∀ item ∈ s.framedBy (s.byteItems l), ∃ f, item = .tone f := by
    simp only [State.framedBy, State.byteItems, List.mem_cons, List.mem_append, List.mem_map, List.not_mem_nil,
      or_false]
    rintro item (rfl | ⟨b, -, rfl⟩ | rfl)
    · exact ⟨_, rfl⟩
    · exact ⟨_, bitTone_eq s b⟩
    · exact ⟨_, rfl⟩
  obtain ⟨f, hf⟩ := htones _ (List.getElem_mem h)
  exact ⟨f, List.getElem?_eq_some_iff.2 ⟨h, hf⟩⟩

/-- An accepted transmission is at the start of its first phase. -/
theorem phaseStarts_accepted {s : State} (h : s.TxAlone) (body : List TxItem) (v : Nat) (f : Word)
    (hf : (s.framedBy body)[0]? = some (.tone f)) :
    s.PhaseStarts (s.accepted (s.framedBy body) v) 0 (s.toneEngine (s.framedBy body) 0 f)
      (s.accepted (s.framedBy body) v) where
  reached := by
    rw [Nat.zero_mul]
    rfl
  alone := ⟨h.rxStopped, h.noEdges, h.noAccesses, h.noSchedule⟩
  irq := rfl
  now := by
    rw [Nat.zero_mul, BitVec.add_zero]
    rfl
  tx := by
    cases hf
    rfl

/-- In an accepted frame the tone of every element starts in time. -/
theorem exists_frame_tone {s : State} {l j : Nat} (hpos : 1 ≤ s.conf.bitDurUs.toNat) (h : s.TxAlone) (v : Nat)
    (hj : j < 2 + 8 * l) :
    ∃ f u, (s.framedBy (s.byteItems l))[j]? = some (.tone f) ∧
      s.PhaseStarts (s.accepted (s.framedBy (s.byteItems l)) v) (2 * j)
        (s.toneEngine (s.framedBy (s.byteItems l)) j f) u :=
  State.PhaseStarts.exists_tone hpos (fun _ => getElem?_frame_tone s) (phaseStarts_accepted h (s.byteItems l) v)
    (length_frame s l ▸ hj)

/-- Settles O49: the tone of every element starts in time (`exists_frame_tone`), its gap follows
(`State.PhaseStarts.gap_of_tone`), and the last gap ends the transmission (`State.PhaseStarts.done_of_gap`). -/
theorem txFrameRunsToDone : Obligations.TxFrameRunsToDone := by
  intro l s hl hfree hrx hpos _ hedges haccesses hschedule b
  have halone : s.TxAlone := ⟨hrx, hedges, haccesses, hschedule⟩
  refine ⟨_, exec_txFrame_of_free hl hfree, fun j hj m hm => ?phases, ?done⟩
  case phases =>
    obtain ⟨f, v, hf, htone⟩ := exists_frame_tone hpos halone _ hj
    have hgap := htone.gap_of_tone hpos
    obtain ⟨turn, hrunTone⟩ := htone.run_within rfl (Nat.le_of_lt hm)
    obtain ⟨turn', hrunGap⟩ := hgap.run_within rfl (Nat.le_of_lt hm)
    have htimeGap := hgap.nowUs_later m turn'
    rw [Nat.succ_mul] at htimeGap
    exact ⟨⟨_, f, hrunTone, hf, htone.nowUs_later m turn, congrArg TxEngine.waveOn htone.tx,
      congrArg TxEngine.waveFreq htone.tx⟩, _, hrunGap, htimeGap, congrArg TxEngine.waveOn hgap.tx,
      congrArg TxEngine.txActive hgap.tx⟩
  case done =>
    obtain ⟨f, v, -, htone⟩ := exists_frame_tone hpos halone _ (j := 1 + 8 * l) (l := l) (by omega)
    have hgap := htone.gap_of_tone hpos
    obtain ⟨hactive, hwave, hcount, hirq⟩ := hgap.done_of_gap ((length_frame s l).trans (by omega))
    have hphases : 2 * (1 + 8 * l) + 1 + 1 = 2 * (2 + 8 * l) := by omega
    have hcountNat : (BitVec.ofNat 32 (1 + 8 * l + 1)).toNat = 2 + 8 * l := by
      rw [BitVec.toNat_ofNat, Nat.mod_eq_of_lt] <;> omega
    exact ⟨_, hphases ▸ hgap.run_end rfl rfl hpos, hphases ▸ hgap.nowUs_txPhaseStep, hactive, hwave,
      (congrArg BitVec.toNat hcount).trans hcountNat, hcountNat ▸ hirq⟩

end Sys2Proof.Machine
end

section
/-! PROOFS. The control commands (44_control.md R200 to R203): NOP, EVT_POP and SOFT_RESET in the terms of the
statements. -/

namespace Sys2Proof.Machine

/-! ## The words of the commands (R92, R94) -/

theorem wordRuns_nop (s : State) : WordRuns 0x00 0xFFFFFF00 (fun _ => .nop) s :=
  wordRuns_noOperand (fun w hopc => by rw [decode, hopc]; rfl) s

theorem wordRuns_evtPop (s : State) : WordRuns 0x0B 0xFFFFFF00 (fun _ => .evtPop) s :=
  wordRuns_noOperand (fun w hopc => by rw [decode, hopc]; rfl) s

theorem wordRuns_softReset (s : State) : WordRuns 0x0C 0xFFFFFF00 (fun _ => .softReset) s :=
  wordRuns_noOperand (fun w hopc => by rw [decode, hopc]; rfl) s

/-! ## SOFT_RESET (R203, R250, R251) -/

/-- `RESULT` is OK at power-on (R252), so completing the command leaves the reset state as it is. -/
theorem exec_softReset (s : State) :
    exec .softReset s = .next { State.powerOn s.cfg with nowUs := s.nowUs, env := s.env } := rfl

/-- Settles O25: `exec_softReset`, and the refusal of a nonzero field that all commands without operands share. -/
theorem softResetKeepsOnlyTheClock : Obligations.SoftResetKeepsOnlyTheClock := fun s =>
  ⟨exec_softReset s, wordRuns_softReset s⟩

/-! ## NOP (R200) -/

theorem exec_nop (s : State) : exec .nop s = .next (withResult 0 s) := rfl

/-- Settles O26: `exec_nop`, and the words of NOP. -/
theorem nopOnlyWritesResult : Obligations.NopOnlyWritesResult := fun s => ⟨exec_nop s, wordRuns_nop s⟩

/-! ## EVT_POP (R202) -/

theorem exec_evtPop_of_empty {s : State} (h : s.irq.evq = []) :
    exec .evtPop s = .next { s with regs := { s.regs with result := 0, resLo := 0, resHi := 0 } } := by
  rw [exec, execEvtPop, h]
  rfl

theorem exec_evtPop_of_cons {s : State} {e : Word} {rest : List Word} (h : s.irq.evq = e :: rest) :
    exec .evtPop s = .next { s with
      regs := { s.regs with result := 0, resLo := e, resHi := BitVec.ofNat 32 rest.length }
      irq := { s.irq with evq := rest } } := by
  rw [exec, execEvtPop, h]
  rfl

/-- Settles O37: the FIFO is empty or has an oldest event. -/
theorem evtPopTakesOldestEvent : Obligations.EvtPopTakesOldestEvent := fun s =>
  ⟨exec_evtPop_of_empty, fun _ _ => exec_evtPop_of_cons, wordRuns_evtPop s⟩

end Sys2Proof.Machine
end

section
/-! PROOFS. Events (30_encoding.md R99, 60_exceptions.md R226): the event word as a number, and what the `emit`
primitive does with and without room in the FIFO. -/

namespace Sys2Proof.Machine

/-! ## The event word (R99) -/

theorem Event.code_lt (e : Event) : e.code < 2 ^ 8 :=
  e.code_range.2.trans_lt (by decide)

/-- The code is the low byte of the event word, the saturated payload the 24 bits above it. -/
theorem eventWord_toNat (e : Event) (p : Nat) :
    (eventWord e p).toNat = e.code + 2 ^ 8 * min p (2 ^ 24 - 1) := by
  have hp : min p payloadMax < 2 ^ 24 := (Nat.min_le_right ..).trans_lt (by decide)
  rw [eventWord, BitVec.toNat_append, BitVec.toNat_ofNat, BitVec.toNat_ofNat, Nat.mod_eq_of_lt hp,
    Nat.mod_eq_of_lt e.code_lt, ← Nat.shiftLeft_add_eq_or_of_lt e.code_lt, Nat.shiftLeft_eq, payloadMax, Nat.add_comm,
    Nat.mul_comm]

/-! ## Emitting an event (R226) -/

/-- An event touches only the status bits and the FIFO; of the reports it leaves the enable bits. -/
theorem Reports.emit_eq_with_status_evq (e : Event) (p : Nat) (r : Reports) :
    Reports.emit e p r = { r with status := (Reports.emit e p r).status, evq := (Reports.emit e p r).evq } := by
  unfold Reports.emit
  split <;> rfl

theorem State.emit_eq_with_status_evq (e : Event) (p : Nat) (s : State) :
    s.emit e p = { s with irq := { s.irq with status := (s.emit e p).irq.status, evq := (s.emit e p).irq.evq } } :=
  congrArg (fun r => { s with irq := r }) (Reports.emit_eq_with_status_evq e p s.irq)

theorem Reports.emit_evq_of_room {r : Reports} (h : r.evq.length < 32) (e : Event) (p : Nat) :
    (Reports.emit e p r).evq = r.evq ++ [eventWord e p] :=
  (Reports.emit_evq e p r).trans (if_pos h)

theorem Reports.emit_evq_of_full {r : Reports} (h : 32 ≤ r.evq.length) (e : Event) (p : Nat) :
    (Reports.emit e p r).evq = r.evq :=
  (Reports.emit_evq e p r).trans (if_neg h.not_gt)

theorem Reports.emit_bit_of_room {r : Reports} (h : r.evq.length < 32) (e : Event) (p k : Nat) :
    (Reports.emit e p r).status.getLsbD k = (r.status.getLsbD k || k == e.code - 1) := by
  have hroom : decide (evtDepth ≤ r.evq.length) = false := decide_eq_false h.not_ge
  rw [Reports.emit_bit, hroom, Bool.false_and, Bool.or_false]

theorem Reports.emit_bit_of_full {r : Reports} (h : 32 ≤ r.evq.length) (e : Event) (p k : Nat) :
    (Reports.emit e p r).status.getLsbD k = (r.status.getLsbD k || k == e.code - 1 || k == 8) := by
  have hfull : decide (evtDepth ≤ r.evq.length) = true := decide_eq_true h
  rw [Reports.emit_bit, hfull, Bool.true_and]

/-- Settles O38: the FIFO has room for the event (`Reports.emit_evq_of_room`, `Reports.emit_bit_of_room`) or is full
(`Reports.emit_evq_of_full`, `Reports.emit_bit_of_full`). -/
theorem emitAppendsOrOverflows : Obligations.EmitAppendsOrOverflows := by
  refine ⟨fun e p s => ⟨s.emit e p, rfl, State.emit_eq_with_status_evq e p s, fun hroom => ?room, fun hfull => ?full⟩,
    ?codes⟩
  case room =>
    exact ⟨⟨eventWord e p, Reports.emit_evq_of_room hroom e p, eventWord_toNat e p⟩,
      fun k _ => Reports.emit_bit_of_room hroom e p k⟩
  case full =>
    exact ⟨Reports.emit_evq_of_full hfull e p, fun k _ => Reports.emit_bit_of_full hfull e p k⟩
  case codes => exact ⟨rfl, rfl, rfl, rfl, rfl, rfl, rfl, rfl⟩

end Sys2Proof.Machine
end

section
/-! PROOFS. Reset and completion (70_reset_and_hazards.md R250 to R252, R270, 60_exceptions.md R220, R221): every step
answers, a command completes within its `CMD` write, and the value of each piece of state after power-on. -/

namespace Sys2Proof

/-! ## FMIN and FMAX as table frequencies (00_scope.md section 4) -/

theorem WfConfig.freqAt_mem (c : WfConfig) {i : Nat} (hi : i < 67) : c.freqAt i ∈ c.freq := by
  have hlt : i < c.freq.length := c.length_freq ▸ hi
  rw [c.freqAt_eq_getElem i hlt]
  exact List.getElem_mem hlt

theorem WfConfig.exists_freqAt_eq (c : WfConfig) {f : Nat} (h : f ∈ c.freq) : ∃ i < 67, c.freqAt i = f := by
  obtain ⟨i, hi, rfl⟩ := List.getElem_of_mem h
  exact ⟨i, c.length_freq ▸ hi, c.freqAt_eq_getElem i hi⟩

theorem WfConfig.freq_ne_nil (c : WfConfig) : c.freq ≠ [] := List.ne_nil_of_mem (c.freqAt_mem (i := 0) (by decide))

theorem WfConfig.exists_freqAt_eq_fMin (c : WfConfig) :
    ∃ i < 67, c.freqAt i = c.fMin ∧ ∀ j < 67, c.freqAt i ≤ c.freqAt j := by
  obtain ⟨i, hi, heq⟩ := c.exists_freqAt_eq (leastOf_mem c.freq_ne_nil)
  exact ⟨i, hi, heq, fun j hj => heq.trans_le (leastOf_le (c.freqAt_mem hj))⟩

theorem WfConfig.exists_freqAt_eq_fMax (c : WfConfig) :
    ∃ i < 67, c.freqAt i = c.fMax ∧ ∀ j < 67, c.freqAt j ≤ c.freqAt i := by
  obtain ⟨i, hi, heq⟩ := c.exists_freqAt_eq (greatestOf_mem c.freq_ne_nil)
  exact ⟨i, hi, heq, fun j hj => (le_greatestOf (c.freqAt_mem hj)).trans_eq heq.symm⟩

end Sys2Proof

namespace Sys2Proof.Machine

/-! ## Every step answers, and a command completes at once (R220, R221, R270) -/

/-- The tick comes where no engine step, no edge and no access is left (R72). -/
theorem step_of_noAccess {s : State} (htx : txTurn s = false) (hrx : rxTurn s = false) (hedge : edgeTurn s = false)
    (hdue : s.env.dueAccesses = []) : step s = .next (tick s) := by
  rw [step, agentStep, htx, hrx, hedge, nextAccess, hdue]
  rfl

/-- No agent's step faults or is refused. -/
theorem exists_step_eq_next (s : State) : ∃ t, step s = .next t := by
  cases htx : txTurn s with
  | true => exact ⟨_, step_of_txTurn htx⟩
  | false =>
    cases hrx : rxTurn s with
    | true => exact ⟨_, step_of_rxTurn htx hrx⟩
    | false =>
      cases hedge : edgeTurn s with
      | true => exact ⟨_, step_of_edgeTurn htx hrx hedge⟩
      | false =>
        cases hdue : s.env.dueAccesses with
        | nil => exact ⟨_, step_of_noAccess htx hrx hedge hdue⟩
        | cons a rest =>
          obtain ⟨t, ht, -⟩ := hostAccess_frame a (s.hostTurn rest)
          exact ⟨t, (step_of_nextAccess htx hrx hedge hdue).trans ht⟩

/-- A step that makes the host's next access takes no tick and leaves the later accesses due (R60, R72). -/
theorem step_of_nextAccess_keeps {s t : State} {a : HostAccess} {rest : List HostAccess} (htx : txTurn s = false)
    (hrx : rxTurn s = false) (hedge : edgeTurn s = false) (hdue : s.env.dueAccesses = a :: rest)
    (h : step s = .next t) : t.nowUs = s.nowUs ∧ t.env.turn = .host ∧ t.env.dueAccesses = rest := by
  rw [step_of_nextAccess htx hrx hedge hdue] at h
  obtain ⟨-, hnow, henv⟩ := hostAccess_keeps h
  rw [henv]
  exact ⟨hnow, rfl, rfl⟩

/-- Settles O6: every agent answers (`exists_step_eq_next`), and the `CMD` write is one host access
(`step_of_nextAccess_keeps`). -/
theorem stepsAnswerAndCommandsCompleteAtOnce : Obligations.StepsAnswerAndCommandsCompleteAtOnce :=
  ⟨exists_step_eq_next, fun _ _ _ _ => step_of_nextAccess_keeps⟩

/-! ## The reset values (R32, R250, R252) -/

/-- The reset value of `GATE_LO_HZ` fits its register. -/
theorem toNat_gateLoReset (c : WfConfig) : (State.powerOn c).conf.gateLoHz.toNat = c.fMin - c.tolReset := by
  obtain ⟨i, hi, hmin, -⟩ := c.exists_freqAt_eq_fMin
  obtain ⟨-, hmax⟩ := c.freqAt_range i hi
  show (BitVec.ofNat 32 (c.fMin - c.tolReset)).toNat = _
  rw [BitVec.toNat_ofNat, Nat.mod_eq_of_lt (by omega)]

/-- The reset value of `GATE_HI_HZ` fits its register, by the bound of R32. -/
theorem toNat_gateHiReset (c : WfConfig) :
    (State.powerOn c).conf.gateHiHz.toNat = min (2 ^ 32 - 1) (c.fMax + c.tolReset) := by
  show (BitVec.ofNat 32 (min (2 ^ 32 - 1) (c.fMax + c.tolReset))).toNat = _
  rw [BitVec.toNat_ofNat, Nat.mod_eq_of_lt (by omega)]

/-- `STATUS` reads no part of the configuration (R27), so its value at power-on is that of one configuration. -/
theorem statusWord_powerOn (c : WfConfig) : (State.powerOn c).statusWord = 0 := by
  show State.reset.statusWord = 0
  decide

/-- With `IRQ_STATUS` and `IRQ_EN` 0 the interrupt line is off (R227). -/
theorem irqLine_powerOn (c : WfConfig) : (State.powerOn c).irqLine = false :=
  bne_eq_false_iff_eq.2 (BitVec.zero_and (x := Reports.reset.enable))

theorem State.powerOn?_toConfig (c : WfConfig) : State.powerOn? c.toConfig = .next (State.powerOn c) :=
  State.powerOn?_of_wf c.isWf

/-- Settles O23: the values that depend on the configuration fit their registers (`toNat_tolReset`,
`toNat_bitDurReset`, `toNat_gateLoReset`, `toNat_gateHiReset`), the others are constants, and SOFT_RESET is
`exec_softReset`. -/
theorem powerOnResetValues : Obligations.PowerOnResetValues := by
  intro cfg
  refine ⟨State.powerOn cfg, State.powerOn?_toConfig cfg, rfl, rfl, rfl, rfl, rfl, rfl, toNat_tolReset cfg,
    toNat_bitDurReset cfg, rfl, ?gateLo, ?gateHi, rfl, rfl, Memory.read_nil, statusWord_powerOn cfg,
    irqLine_powerOn cfg, ?softReset⟩
  case gateLo =>
    obtain ⟨i, hi, hmin, hle⟩ := cfg.exists_freqAt_eq_fMin
    exact ⟨i, hi, by rw [hmin, toNat_gateLoReset], hle⟩
  case gateHi =>
    obtain ⟨i, hi, hmax, hle⟩ := cfg.exists_freqAt_eq_fMax
    exact ⟨i, hi, by rw [hmax, toNat_gateHiReset], hle⟩
  case softReset =>
    rintro t rfl
    exact exec_softReset t

end Sys2Proof.Machine
end
